-- ==== Sys2Proof/Word.lean ====
section
/-! DEFINITION. The plain value types of the block: bytes, the four key bytes and the three fields whose widths
the sources fix (spec/00_scope.md R8, R9, R10). -/

namespace Sys2Proof

/-- A byte is 8 bits (R8). -/
abbrev Byte := BitVec 8

/-- A command word, an RNG draw, a payload length: each is 32 bits (R8, R70, R152). -/
abbrev Word := BitVec 32

/-- A frame opcode is 4 bits (R8). -/
abbrev Opcode := BitVec 4

/-- The base length field of header byte 1 is 7 bits (R8). -/
abbrev Len7 := BitVec 7

/-- `Bytes` of R10: a finite sequence of bytes, index 0 the first sent or received. -/
abbrev Bytes := List Byte

/-- The mask key `key[0..3]`, four bytes in wire order (R27, R52). -/
structure Key where
  k0 : Byte
  k1 : Byte
  k2 : Byte
  k3 : Byte
deriving DecidableEq, Repr

end Sys2Proof
end

