-- ==== Sys2Proof/Config.lean ====
section
/-! DEFINITION. The four build-time parameters of the block (spec/00_scope.md R7, 10_state.md R22) and the free
values of the RNG (42_encode.md R152). -/

namespace Sys2Proof

/-- `KEY_DRAW` (R7, R152): the set of mask keys the RNG may answer. -/
inductive KeyDraw where
  | any32      -- every 32-bit value
  | srcRange   -- the integers 1 .. 0x7FFFFFFF
deriving DecidableEq, Repr

/-- `HDR_READ` (R7, R187, R196): how a fixed-size header part is read from the stream. -/
inductive HdrRead where
  | singleShot
  | loop
deriving DecidableEq, Repr

/-- `FAILURE_MODE` (R7, R235): what the block does after it raises an error. -/
inductive FailureMode where
  | propagate
  | observe
deriving DecidableEq, Repr

/-- The parameters of R7. `payloadMax` is `PAYLOAD_MAX`, whose legal values 0 .. 2^32 - 1 are the values of a
32-bit word. -/
structure Config where
  payloadMax  : Word
  keyDraw     : KeyDraw
  hdrRead     : HdrRead
  failureMode : FailureMode
deriving DecidableEq, Repr

/-- The defaults of R7. -/
def Config.default : Config :=
  { payloadMax := 0xFFFFFFFF#32, keyDraw := .any32, hdrRead := .singleShot, failureMode := .propagate }

/-- FREE VALUE (R152, I1): the RNG's answer to its `n`-th draw under `ANY32`, any 32-bit value. No body, so no proof
knows it. -/
opaque Config.freeKey32 : Nat → Word

/-- FREE VALUE (R152, I1): under `SRC_RANGE` the RNG's answer to its `n`-th draw is one more than this, so it is any
integer of 1 .. 0x7FFFFFFF. No body, so no proof knows it. -/
opaque Config.freeSrcKey : Nat → Fin 0x7FFFFFFF

end Sys2Proof
end

