-- ==== Sys2Proof/Syntax.lean ====
section
/-! DEFINITION. The abstract syntax: one constructor for each row of spec/opcode_table.json.

The block is given two kinds of things to decode (30_encoding.md). HOST offers it command words with a payload
operand, and the receive stream gives it the parts of a frame: the two header bytes (a FRAME row, with the opcode's
name), the length (a LEN row, with the extension bytes the tier has) and the mask key (a MASK row, with the key the
MASK bit announces). -/

namespace Sys2Proof

inductive Instr where
  /-- R150: `w[5:2]`, `w[6]` and the payload operand. -/
  | encode (op : Opcode) (final : Bool) (payload : Bytes)
  /-- R180. -/
  | decode
  /-- R73: `cmd = 0b10`, with `w[6:2]` and the payload as given. -/
  | reservedCmd2 (fields : BitVec 5) (payload : Bytes)
  /-- R73: `cmd = 0b11`, with `w[6:2]` and the payload as given. -/
  | reservedCmd3 (fields : BitVec 5) (payload : Bytes)
  /-- R73: `cmd = 0b01` with `w[6:2]` nonzero or a payload. -/
  | reservedDecodeFields (fields : BitVec 5) (payload : Bytes)
  /-- R73: `w[31:7]` nonzero. -/
  | reservedHighBits (high : BitVec 25) (low : BitVec 7) (payload : Bytes)
  /-- R79 to R85: a frame header, by its OPCODE field; the other fields of its two bytes are the operands (R74). -/
  | frameCont (fin : Bool) (rsv : BitVec 3) (masked : Bool) (len7 : Len7)
  | frameText (fin : Bool) (rsv : BitVec 3) (masked : Bool) (len7 : Len7)
  | frameBin (fin : Bool) (rsv : BitVec 3) (masked : Bool) (len7 : Len7)
  | frameClose (fin : Bool) (rsv : BitVec 3) (masked : Bool) (len7 : Len7)
  | framePing (fin : Bool) (rsv : BitVec 3) (masked : Bool) (len7 : Len7)
  | framePong (fin : Bool) (rsv : BitVec 3) (masked : Bool) (len7 : Len7)
  | frameRsvd3 (fin : Bool) (rsv : BitVec 3) (masked : Bool) (len7 : Len7)
  | frameRsvd4 (fin : Bool) (rsv : BitVec 3) (masked : Bool) (len7 : Len7)
  | frameRsvd5 (fin : Bool) (rsv : BitVec 3) (masked : Bool) (len7 : Len7)
  | frameRsvd6 (fin : Bool) (rsv : BitVec 3) (masked : Bool) (len7 : Len7)
  | frameRsvd7 (fin : Bool) (rsv : BitVec 3) (masked : Bool) (len7 : Len7)
  | frameRsvdB (fin : Bool) (rsv : BitVec 3) (masked : Bool) (len7 : Len7)
  | frameRsvdC (fin : Bool) (rsv : BitVec 3) (masked : Bool) (len7 : Len7)
  | frameRsvdD (fin : Bool) (rsv : BitVec 3) (masked : Bool) (len7 : Len7)
  | frameRsvdE (fin : Bool) (rsv : BitVec 3) (masked : Bool) (len7 : Len7)
  | frameRsvdF (fin : Bool) (rsv : BitVec 3) (masked : Bool) (len7 : Len7)
  /-- R86, R117: the length is the LEN7 field, 0..125. -/
  | lenInline (len7 : Len7)
  /-- R86, R117: LEN7 = 126, with the 2 extension bytes. -/
  | lenExt16 (ext : Bytes)
  /-- R86, R117: LEN7 = 127, with the 8 extension bytes. -/
  | lenExt64 (ext : Bytes)
  /-- R88: MASK = 0, no key. -/
  | maskOff
  /-- R88: MASK = 1, with the 4 key bytes. -/
  | maskOn (key : Key)
  /-- R90: the pseudo-instruction `PONG`. -/
  | pong
  /-- R90: the pseudo-instruction `TEXT <bytes>`. -/
  | text (payload : Bytes)
  /-- R90: the pseudo-instruction `BIN <bytes>`. -/
  | bin (payload : Bytes)
  /-- R90: the pseudo-instruction `CLOSE <bytes>`. -/
  | close (payload : Bytes)
deriving DecidableEq, Repr

end Sys2Proof
end

