-- ==== Sys2Proof/WellFormed.lean ====
section
/-! DEFINITION. Which terms of `Instr` are instructions: the operand ranges of spec/30_encoding.md R70 to R73 and
R86. Everything else is in the fields' types. -/

namespace Sys2Proof

/-- The payload operand of an ENCODE is at most `PAYLOAD_MAX` bytes (R70). -/
def payloadFits (pmax : Word) (payload : Bytes) : Bool := payload.length ≤ pmax.toNat

/-- Well-formed under a `PAYLOAD_MAX` of `pmax`. -/
def Instr.wf (pmax : Word) : Instr → Bool
  | .encode _ _ p => payloadFits pmax p
  | .decode => true
  | .reservedCmd2 _ _ => true
  | .reservedCmd3 _ _ => true
  | .reservedDecodeFields f p => f ≠ 0#5 || p ≠ []
  | .reservedHighBits h _ _ => h ≠ 0#25
  | .frameCont _ _ _ _ => true
  | .frameText _ _ _ _ => true
  | .frameBin _ _ _ _ => true
  | .frameClose _ _ _ _ => true
  | .framePing _ _ _ _ => true
  | .framePong _ _ _ _ => true
  | .frameRsvd3 _ _ _ _ => true
  | .frameRsvd4 _ _ _ _ => true
  | .frameRsvd5 _ _ _ _ => true
  | .frameRsvd6 _ _ _ _ => true
  | .frameRsvd7 _ _ _ _ => true
  | .frameRsvdB _ _ _ _ => true
  | .frameRsvdC _ _ _ _ => true
  | .frameRsvdD _ _ _ _ => true
  | .frameRsvdE _ _ _ _ => true
  | .frameRsvdF _ _ _ _ => true
  | .lenInline l => l.toNat ≤ 125
  | .lenExt16 e => e.length = 2
  | .lenExt64 e => e.length = 8
  | .maskOff => true
  | .maskOn _ => true
  | .pong => true
  | .text p => payloadFits pmax p
  | .bin p => payloadFits pmax p
  | .close p => payloadFits pmax p

end Sys2Proof
end

