-- ==== Sys2Proof/Decode.lean ====
section
/-! DEFINITION. The decoder, total on any words and bytes and rejecting by name, and after it the encoder
(spec/30_encoding.md). The byte-order helpers and the header field extractions stand here too, since the decoder
uses them. -/

namespace Sys2Proof

/-! ## Byte order (R10, R51) -/

/-- `BE_n(v)`: the `n`-byte big-endian sequence of `v` (R10). -/
def beBytes : Nat → Nat → Bytes
  | 0, _ => []
  | n + 1, v => BitVec.ofNat 8 (v / 256 ^ n) :: beBytes n v

/-- `unBE(b)`: the unsigned integer whose big-endian encoding is `b` (R10). -/
def unBE : Bytes → Nat
  | [] => 0
  | b :: bs => b.toNat * 256 ^ bs.length + unBE bs

/-- The key bytes in wire order (R27). -/
def Key.bytes (k : Key) : Bytes := [k.k0, k.k1, k.k2, k.k3]

/-- `BE_4(K)` as the four key bytes: `key[0] = K[31:24]` .. `key[3] = K[7:0]` (R52). -/
def keyOfWord (w : Word) : Key :=
  { k0 := w.extractLsb' 24 8, k1 := w.extractLsb' 16 8, k2 := w.extractLsb' 8 8, k3 := w.extractLsb' 0 8 }

/-! ## Command word fields (R70) and header fields (R74, R25) -/

/-- `w[1:0]`. -/
def cmdOf (w : Word) : BitVec 2 := w.extractLsb' 0 2
/-- `w[5:2]`. -/
def cmdOp (w : Word) : Opcode := w.extractLsb' 2 4
/-- `w[6]`. -/
def cmdFin (w : Word) : Bool := w.getLsbD 6
/-- `w[6:2]`, the fields a DECODE word keeps at 0. -/
def cmdFields (w : Word) : BitVec 5 := w.extractLsb' 2 5
/-- `w[31:7]`, reserved. -/
def cmdReserved (w : Word) : BitVec 25 := w.extractLsb' 7 25
/-- `w[6:0]`. -/
def cmdLow (w : Word) : BitVec 7 := w.extractLsb' 0 7

/-- `hdr[0][3:0]`. -/
def hdrOpc (b0 : Byte) : Opcode := b0.extractLsb' 0 4
/-- `hdr[0][6:4]`, the RSV bits: no meaning reads them (R25, R77). -/
def hdrRsv (b0 : Byte) : BitVec 3 := b0.extractLsb' 4 3
/-- `hdr[0][7]`. -/
def hdrFin (b0 : Byte) : Bool := b0.getLsbD 7
/-- `hdr[1][7]`. -/
def hdrMsk (b1 : Byte) : Bool := b1.getLsbD 7
/-- `hdr[1][6:0]`. -/
def hdrLen7 (b1 : Byte) : Len7 := b1.extractLsb' 0 7

/-- `extSize(len7)`: the number of extension bytes that follow the header (R115). -/
def extSize (len7 : Len7) : Nat :=
  if len7.toNat ≤ 125 then 0 else if len7.toNat = 126 then 2 else 8

/-! ## The decoder -/

/-- What the decoder is given: a command word with its payload operand (R70), or a part of a frame (R75) as the
block's sequencer has read it: the two header bytes; the extension, with the LEN7 field that announced it; the mask
key, with the MASK bit that announced it. -/
inductive Part where
  | command (w : Word) (payload : Bytes)
  | header (b0 b1 : Byte)
  | extension (len7 : Len7) (ext : Bytes)
  | maskKey (masked : Bool) (key : Bytes)
deriving DecidableEq, Repr

/-- Why the decoder rejects. `lengthUnsupported` is R72's refusal; the other two say that a part of a frame has not
the size its header gives it (R75), which no part the block reads has. -/
inductive Reject where
  | lengthUnsupported
  | extensionSize
  | keySize
deriving DecidableEq, Repr

inductive Decoded where
  | ok (i : Instr)
  | reject (r : Reject)
deriving DecidableEq, Repr

def Decoded.toOption : Decoded → Option Instr
  | .ok i => some i
  | .reject _ => none

/-- The row that names an ENCODE: where a pseudo-instruction of R90 expands to it, that row (its word has every bit
fixed), else ENCODE. -/
def encodeRow (op : Opcode) (final : Bool) (payload : Bytes) : Instr :=
  if final && op == 1#4 then .text payload
  else if final && op == 2#4 then .bin payload
  else if final && op == 8#4 then .close payload
  else if final && op == 10#4 && payload.isEmpty then .pong
  else .encode op final payload

/-- The row that names an instruction's words: `encodeRow` for an ENCODE, itself for every other. -/
def Instr.canon : Instr → Instr
  | .encode op final p => encodeRow op final p
  | i => i

/-- The FRAME row of an OPCODE field (R78 to R85). -/
def frameRow (op : Opcode) (fin : Bool) (rsv : BitVec 3) (masked : Bool) (len7 : Len7) : Instr :=
  match op.toNat with
  | 0 => .frameCont fin rsv masked len7
  | 1 => .frameText fin rsv masked len7
  | 2 => .frameBin fin rsv masked len7
  | 3 => .frameRsvd3 fin rsv masked len7
  | 4 => .frameRsvd4 fin rsv masked len7
  | 5 => .frameRsvd5 fin rsv masked len7
  | 6 => .frameRsvd6 fin rsv masked len7
  | 7 => .frameRsvd7 fin rsv masked len7
  | 8 => .frameClose fin rsv masked len7
  | 9 => .framePing fin rsv masked len7
  | 10 => .framePong fin rsv masked len7
  | 11 => .frameRsvdB fin rsv masked len7
  | 12 => .frameRsvdC fin rsv masked len7
  | 13 => .frameRsvdD fin rsv masked len7
  | 14 => .frameRsvdE fin rsv masked len7
  | _ => .frameRsvdF fin rsv masked len7

/-- `decodeCmd(w, P)` of R72, with `pmax` for `PAYLOAD_MAX`. A word it refuses as reserved is a RESERVED row of the
table, whose meaning is that refusal. -/
def decodeCmd (pmax : Word) (w : Word) (payload : Bytes) : Decoded :=
  if cmdReserved w ≠ 0#25 then .ok (.reservedHighBits (cmdReserved w) (cmdLow w) payload)
  else if cmdOf w = 0b00#2 then
    if payloadFits pmax payload then .ok (encodeRow (cmdOp w) (cmdFin w) payload) else .reject .lengthUnsupported
  else if cmdOf w = 0b01#2 then
    if cmdFields w ≠ 0#5 ∨ payload ≠ [] then .ok (.reservedDecodeFields (cmdFields w) payload) else .ok .decode
  else if cmdOf w = 0b10#2 then .ok (.reservedCmd2 (cmdFields w) payload)
  else .ok (.reservedCmd3 (cmdFields w) payload)

/-- The two header bytes (R74): every pair of bytes is a header. -/
def decodeHeader (b0 b1 : Byte) : Instr :=
  frameRow (hdrOpc b0) (hdrFin b0) (hdrRsv b0) (hdrMsk b1) (hdrLen7 b1)

/-- The length tier of LEN7 with its extension bytes (R86, R115). -/
def decodeLength (len7 : Len7) (ext : Bytes) : Decoded :=
  if ext.length ≠ extSize len7 then .reject .extensionSize
  else if len7.toNat ≤ 125 then .ok (.lenInline len7)
  else if len7.toNat = 126 then .ok (.lenExt16 ext)
  else .ok (.lenExt64 ext)

/-- The MASK bit with its key bytes, taken in wire order (R88, R52). -/
def decodeMask : Bool → Bytes → Decoded
  | false, [] => .ok .maskOff
  | true, [a, b, c, d] => .ok (.maskOn ⟨a, b, c, d⟩)
  | _, _ => .reject .keySize

/-- The decoder. -/
def decode (pmax : Word) : Part → Decoded
  | .command w payload => decodeCmd pmax w payload
  | .header b0 b1 => .ok (decodeHeader b0 b1)
  | .extension len7 ext => decodeLength len7 ext
  | .maskKey masked key => decodeMask masked key

/-! ## The encoder -/

/-- The command word of its fields (R70). -/
def cmdWord (reserved : BitVec 25) (fin : Bool) (op : Opcode) (cmd : BitVec 2) : Word :=
  reserved ++ BitVec.ofBool fin ++ op ++ cmd

/-- The two header bytes of their fields (R74). -/
def headerPart (op : Opcode) (fin : Bool) (rsv : BitVec 3) (masked : Bool) (len7 : Len7) : Part :=
  .header (BitVec.ofBool fin ++ rsv ++ op) (BitVec.ofBool masked ++ len7)

/-- The words or bytes of an instruction. -/
def encode : Instr → Part
  | .encode op final p => .command (cmdWord 0#25 final op 0b00#2) p
  | .decode => .command (cmdWord 0#25 false 0#4 0b01#2) []
  | .reservedCmd2 f p => .command (0#25 ++ f ++ 0b10#2) p
  | .reservedCmd3 f p => .command (0#25 ++ f ++ 0b11#2) p
  | .reservedDecodeFields f p => .command (0#25 ++ f ++ 0b01#2) p
  | .reservedHighBits h l p => .command (h ++ l) p
  | .frameCont f r m l => headerPart 0#4 f r m l
  | .frameText f r m l => headerPart 1#4 f r m l
  | .frameBin f r m l => headerPart 2#4 f r m l
  | .frameClose f r m l => headerPart 8#4 f r m l
  | .framePing f r m l => headerPart 9#4 f r m l
  | .framePong f r m l => headerPart 10#4 f r m l
  | .frameRsvd3 f r m l => headerPart 3#4 f r m l
  | .frameRsvd4 f r m l => headerPart 4#4 f r m l
  | .frameRsvd5 f r m l => headerPart 5#4 f r m l
  | .frameRsvd6 f r m l => headerPart 6#4 f r m l
  | .frameRsvd7 f r m l => headerPart 7#4 f r m l
  | .frameRsvdB f r m l => headerPart 11#4 f r m l
  | .frameRsvdC f r m l => headerPart 12#4 f r m l
  | .frameRsvdD f r m l => headerPart 13#4 f r m l
  | .frameRsvdE f r m l => headerPart 14#4 f r m l
  | .frameRsvdF f r m l => headerPart 15#4 f r m l
  | .lenInline l => .extension l []
  | .lenExt16 e => .extension 126#7 e
  | .lenExt64 e => .extension 127#7 e
  | .maskOff => .maskKey false []
  | .maskOn k => .maskKey true k.bytes
  | .pong => .command 0x00000068#32 []
  | .text p => .command 0x00000044#32 p
  | .bin p => .command 0x00000048#32 p
  | .close p => .command 0x00000060#32 p

/-! ## The decoder on a word of the opcode table -/

/-- Byte 0 of a 16-bit header: the table writes it byte0 << 8 | byte1. -/
def headerByte0 (h : BitVec 16) : Byte := h.extractLsb' 8 8
/-- Byte 1 of a 16-bit header. -/
def headerByte1 (h : BitVec 16) : Byte := h.extractLsb' 0 8

/-- What the decoder is given for a table word of 32 bits (a command word with no payload) or 16 bits (a frame
header). A header word matches a FRAME row, a LEN row and a MASK row at once; as for command words, the row with the
most fixed bits names it: LEN_EXT16 and LEN_EXT64 (7 bits), then the FRAME rows (4 bits). An extension has no bits
in the table and is zeros here. -/
def tablePart (nbits w : Nat) : Option Part :=
  if 2 ^ nbits ≤ w then none
  else if nbits = 32 then some (.command (BitVec.ofNat 32 w) [])
  else if nbits = 16 then
    let h := BitVec.ofNat 16 w
    let l := hdrLen7 (headerByte1 h)
    if extSize l = 0 then some (.header (headerByte0 h) (headerByte1 h))
    else some (.extension l (List.replicate (extSize l) 0#8))
  else none

def decodeTableWord (nbits w : Nat) : Option Instr :=
  match tablePart nbits w with
  | some p => (decode Config.default.payloadMax p).toOption
  | none => none

end Sys2Proof
end

