-- ==== Sys2Proof/Machine/State.lean ====
section
/-! DEFINITION. The state of the block (spec/10_state.md), the channels to its neighbours HOST, STREAM and RNG
(00_scope.md R6) as plain data, the reasons a step can stop, and the state after power-on. -/

namespace Sys2Proof.Machine

/-- The decode sequencer (R24). -/
inductive Phase where
  | idle
  | dHdr
  | dExt
  | dKey
  | dPay
deriving DecidableEq, Repr

/-- The response record (R30). A field that is not present holds no value: `none` (R32). -/
structure Rsp where
  status  : BitVec 3
  cmd     : BitVec 2
  opcode  : Option Opcode
  final   : Option Bool
  masked  : Option Bool
  length  : Option Word
  maskKey : Option Key
  payload : Option Bytes
  frame   : Option Bytes
deriving DecidableEq, Repr

/-- The fields of the response record, as HOST names them when it reads one (R30). -/
inductive RspField where
  | status
  | cmd
  | opcode
  | final
  | masked
  | length
  | maskKey
  | payload
  | frame
deriving DecidableEq, Repr

/-- One move of HOST, the agent that issues commands and consumes responses (R6, R245). -/
inductive HostMove where
  /-- offer a command word with its payload operand (R70); held while the block is busy (R39, R270) -/
  | offer (w : Word) (payload : Bytes)
  /-- assert reset, which acts in any phase (R260) -/
  | reset
  /-- read a field of the response (R271) -/
  | read (f : RspField)
  /-- make no move while the block takes one step -/
  | wait
deriving DecidableEq, Repr

/-- How STREAM meets one read request (R53, R54): with data, up to `k` bytes; with an I/O error; or not yet. -/
inductive StreamMove where
  | data (k : Nat)
  | err
  | late
deriving DecidableEq, Repr

/-- STREAM's answers to come: `WholeReads`, or a list of them in order, after which it does not answer (R55). -/
inductive StreamPlan where
  | whole
  | chunked (moves : List StreamMove)
deriving DecidableEq, Repr

/-- The state. The first group is the block's (R23), the second the parameters its step takes (R7, R22), the third
its neighbours' (R6, R34, R89). -/
structure State where
  phase    : Phase
  /-- the header bytes, at most 2 -/
  hdr      : Bytes
  opc      : Option Opcode
  fin      : Option Bool
  msk      : Option Bool
  len7     : Option Len7
  /-- `L`, the declared payload length (R26) -/
  len      : Option Word
  /-- the bytes of a header part that `HDR_READ = LOOP` has collected (R196) -/
  part     : Bytes
  /-- `key[0..3]` (R27) -/
  key      : Option Key
  /-- the payload bytes received so far (R28) -/
  buf      : Bytes
  /-- the response record, or no value (R30) -/
  rsp      : Option Rsp
  /-- the sticky mark (R33) -/
  refused  : Bool
  /-- the build-time parameters: no step writes them -/
  cfg      : Config
  /-- `S`: the bytes the peer sends that the block has not consumed (R34) -/
  stream   : Bytes
  /-- STREAM's answers to come -/
  plan     : StreamPlan
  /-- the sizes of the `StreamRead` requests answered so far, oldest first (R53, R57) -/
  requests : List Nat
  /-- the RNG's draws to come that are given in advance (R89); after them a draw is a free value -/
  keys     : List Word
  /-- the number of draws made: the argument of the free value -/
  draws    : Nat
  /-- HOST's moves to come, in order -/
  host     : List HostMove
  /-- the frames `Emit` has delivered to HOST, oldest first (R59) -/
  emitted  : List Bytes
deriving DecidableEq, Repr

/-- The decode registers that can hold no value (R23, R32). -/
inductive DecReg where
  | opc
  | fin
  | msk
  | len7
  | len
  | key
deriving DecidableEq, Repr

/-- The faults of R249 (and two that no run reaches). All are safe: the model stops where it has no value to go on
with. -/
inductive Fault where
  /-- R249: a decode register is read that holds no value. Raised by `readReg`; safe. -/
  | regNoValue (r : DecReg)
  /-- R249: HOST reads a field of `rsp` while `rsp` holds no value. Raised by `hostRead`; safe. -/
  | rspNoValue
  /-- R249: HOST reads a field that the response does not carry. Raised by `hostRead`; safe. -/
  | fieldAbsent (f : RspField)
  /-- R53: a `StreamRead` of 0 bytes, which is no request. Raised by `streamRead` in states no run reaches; safe. -/
  | emptyRequest
  /-- R75: a part of a frame of the wrong size. Raised by `runDecoded` in states no run reaches; safe. -/
  | malformedPart
deriving DecidableEq, Repr

/-- The refusals of R248. Each carries the state the refusal leaves, whose `refused` mark is set (R33, R188): a refused
run has no next state, so this is where its mark and what it consumed stand. -/
inductive Refusal where
  /-- An instruction that has no meaning in this model. Raised by `exec`'s arms alone; safe. -/
  | notModelled (mnemonic : String)
  /-- R248 `CMD_RESERVED`. Raised by the RESERVED rows; safe. -/
  | cmdReserved (left : State)
  /-- R248 `LENGTH_UNSUPPORTED`. Raised by `runDecoded` for an ENCODE and by `setLength`; safe. -/
  | lengthUnsupported (left : State)
  /-- R248 `OBSERVE_MODE`. Raised by `raiseError` when `FAILURE_MODE = OBSERVE`; safe. -/
  | observeMode (left : State)
  /-- R33: a step of a state whose `refused` mark is set. Raised by `fetch`; safe. -/
  | alreadyRefused (left : State)
deriving DecidableEq, Repr

/-- The outcomes of a step of this machine (R12). -/
abbrev Result := Host.Outcome State Fault Refusal

/-- The state after power-on (R37, R260, R261), with the default parameters (R7) and neighbours that have nothing
to say: no byte has come, STREAM answers whole reads, no draw is given in advance and HOST makes no move. -/
def State.reset : State where
  phase := .idle
  hdr := []
  opc := none
  fin := none
  msk := none
  len7 := none
  len := none
  part := []
  key := none
  buf := []
  rsp := none
  refused := false
  cfg := Config.default
  stream := []
  plan := .whole
  requests := []
  keys := []
  draws := 0
  host := []
  emitted := []

end Sys2Proof.Machine
end

