-- ==== Sys2Proof/Machine/Flags.lean ====
section
/-! DEFINITION. The block's only flags, the two frame flags (spec/10_state.md R29): `fin` and `msk`, set by the header
step, and the FIN and MASK bits ENCODE writes. -/

namespace Sys2Proof.Machine

/-- The header step sets the two flags (R25, R29). -/
def setFlags (fin masked : Bool) (s : State) : State := { s with fin := some fin, msk := some masked }

/-- FIN in its place in header byte 0: `zext_8(final) << 7` (R150). -/
def finBit (final : Bool) : Byte := (BitVec.ofBool final).setWidth 8 <<< 7

/-- MASK in its place in header byte 1; ENCODE always sets it (R88, R154, R156). -/
def maskBit : Byte := 0x80#8

end Sys2Proof.Machine
end

