-- ==== Sys2Proof/Machine/LengthMux.lean ====
section
/-! DEFINITION. The payload length multiplexer (spec/40_length_mux.md). `extSize` (R115) stands in Decode.lean. -/

namespace Sys2Proof.Machine

/-- `LenEnc(n)`: the length code and the extension (R111). -/
def lenEnc (n : Nat) : Len7 × Bytes :=
  if n < 126 then (BitVec.ofNat 7 n, [])
  else if n < 65536 then (126#7, beBytes 2 n)
  else (127#7, beBytes 8 n)

/-- `LenDec(len7, ext)`: the declared length (R117). -/
def lenDec (len7 : Len7) (ext : Bytes) : Nat :=
  if len7.toNat ≤ 125 then len7.toNat else unBE ext

/-- `lenSupported(L)` (R118). -/
def lenSupported (cfg : Config) (n : Nat) : Bool := n ≤ cfg.payloadMax.toNat

end Sys2Proof.Machine
end

