-- ==== Sys2Proof/Machine/MaskEngine.lean ====
section
/-! DEFINITION. The XOR mask engine (spec/41_mask_engine.md). -/

namespace Sys2Proof.Machine

/-- `key[i mod 4]` (R130). -/
def keyByte (k : Key) (i : Nat) : Byte :=
  match i % 4 with
  | 0 => k.k0
  | 1 => k.k1
  | 2 => k.k2
  | _ => k.k3

/-- The mask engine from payload index `i` on. -/
def maskFrom (k : Key) : Nat → Bytes → Bytes
  | _, [] => []
  | i, b :: bs => (b ^^^ keyByte k i) :: maskFrom k (i + 1) bs

/-- `Mask(key, d)`: the index starts at the first payload byte (R130, R131). -/
def maskBytes (k : Key) (d : Bytes) : Bytes := maskFrom k 0 d

/-- `rot(k, r)[j] = k[(j + r) mod 4]` (R134). -/
def rotKey (k : Key) (r : Nat) : Key :=
  { k0 := keyByte k r, k1 := keyByte k (1 + r), k2 := keyByte k (2 + r), k3 := keyByte k (3 + r) }

end Sys2Proof.Machine
end

