-- ==== Sys2Proof/Machine/Operands.lean ====
section
/-! DEFINITION. The operands: ENCODE's header bytes and whole frame from its operands and a draw (spec/42_encode.md),
and the header fields a frame header latches (10_state.md R25). -/

namespace Sys2Proof.Machine

/-- Header byte 0: `(zext_8(final) << 7) | zext_8(op)` (R150, R153, R155). -/
def encByte0 (op : Opcode) (final : Bool) : Byte := finBit final ||| op.setWidth 8

/-- Header byte 1: `0x80 | zext_8(c)` (R154). -/
def encByte1 (c : Len7) : Byte := maskBit ||| c.setWidth 8

/-- The frame ENCODE builds from its operands and the draw `K` (R150). -/
def encodedFrame (op : Opcode) (final : Bool) (payload : Bytes) (draw : Word) : Bytes :=
  let key := keyOfWord draw
  let code := lenEnc payload.length
  [encByte0 op final, encByte1 code.1] ++ code.2 ++ key.bytes ++ maskBytes key payload

/-- The header step latches `opc`, `fin`, `msk` and `len7`; the RSV bits are discarded (R25). -/
def latchHeader (op : Opcode) (fin masked : Bool) (len7 : Len7) (s : State) : State :=
  { setFlags fin masked s with opc := some op, len7 := some len7 }

end Sys2Proof.Machine
end

