-- ==== Sys2Proof/Machine/Ops.lean ====
section
/-! DEFINITION. The named operations: the stream read and the part read, register reads, refusing, raising an error,
the response, the key draw, reset, and the sequencer's moves that several rows share. -/

namespace Sys2Proof.Machine

/-! ## Registers -/

/-- Read a decode register; one that holds no value faults (R32). -/
def readReg {α : Type} (r : DecReg) (v : Option α) (k : α → Result) : Result :=
  match v with
  | some a => k a
  | none => .fault (.regNoValue r)

/-- The decode registers and the three byte stores lose what they hold: a DECODE's registers are discarded when it
ends (spec/10_state.md, opening; R181, R197, R260). -/
def dropDecode (s : State) : State :=
  { s with hdr := [], opc := none, fin := none, msk := none, len7 := none, len := none,
           part := [], key := none, buf := [] }

/-! ## Refusing, and raising an error -/

/-- Refuse: set the sticky mark; the run has no meaning after this (R12, R33). -/
def refuse (why : State → Refusal) (s : State) : Result := .refused (why { s with refused := true })

/-- The frame-read errors (R230). -/
inductive FrameError where
  | header
  | extension
  | mask
  | payload
deriving DecidableEq, Repr

/-- `code(E)` (R230). -/
def errorCode : FrameError → BitVec 3
  | .header => 1#3
  | .extension => 2#3
  | .mask => 3#3
  | .payload => 4#3

/-- The response of a DECODE that failed: `status` and `cmd` only (R30, R197). -/
def errorRsp (e : FrameError) : Rsp :=
  { status := errorCode e, cmd := 0b01#2, opcode := none, final := none, masked := none, length := none,
    maskKey := none, payload := none, frame := none }

/-- Taking the block's one kind of exception: `raise E` ends the command in the step that fails (R197, R231). It saves
no state and has no vector and no mode change (R238). There is no return from it: the block is in IDLE and takes the
next command as usual (R239). Under OBSERVE the failing step is refused (R235). -/
def raiseError (e : FrameError) (s : State) : Result :=
  match s.cfg.failureMode with
  | .propagate => .next { dropDecode s with rsp := some (errorRsp e), phase := .idle }
  | .observe => refuse .observeMode s

/-! ## The stream -/

/-- How a read request ended: not answered, so that the block is held (R201); with data; with an I/O error; or no
request, since it asked for 0 bytes (R53). -/
inductive ReadResult where
  | held (s : State)
  | data (b : Bytes) (s : State)
  | err (s : State)
  | noRequest
deriving DecidableEq, Repr

/-- STREAM answers a request of `n` bytes with the first `k` bytes of `S`, or with fewer where the request or `S` is
shorter, and removes them from `S` (R53, R54). -/
def answerData (n k : Nat) (s : State) : ReadResult :=
  let m := min k n
  .data (s.stream.take m) { s with stream := s.stream.drop m, requests := s.requests ++ [n] }

/-- `StreamRead(n)` (R53). -/
def streamRead (n : Nat) (s : State) : ReadResult :=
  if n = 0 then .noRequest
  else
    match s.plan with
    | .whole => answerData n n s
    | .chunked [] => .held s
    | .chunked (.late :: c) => .held { s with plan := .chunked c }
    | .chunked (.err :: c) => .err { s with plan := .chunked c, requests := s.requests ++ [n] }
    | .chunked (.data k :: c) => answerData n k { s with plan := .chunked c }

/-- How the read of a header part ended: the block is held, or under LOOP needs more of the part; the read failed; the
part has arrived; or there was no request to make. -/
inductive PartResult where
  | stay (s : State)
  | failed (s : State)
  | got (b : Bytes) (s : State)
  | noRequest
deriving DecidableEq, Repr

/-- `readPart(n, E)` under `HDR_READ = SINGLE_SHOT` (R187). -/
def readPartOnce (n : Nat) (s : State) : PartResult :=
  match streamRead n s with
  | .held s' => .stay s'
  | .err s' => .failed s'
  | .noRequest => .noRequest
  | .data b s' => if b.length < n then .failed s' else .got b s'

/-- `readPart(n, E)` under `HDR_READ = LOOP` (R196). -/
def readPartLoop (n : Nat) (s : State) : PartResult :=
  match streamRead (n - s.part.length) s with
  | .held s' => .stay s'
  | .err s' => .failed s'
  | .noRequest => .noRequest
  | .data [] s' => .failed s'
  | .data (b :: bs) s' =>
    let p := s'.part ++ (b :: bs)
    if p.length < n then .stay { s' with part := p } else .got p { s' with part := [] }

/-- `readPart(n, E)`, but for the raising of `E`. -/
def readPart (n : Nat) (s : State) : PartResult :=
  match s.cfg.hdrRead with
  | .singleShot => readPartOnce n s
  | .loop => readPartLoop n s

/-! ## The response -/

/-- The response of an ENCODE (R150). -/
def encodeRsp (frame : Bytes) : Rsp :=
  { status := 0#3, cmd := 0b00#2, opcode := none, final := none, masked := none, length := none,
    maskKey := none, payload := none, frame := some frame }

/-- The response of a DECODE that completed (R186). -/
def decodeRsp (op : Opcode) (fin masked : Bool) (len : Word) (key : Option Key) (payload : Bytes) : Rsp :=
  { status := 0#3, cmd := 0b01#2, opcode := some op, final := some fin, masked := some masked,
    length := some len, maskKey := key, payload := some payload, frame := none }

/-- Whether a response carries a field (R30). -/
def Rsp.has (r : Rsp) : RspField → Bool
  | .status => true
  | .cmd => true
  | .opcode => r.opcode.isSome
  | .final => r.final.isSome
  | .masked => r.masked.isSome
  | .length => r.length.isSome
  | .maskKey => r.maskKey.isSome
  | .payload => r.payload.isSome
  | .frame => r.frame.isSome

/-- HOST reads a field of the response: the read changes nothing, and one that finds no value faults (R32, R249, R271). -/
def hostRead (f : RspField) (s : State) : Result :=
  match s.rsp with
  | none => .fault .rspNoValue
  | some r => if r.has f then .next s else .fault (.fieldAbsent f)

/-! ## The sequencer's moves -/

/-- The end of a DECODE: the command's response is `r` and the block is IDLE (R186). DEDUCED (log 3): its registers are
discarded (spec/10_state.md, opening). -/
def finish (r : Rsp) (s : State) : Result := .next { dropDecode s with rsp := some r, phase := .idle }

/-- `complete()` (R186, R193, R194). -/
def complete (s : State) : Result :=
  readReg .opc s.opc fun op =>
  readReg .fin s.fin fun fin =>
  readReg .msk s.msk fun masked =>
  readReg .len s.len fun len =>
  if masked then
    readReg .key s.key fun key => finish (decodeRsp op fin true len (some key) (maskBytes key s.buf)) s
  else finish (decodeRsp op fin false len none s.buf) s

/-- `enterPayload()` (R182, R189). -/
def enterPayload (s : State) : Result :=
  readReg .len s.len fun len => if len = 0#32 then complete s else .next { s with phase := .dPay }

/-- `afterLength()` (R182, R192). -/
def afterLength (s : State) : Result :=
  readReg .msk s.msk fun masked => if masked then .next { s with phase := .dKey } else enterPayload s

/-- The declared length `n` is known: store it and go on, or refuse it (R182, R183, R188). -/
def setLength (n : Nat) (s : State) : Result :=
  if lenSupported s.cfg n then afterLength { s with len := some (BitVec.ofNat 32 n) }
  else refuse .lengthUnsupported s

/-- The header step once its two bytes are there (R182). -/
def runHeader (op : Opcode) (fin masked : Bool) (len7 : Len7) (s : State) : Result :=
  let s' := latchHeader op fin masked len7 s
  if extSize len7 = 0 then setLength (lenDec len7 []) s' else .next { s' with phase := .dExt }

/-- An answer has been added to `buf`: the frame completes when the last byte has come (R185, R191). -/
def afterPayload (len : Word) (s : State) : Result := if s.buf.length = len.toNat then complete s else .next s

/-- The payload step D_PAY (R185, R190, R191). -/
def payloadStep (s : State) : Result :=
  readReg .len s.len fun len =>
  match streamRead (len.toNat - s.buf.length) s with
  | .held s' => .next s'
  | .err s' => raiseError .payload s'
  | .noRequest => .fault .emptyRequest
  | .data [] s' => raiseError .payload s'
  | .data (b :: bs) s' => afterPayload len { s' with buf := s'.buf ++ (b :: bs) }

/-- DECODE is accepted (R181). -/
def acceptDecode (s : State) : State := { dropDecode s with phase := .dHdr, rsp := none }

/-! ## ENCODE -/

/-- The values the RNG may answer (R152). -/
def keyAllowed : KeyDraw → Word → Bool
  | .any32, _ => true
  | .srcRange, k => 1 ≤ k.toNat && k.toNat ≤ 0x7FFFFFFF

/-- The RNG's answer to its `n`-th draw where none is given in advance: a free value of `KEY_DRAW` (R152). -/
def freeKey : KeyDraw → Nat → Word
  | .any32, n => Config.freeKey32 n
  | .srcRange, n => BitVec.ofNat 32 ((Config.freeSrcKey n).val + 1)

/-- The value of the next draw: the first given one that `KEY_DRAW` allows, else a free value of `KEY_DRAW`. -/
def nextKey (s : State) : Word :=
  match s.keys.dropWhile (fun k => !keyAllowed s.cfg.keyDraw k) with
  | k :: _ => k
  | [] => freeKey s.cfg.keyDraw s.draws

/-- The RNG has answered one draw. -/
def drawn (s : State) : State :=
  { s with keys := (s.keys.dropWhile (fun k => !keyAllowed s.cfg.keyDraw k)).tail, draws := s.draws + 1 }

/-- `Emit(F)` (R59, R158). -/
def emit (frame : Bytes) (s : State) : State := { s with emitted := s.emitted ++ [frame] }

/-- ENCODE, in the one step that accepts it (R150, R158, R159). -/
def runEncode (op : Opcode) (final : Bool) (payload : Bytes) (s : State) : Result :=
  let frame := encodedFrame op final payload (nextKey s)
  .next { emit frame (drawn s) with rsp := some (encodeRsp frame) }

/-! ## Reset -/

/-- Reset, from any phase (R37, R260): the neighbours, the parameters and the mark are not touched. -/
def resetBlock (s : State) : State := { dropDecode s with phase := .idle, rsp := none }

/-- Power-on is reset with `refused = 0` (R261). -/
def powerOn (s : State) : State := { resetBlock s with refused := false }

end Sys2Proof.Machine
end

