-- ==== Sys2Proof/Machine/Commands.lean ====
section
/-! DEFINITION. The command rows: ENCODE (spec/42_encode.md), DECODE (43_decode.md R181), the reserved words
(30_encoding.md R73) and the pseudo-instructions (R90). -/

namespace Sys2Proof.Machine

/-- ENCODE (R150). -/
def execEncode (op : Opcode) (final : Bool) (payload : Bytes) (s : State) : Result := runEncode op final payload s

/-- DECODE is accepted in one step with no stream access (R181); the frame rows and `payloadStep` are its later
steps. -/
def execDecode (s : State) : Result := .next (acceptDecode s)

/-- Refused, never executed (R73). -/
def execReservedCmd2 (_fields : BitVec 5) (_payload : Bytes) (s : State) : Result := refuse .cmdReserved s

/-- Refused, never executed (R73). -/
def execReservedCmd3 (_fields : BitVec 5) (_payload : Bytes) (s : State) : Result := refuse .cmdReserved s

/-- Refused, never executed (R73). -/
def execReservedDecodeFields (_fields : BitVec 5) (_payload : Bytes) (s : State) : Result := refuse .cmdReserved s

/-- Refused, never executed (R73). -/
def execReservedHighBits (_high : BitVec 25) (_low : BitVec 7) (_payload : Bytes) (s : State) : Result :=
  refuse .cmdReserved s

/-- `PONG` = `ENC op=10, fin=1, payload=[]` (R90, R160). -/
def execPong (s : State) : Result := runEncode 10#4 true [] s

/-- `TEXT <bytes>` = `ENC op=1, fin=1, payload=<bytes>` (R90). -/
def execText (payload : Bytes) (s : State) : Result := runEncode 1#4 true payload s

/-- `BIN <bytes>` = `ENC op=2, fin=1, payload=<bytes>` (R90). -/
def execBin (payload : Bytes) (s : State) : Result := runEncode 2#4 true payload s

/-- `CLOSE <bytes>` = `ENC op=8, fin=1, payload=<bytes>` (R90). -/
def execClose (payload : Bytes) (s : State) : Result := runEncode 8#4 true payload s

end Sys2Proof.Machine
end

