-- ==== Sys2Proof/Machine/Frames.lean ====
section
/-! DEFINITION. The FRAME rows (spec/30_encoding.md R78 to R85): the D_HDR step of a DECODE on a header with that
OPCODE (43_decode.md R182). The codec treats every OPCODE alike; the RSV bits are read by nothing (R77). -/

namespace Sys2Proof.Machine

/-- OPCODE 0 (R79, continuation). -/
def execFrameCont (fin : Bool) (_rsv : BitVec 3) (masked : Bool) (len7 : Len7) (s : State) : Result :=
  runHeader 0#4 fin masked len7 s

/-- OPCODE 1 (R80, text). -/
def execFrameText (fin : Bool) (_rsv : BitVec 3) (masked : Bool) (len7 : Len7) (s : State) : Result :=
  runHeader 1#4 fin masked len7 s

/-- OPCODE 2 (R81, binary). -/
def execFrameBin (fin : Bool) (_rsv : BitVec 3) (masked : Bool) (len7 : Len7) (s : State) : Result :=
  runHeader 2#4 fin masked len7 s

/-- OPCODE 8 (R82, close). -/
def execFrameClose (fin : Bool) (_rsv : BitVec 3) (masked : Bool) (len7 : Len7) (s : State) : Result :=
  runHeader 8#4 fin masked len7 s

/-- OPCODE 9 (R83, ping). -/
def execFramePing (fin : Bool) (_rsv : BitVec 3) (masked : Bool) (len7 : Len7) (s : State) : Result :=
  runHeader 9#4 fin masked len7 s

/-- OPCODE 10 (R84, pong). -/
def execFramePong (fin : Bool) (_rsv : BitVec 3) (masked : Bool) (len7 : Len7) (s : State) : Result :=
  runHeader 10#4 fin masked len7 s

/-- OPCODE 3 (R85, unnamed). -/
def execFrameRsvd3 (fin : Bool) (_rsv : BitVec 3) (masked : Bool) (len7 : Len7) (s : State) : Result :=
  runHeader 3#4 fin masked len7 s

/-- OPCODE 4 (R85, unnamed). -/
def execFrameRsvd4 (fin : Bool) (_rsv : BitVec 3) (masked : Bool) (len7 : Len7) (s : State) : Result :=
  runHeader 4#4 fin masked len7 s

/-- OPCODE 5 (R85, unnamed). -/
def execFrameRsvd5 (fin : Bool) (_rsv : BitVec 3) (masked : Bool) (len7 : Len7) (s : State) : Result :=
  runHeader 5#4 fin masked len7 s

/-- OPCODE 6 (R85, unnamed). -/
def execFrameRsvd6 (fin : Bool) (_rsv : BitVec 3) (masked : Bool) (len7 : Len7) (s : State) : Result :=
  runHeader 6#4 fin masked len7 s

/-- OPCODE 7 (R85, unnamed). -/
def execFrameRsvd7 (fin : Bool) (_rsv : BitVec 3) (masked : Bool) (len7 : Len7) (s : State) : Result :=
  runHeader 7#4 fin masked len7 s

/-- OPCODE 11 (R85, unnamed). -/
def execFrameRsvdB (fin : Bool) (_rsv : BitVec 3) (masked : Bool) (len7 : Len7) (s : State) : Result :=
  runHeader 11#4 fin masked len7 s

/-- OPCODE 12 (R85, unnamed). -/
def execFrameRsvdC (fin : Bool) (_rsv : BitVec 3) (masked : Bool) (len7 : Len7) (s : State) : Result :=
  runHeader 12#4 fin masked len7 s

/-- OPCODE 13 (R85, unnamed). -/
def execFrameRsvdD (fin : Bool) (_rsv : BitVec 3) (masked : Bool) (len7 : Len7) (s : State) : Result :=
  runHeader 13#4 fin masked len7 s

/-- OPCODE 14 (R85, unnamed). -/
def execFrameRsvdE (fin : Bool) (_rsv : BitVec 3) (masked : Bool) (len7 : Len7) (s : State) : Result :=
  runHeader 14#4 fin masked len7 s

/-- OPCODE 15 (R85, unnamed). -/
def execFrameRsvdF (fin : Bool) (_rsv : BitVec 3) (masked : Bool) (len7 : Len7) (s : State) : Result :=
  runHeader 15#4 fin masked len7 s

end Sys2Proof.Machine
end

