-- ==== Sys2Proof/Machine/Lengths.lean ====
section
/-! DEFINITION. The LEN rows and the MASK rows (spec/30_encoding.md R86, R88). A frame's header is followed by what its
LEN7 and MASK fields announce, and these rows say what the block does with it: LEN_EXT16 and LEN_EXT64 are the D_EXT
step (43_decode.md R183), MASK_ON the D_KEY step (R184). LEN_INLINE and MASK_OFF announce no bytes, so the block runs
them inside the step before: `runHeader` and `afterLength` end with them. -/

namespace Sys2Proof.Machine

/-- LEN7 = 0..125: the length is LEN7 itself (R117, R182). -/
def execLenInline (len7 : Len7) (s : State) : Result := setLength (lenDec len7 []) s

/-- LEN7 = 126: the length is the 2 extension bytes (R117, R183). -/
def execLenExt16 (ext : Bytes) (s : State) : Result := setLength (lenDec 126#7 ext) s

/-- LEN7 = 127: the length is the 8 extension bytes (R117, R183, R188). -/
def execLenExt64 (ext : Bytes) (s : State) : Result := setLength (lenDec 127#7 ext) s

/-- MASK = 0: no key follows, and the payload is next (R88, R194). -/
def execMaskOff (s : State) : Result := enterPayload s

/-- MASK = 1: the key is stored, and the payload is next (R88, R184). -/
def execMaskOn (key : Key) (s : State) : Result := enterPayload { s with key := some key }

end Sys2Proof.Machine
end

