-- ==== Sys2Proof/Machine/Dispatch.lean ====
section
/-! DEFINITION. One arm for each row of spec/opcode_table.json. -/

namespace Sys2Proof.Machine

def exec (i : Instr) (s : State) : Host.Outcome State Fault Refusal :=
  match i with
  | .encode op final payload => Sys2Proof.Machine.execEncode op final payload s
  | .decode => Sys2Proof.Machine.execDecode s
  | .reservedCmd2 fields payload => Sys2Proof.Machine.execReservedCmd2 fields payload s
  | .reservedCmd3 fields payload => Sys2Proof.Machine.execReservedCmd3 fields payload s
  | .reservedDecodeFields fields payload => Sys2Proof.Machine.execReservedDecodeFields fields payload s
  | .reservedHighBits high low payload => Sys2Proof.Machine.execReservedHighBits high low payload s
  | .frameCont fin rsv masked len7 => Sys2Proof.Machine.execFrameCont fin rsv masked len7 s
  | .frameText fin rsv masked len7 => Sys2Proof.Machine.execFrameText fin rsv masked len7 s
  | .frameBin fin rsv masked len7 => Sys2Proof.Machine.execFrameBin fin rsv masked len7 s
  | .frameClose fin rsv masked len7 => Sys2Proof.Machine.execFrameClose fin rsv masked len7 s
  | .framePing fin rsv masked len7 => Sys2Proof.Machine.execFramePing fin rsv masked len7 s
  | .framePong fin rsv masked len7 => Sys2Proof.Machine.execFramePong fin rsv masked len7 s
  | .frameRsvd3 fin rsv masked len7 => Sys2Proof.Machine.execFrameRsvd3 fin rsv masked len7 s
  | .frameRsvd4 fin rsv masked len7 => Sys2Proof.Machine.execFrameRsvd4 fin rsv masked len7 s
  | .frameRsvd5 fin rsv masked len7 => Sys2Proof.Machine.execFrameRsvd5 fin rsv masked len7 s
  | .frameRsvd6 fin rsv masked len7 => Sys2Proof.Machine.execFrameRsvd6 fin rsv masked len7 s
  | .frameRsvd7 fin rsv masked len7 => Sys2Proof.Machine.execFrameRsvd7 fin rsv masked len7 s
  | .frameRsvdB fin rsv masked len7 => Sys2Proof.Machine.execFrameRsvdB fin rsv masked len7 s
  | .frameRsvdC fin rsv masked len7 => Sys2Proof.Machine.execFrameRsvdC fin rsv masked len7 s
  | .frameRsvdD fin rsv masked len7 => Sys2Proof.Machine.execFrameRsvdD fin rsv masked len7 s
  | .frameRsvdE fin rsv masked len7 => Sys2Proof.Machine.execFrameRsvdE fin rsv masked len7 s
  | .frameRsvdF fin rsv masked len7 => Sys2Proof.Machine.execFrameRsvdF fin rsv masked len7 s
  | .lenInline len7 => Sys2Proof.Machine.execLenInline len7 s
  | .lenExt16 ext => Sys2Proof.Machine.execLenExt16 ext s
  | .lenExt64 ext => Sys2Proof.Machine.execLenExt64 ext s
  | .maskOff => Sys2Proof.Machine.execMaskOff s
  | .maskOn key => Sys2Proof.Machine.execMaskOn key s
  | .pong => Sys2Proof.Machine.execPong s
  | .text payload => Sys2Proof.Machine.execText payload s
  | .bin payload => Sys2Proof.Machine.execBin payload s
  | .close payload => Sys2Proof.Machine.execClose payload s

end Sys2Proof.Machine
end

