-- ==== Sys2Proof/Machine/Fetch.lean ====
section
/-! DEFINITION. Where the next instruction comes from: HOST's command channel while the block is IDLE
(spec/70_reset_and_hazards.md R270), the receive stream while a DECODE is in progress (43_decode.md R182 to R184). Also
what a step does that runs no row of the table: HOST's other moves, a hold, a failed read, a payload read. -/

namespace Sys2Proof.Machine

/-- A step either ends by itself or runs an instruction in a state. -/
inductive Fetched where
  | ends (o : Result)
  | run (i : Instr) (s : State)

/-- Decode what was given; a rejection ends the step. -/
def runDecoded (p : Part) (s : State) : Fetched :=
  match decode s.cfg.payloadMax p with
  | .ok i => .run i s
  | .reject .lengthUnsupported => .ends (refuse .lengthUnsupported s)
  | .reject .extensionSize => .ends (.fault .malformedPart)
  | .reject .keySize => .ends (.fault .malformedPart)

/-- Read a header part of `n` bytes; a read that fails raises `e`. -/
def fetchPart (n : Nat) (e : FrameError) (s : State) (k : Bytes → State → Fetched) : Fetched :=
  match readPart n s with
  | .stay s' => .ends (.next s')
  | .failed s' => .ends (raiseError e s')
  | .noRequest => .ends (.fault .emptyRequest)
  | .got b s' => k b s'

/-- The step D_HDR up to its FRAME row (R182). -/
def fetchHeader (s : State) : Fetched :=
  fetchPart 2 .header s fun b s' =>
    match b with
    | [b0, b1] => runDecoded (.header b0 b1) { s' with hdr := [b0, b1] }
    | _ => .ends (.fault .malformedPart)

/-- The step D_EXT up to its LEN row (R183). -/
def fetchExtension (s : State) : Fetched :=
  match s.len7 with
  | none => .ends (.fault (.regNoValue .len7))
  | some len7 => fetchPart (extSize len7) .extension s fun b s' => runDecoded (.extension len7 b) s'

/-- The step D_KEY up to its MASK row (R184). -/
def fetchKey (s : State) : Fetched := fetchPart 4 .mask s fun b s' => runDecoded (.maskKey true b) s'

/-- The block's own next step by its phase; in IDLE with no command offered it has none. -/
def fetchPhase (s : State) : Fetched :=
  match s.phase with
  | .idle => .ends (.next s)
  | .dHdr => fetchHeader s
  | .dExt => fetchExtension s
  | .dKey => fetchKey s
  | .dPay => .ends (payloadStep s)

/-- HOST's move and the block's phase together say what the next step is. A reset acts in any state (R260); a state whose
mark is set has no other step (R33); a command is accepted in IDLE and held otherwise (R270).

DESIGN CHOICE (log 16): a held offer stays at the head of HOST's moves, so a reset or a read of `rsp` that stands behind it
comes only when the DECODE has ended and the offer is taken. The spec does not say whether HOST can make those moves
while its offer is held. -/
def fetch (s : State) : Fetched :=
  match s.host with
  | .reset :: rest => .ends (.next (resetBlock { s with host := rest }))
  | moves =>
    if s.refused then .ends (.refused (.alreadyRefused s))
    else
      match moves with
      | .offer w payload :: rest =>
        if s.phase = .idle then runDecoded (.command w payload) { s with host := rest } else fetchPhase s
      | .read f :: rest => .ends (hostRead f { s with host := rest })
      | .wait :: rest => fetchPhase { s with host := rest }
      | _ => fetchPhase s

/-- STREAM's answers with one more before them, which gives `n` bytes whole. -/
def servedPlan (n : Nat) : StreamPlan → StreamPlan
  | .whole => .whole
  | .chunked c => .chunked (.data n :: c)

/-- A DECODE has been accepted, HOST pauses for one step, and the bytes `b` come next on the stream, in one answer. -/
def withStreamPart (b : Bytes) (s : State) : State :=
  { acceptDecode s with
    stream := b ++ s.stream, plan := servedPlan b.length s.plan, host := .wait :: s.host }

/-- Place what the decoder is to be given where the next step takes it: a command at the head of HOST's moves of an
IDLE block; a header in the stream of a DECODE in D_HDR; an extension in the stream of a DECODE in D_EXT, with the
header `h` that announced it latched. -/
def placePart (h : BitVec 16) (p : Part) (s : State) : State :=
  let b0 := headerByte0 h
  let b1 := headerByte1 h
  let latched := latchHeader (hdrOpc b0) (hdrFin b0) (hdrMsk b1) (hdrLen7 b1)
  match p with
  | .command w payload => { s with phase := .idle, host := .offer w payload :: s.host }
  | .header c0 c1 => withStreamPart [c0, c1] s
  | .extension _ ext => { latched (withStreamPart ext s) with phase := .dExt, hdr := [b0, b1] }
  | .maskKey _ key => { latched (withStreamPart key s) with phase := .dKey, hdr := [b0, b1], len := some 0#32 }

end Sys2Proof.Machine
end

