-- ==== Sys2Proof/Machine/Step.lean ====
section
/-! DEFINITION. One step of the machine (spec/00_scope.md R5, R12), and placing a word of the opcode table where the
next step takes its instruction. -/

namespace Sys2Proof.Machine

def step (s : State) : Host.Outcome State Fault Refusal :=
  match fetch s with
  | .ends o => o
  | .run i s' => exec i s'

def State.withFetchWord (s : State) (nbits w : Nat) : State :=
  match tablePart nbits w with
  | some p => placePart (BitVec.ofNat 16 w) p s
  | none => s

end Sys2Proof.Machine
end

