-- ==== Sys2Proof/Safety.lean ====
section
/-! DEFINITION. The terms claims use: the premises on STREAM and HOST, runs, and the invariant of the block. -/

namespace Sys2Proof.Machine

/-- `WholeReads` (spec/20_memory.md R55). -/
abbrev WholeReads (s : State) : Prop := s.plan = .whole

/-- `Chunked(c)` (R55): STREAM's answers have the lengths of `c`, in order. -/
abbrev Chunked (c : List Nat) (s : State) : Prop := s.plan = .chunked (c.map .data)

/-- HOST makes no move that stops or disturbs the block's own step: it offers a command, waits, or does nothing. -/
def HostQuiet (s : State) : Prop :=
  ∀ rest, s.host ≠ .reset :: rest ∧ ∀ f, s.host ≠ .read f :: rest

/-- HOST makes no move that a busy block takes: it does nothing, or offers a command, which the block holds. -/
def HostWaits (s : State) : Prop := s.host = [] ∨ ∃ w p rest, s.host = .offer w p :: rest

/-- The outcome with HOST's moves put at `moves`, in the next state or in the state a refusal leaves
(the one refusal that leaves none stays). -/
def rehost (moves : List HostMove) : Result → Result
  | .next t => .next { t with host := moves }
  | .fault f => .fault f
  | .refused (.cmdReserved l) => .refused (.cmdReserved { l with host := moves })
  | .refused (.lengthUnsupported l) => .refused (.lengthUnsupported { l with host := moves })
  | .refused (.observeMode l) => .refused (.observeMode { l with host := moves })
  | .refused (.alreadyRefused l) => .refused (.alreadyRefused { l with host := moves })
  | .refused q => .refused q

/-- `n` steps from `s` end in `t`. -/
abbrev RunsTo (n : Nat) (s t : State) : Prop := Host.Core.run Sys2Proof.core n s = .next t

/-- No decode register and no byte store holds anything (R37). -/
structure RegsEmpty (s : State) : Prop where
  hdr : s.hdr = []
  opc : s.opc = none
  fin : s.fin = none
  msk : s.msk = none
  len7 : s.len7 = none
  len : s.len = none
  part : s.part = []
  key : s.key = none
  buf : s.buf = []

/-- The header bytes are there and the four header registers hold their fields (R25). -/
def HeaderLatched (s : State) : Prop :=
  ∃ b0 b1, s.hdr = [b0, b1] ∧ s.opc = some (hdrOpc b0) ∧ s.fin = some (hdrFin b0) ∧
    s.msk = some (hdrMsk b1) ∧ s.len7 = some (hdrLen7 b1)

/-- `part` holds less than the part of `n` bytes being read, and nothing under SINGLE_SHOT (R187, R196). -/
def PartUnder (n : Nat) (s : State) : Prop :=
  s.part.length < n ∧ (s.cfg.hdrRead = .singleShot → s.part = [])

/-- `L` is known and supported, and it is what the header's tier can hold (R26, R86). -/
def LenLatched (s : State) : Prop :=
  ∃ l len, s.len7 = some l ∧ s.len = some len ∧ len.toNat ≤ s.cfg.payloadMax.toNat ∧
    (l.toNat ≤ 125 → len.toNat = l.toNat) ∧ (l.toNat = 126 → len.toNat < 65536)

/-- What the block holds in each phase (R23 to R28). -/
def PhaseInv (s : State) : Prop :=
  match s.phase with
  | .idle => RegsEmpty s
  | .dHdr => RegsEmpty { s with part := [] } ∧ PartUnder 2 s ∧ s.rsp = none
  | .dExt => HeaderLatched s ∧ (∃ l, s.len7 = some l ∧ PartUnder (extSize l) s) ∧ s.len = none ∧
      s.key = none ∧ s.buf = [] ∧ s.rsp = none
  | .dKey => HeaderLatched s ∧ LenLatched s ∧ s.msk = some true ∧ PartUnder 4 s ∧
      s.key = none ∧ s.buf = [] ∧ s.rsp = none
  | .dPay => HeaderLatched s ∧ LenLatched s ∧ (∃ len, s.len = some len ∧ s.buf.length < len.toNat) ∧
      (s.msk = some true ↔ s.key.isSome) ∧ s.part = [] ∧ s.rsp = none

/-- Which fields a response carries (R30, R31). -/
structure RspOk (r : Rsp) : Prop where
  code : r.status.toNat ≤ 4
  command : r.cmd = 0b00#2 ∨ r.cmd = 0b01#2
  encodeOk : r.cmd = 0b00#2 → r.status = 0#3
  opcode : r.opcode.isSome ↔ r.cmd = 0b01#2 ∧ r.status = 0#3
  final : r.final.isSome ↔ r.cmd = 0b01#2 ∧ r.status = 0#3
  masked : r.masked.isSome ↔ r.cmd = 0b01#2 ∧ r.status = 0#3
  length : r.length.isSome ↔ r.cmd = 0b01#2 ∧ r.status = 0#3
  payload : r.payload.isSome ↔ r.cmd = 0b01#2 ∧ r.status = 0#3
  maskKey : r.maskKey.isSome ↔ r.masked = some true
  frame : r.frame.isSome ↔ r.cmd = 0b00#2
  lengthIs : ∀ l p, r.length = some l → r.payload = some p → l.toNat = p.length

/-- The invariant of the block. -/
structure Inv (s : State) : Prop where
  inPhase : PhaseInv s
  rspOk : ∀ r, s.rsp = some r → RspOk r

end Sys2Proof.Machine
end

