-- ==== Sys2Proof/Certificates/Slice0/Obligations.lean ====
section
/-! DEFINITION. The statements for the provers. Each docstring names the rule of the spec it formalises.

The namespace Claims holds the vocabulary of several of them. -/

open Sys2Proof Sys2Proof.Machine

namespace Sys2Proof.Claims

/-- The FRAME rows of the opcode table with their OPCODE values (spec/30_encoding.md R78). -/
def frameRows : List (Opcode × (Bool → BitVec 3 → Bool → Len7 → Instr)) :=
  [(0x0#4, .frameCont), (0x1#4, .frameText), (0x2#4, .frameBin), (0x3#4, .frameRsvd3), (0x4#4, .frameRsvd4),
   (0x5#4, .frameRsvd5), (0x6#4, .frameRsvd6), (0x7#4, .frameRsvd7), (0x8#4, .frameClose), (0x9#4, .framePing),
   (0xA#4, .framePong), (0xB#4, .frameRsvdB), (0xC#4, .frameRsvdC), (0xD#4, .frameRsvdD), (0xE#4, .frameRsvdE),
   (0xF#4, .frameRsvdF)]

/-- The state a DECODE leaves when it ends with the response `r`: IDLE, and no decode register holds a value. For a
DECODE that fails, R197 lists this; for one that completes it is DEDUCED (log 3) from the opening of spec/10_state.md:
the registers "are discarded when it ends". -/
def ended (r : Rsp) (s : State) : State :=
  { s with phase := .idle, hdr := [], opc := none, fin := none, msk := none, len7 := none, len := none,
           part := [], key := none, buf := [], rsp := some r }

/-- The response of a DECODE that completed. -/
def frameRsp (op : Opcode) (fin masked : Bool) (len : Word) (key : Option Key) (payload : Bytes) : Rsp :=
  { status := 0#3, cmd := 1#2, opcode := some op, final := some fin, masked := some masked, length := some len,
    maskKey := key, payload := some payload, frame := none }

/-- The response of a DECODE that failed with the status code `c`. -/
def failRsp (c : BitVec 3) : Rsp :=
  { status := c, cmd := 1#2, opcode := none, final := none, masked := none, length := none, maskKey := none,
    payload := none, frame := none }

/-- The bytes of a frame are `b0 b1 ++ ext ++ kb ++ data`, the sizes being what its header says (R75), and `r` is the
response that reports it (R180). -/
structure Reports (b0 b1 : Byte) (ext kb data : Bytes) (r : Rsp) : Prop where
  extLen : ext.length = extSize (hdrLen7 b1)
  keyLen : kb.length = if hdrMsk b1 then 4 else 0
  dataLen : data.length = lenDec (hdrLen7 b1) ext
  unmasked : hdrMsk b1 = false →
    r = frameRsp (hdrOpc b0) (hdrFin b0) false (BitVec.ofNat 32 data.length) none data
  masked : ∀ a b c d, hdrMsk b1 = true → kb = [a, b, c, d] →
    r = frameRsp (hdrOpc b0) (hdrFin b0) true (BitVec.ofNat 32 data.length) (some ⟨a, b, c, d⟩)
      (maskBytes ⟨a, b, c, d⟩ data)

/-- The response does not carry the field (R30, R32). -/
def Absent (r : Rsp) : RspField → Prop
  | .status => False
  | .cmd => False
  | .opcode => r.opcode = none
  | .final => r.final = none
  | .masked => r.masked = none
  | .length => r.length = none
  | .maskKey => r.maskKey = none
  | .payload => r.payload = none
  | .frame => r.frame = none

/-- The read of the DECODE's phase fails in `s` (R182 to R185), and leaves `s'`. -/
def ReadFails (s s' : State) : Prop :=
  (s.phase = .dHdr ∧ readPart 2 s = .failed s') ∨
  (∃ len7, s.phase = .dExt ∧ s.len7 = some len7 ∧ readPart (extSize len7) s = .failed s') ∨
  (s.phase = .dKey ∧ readPart 4 s = .failed s') ∨
  (∃ len, s.phase = .dPay ∧ s.len = some len ∧
    (streamRead (len.toNat - s.buf.length) s = .err s' ∨ streamRead (len.toNat - s.buf.length) s = .data [] s'))

/-- The step in `s` learns of a payload of `n` bytes: HOST offers an ENCODE word with it (R72), or the part the step reads
declares it (R182, R183). -/
def Declares (s : State) (n : Nat) : Prop :=
  (s.phase = .idle ∧ ∃ w payload rest, s.host = .offer w payload :: rest ∧ w.toNat < 128 ∧ w.toNat % 4 = 0 ∧
    n = payload.length) ∨
  (s.phase = .dHdr ∧ ∃ b0 b1 s', readPart 2 s = .got [b0, b1] s' ∧ (hdrLen7 b1).toNat ≤ 125 ∧ n = (hdrLen7 b1).toNat) ∨
  (s.phase = .dExt ∧ ∃ len7 ext s', s.len7 = some len7 ∧ readPart (extSize len7) s = .got ext s' ∧ n = lenDec len7 ext)

/-- The state after HOST's move `wait`, if that is its next move: what the step sees. -/
def waited (s : State) : State :=
  match s.host with
  | .wait :: rest => { s with host := rest }
  | _ => s

/-- Two states alike in everything but one header byte 0, which is `b0` in the one and `c0` in the other, or is in neither
any more. It stands at the front of `S` while no byte of the frame is read, then in `part` while LOOP collects the header,
then in `hdr`. -/
structure AlikeBut (b0 c0 : Byte) (s s' : State) : Prop where
  others : s' = { s with hdr := s'.hdr, part := s'.part, stream := s'.stream }
  hdr : s'.hdr = s.hdr ∨ ∃ b1, s.hdr = [b0, b1] ∧ s'.hdr = [c0, b1]
  part : s'.part = s.part ∨ (s.phase = .dHdr ∧ s.cfg.hdrRead = .loop ∧ s.part = [b0] ∧ s'.part = [c0])
  stream : s'.stream = s.stream ∨
    ((s.phase = .idle ∨ (s.phase = .dHdr ∧ s.part = [])) ∧ ∃ rest, s.stream = b0 :: rest ∧ s'.stream = c0 :: rest)

/-- STREAM answers the next request at once. -/
def Answers (s : State) : Prop := s.plan = .whole ∨ ∃ m c, s.plan = .chunked (m :: c) ∧ m ≠ .late

end Sys2Proof.Claims

open Sys2Proof.Claims

/-! ## Encodings -/

/-- Decode and encode agree (spec/30_encoding.md R70 to R90): decoding the words of a well-formed instruction gives it
back, under the name of its row. -/
def Obligations.DecodeOfEncode : Prop :=
  ∀ (pmax : Word) (i : Instr), i.wf pmax = true → decode pmax (Sys2Proof.encode i) = .ok i.canon

/-- The other direction: what the decoder gives is well formed, is named by its row, and has just the words it was
decoded from, so that no two instructions share words and no bit of a word is dropped. -/
def Obligations.EncodeOfDecode : Prop :=
  ∀ (pmax : Word) (p : Part) (i : Instr), decode pmax p = .ok i →
    i.wf pmax = true ∧ i.canon = i ∧ Sys2Proof.encode i = p

/-- The words of the spec's own vectors (spec/95_test_vectors.md 2.1, 2.5 and the opcode table). -/
def Obligations.SpecWordsDecode : Prop :=
  decodeTableWord 32 0x00000000 = some (.encode 0#4 false []) ∧
  decodeTableWord 32 0x0000007C = some (.encode 15#4 true []) ∧
  decodeTableWord 32 0x0000003C = some (.encode 15#4 false []) ∧
  decodeTableWord 32 0x00000001 = some .decode ∧
  decodeTableWord 32 0x00000005 = some (.reservedDecodeFields 1#5 []) ∧
  decodeTableWord 32 0x00000041 = some (.reservedDecodeFields 16#5 []) ∧
  decodeTableWord 32 0x00000002 = some (.reservedCmd2 0#5 []) ∧
  decodeTableWord 32 0x00000003 = some (.reservedCmd3 0#5 []) ∧
  decodeTableWord 32 0x00000080 = some (.reservedHighBits 1#25 0#7 []) ∧
  decodeTableWord 32 0x00000068 = some .pong ∧
  decodeTableWord 32 0x00000044 = some (.text []) ∧
  decodeTableWord 16 0x8185 = some (.frameText true 0#3 true 5#7) ∧
  decodeTableWord 16 0xC102 = some (.frameText true 4#3 false 2#7) ∧
  decodeTableWord 16 0x8B00 = some (.frameRsvdB true 0#3 false 0#7) ∧
  decodeTableWord 16 0x007E = some (.lenExt16 [0#8, 0#8]) ∧
  decode 0xFFFFFFFF#32 (.maskKey true [0x37#8, 0xFA#8, 0x21#8, 0x3D#8]) = .ok (.maskOn ⟨0x37#8, 0xFA#8, 0x21#8, 0x3D#8⟩)

/-- R72 (with R70, R71, R73): how the block classifies an offered command word, by the number `w`. -/
def Obligations.CommandWordClassified : Prop :=
  ∀ (s : State) (w : Word) (payload : Bytes) (rest : List HostMove),
    s.phase = .idle → s.refused = false → s.host = .offer w payload :: rest →
    (128 ≤ w.toNat → step s = .refused (.cmdReserved { s with host := rest, refused := true })) ∧
    (w.toNat < 128 → w.toNat % 4 = 0 → s.cfg.payloadMax.toNat < payload.length →
      step s = .refused (.lengthUnsupported { s with host := rest, refused := true })) ∧
    (w.toNat < 128 → w.toNat % 4 = 0 → payload.length ≤ s.cfg.payloadMax.toNat →
      step s = exec (.encode (BitVec.ofNat 4 (w.toNat / 4)) (decide (64 ≤ w.toNat)) payload) { s with host := rest }) ∧
    (w.toNat = 1 → payload = [] → step s = exec .decode { s with host := rest }) ∧
    (w.toNat < 128 → w.toNat % 4 = 1 → (w.toNat ≠ 1 ∨ payload ≠ []) →
      step s = .refused (.cmdReserved { s with host := rest, refused := true })) ∧
    (w.toNat < 128 → 2 ≤ w.toNat % 4 →
      step s = .refused (.cmdReserved { s with host := rest, refused := true }))

/-- R74 and R25: the fields of the two header bytes, as numbers. -/
def Obligations.HeaderFieldsExtracted : Prop :=
  ∀ b0 b1 : Byte,
    (hdrOpc b0).toNat = b0.toNat % 16 ∧ (hdrRsv b0).toNat = b0.toNat / 16 % 8 ∧
    (hdrFin b0 = true ↔ 128 ≤ b0.toNat) ∧ (hdrMsk b1 = true ↔ 128 ≤ b1.toNat) ∧
    (hdrLen7 b1).toNat = b1.toNat % 128 ∧
    ∃ row ∈ frameRows, row.1 = hdrOpc b0 ∧
      decodeHeader b0 b1 = row.2 (hdrFin b0) (hdrRsv b0) (hdrMsk b1) (hdrLen7 b1)

/-! ## A step runs the decoded instruction -/

/-- An offered command that decodes is what the next step of an IDLE block runs. -/
def Obligations.StepRunsOfferedCommand : Prop :=
  ∀ (s : State) (w : Word) (payload : Bytes) (rest : List HostMove) (i : Instr),
    s.phase = .idle → s.refused = false → s.host = .offer w payload :: rest →
    decode s.cfg.payloadMax (.command w payload) = .ok i →
    step s = exec i { s with host := rest }

/-- A part of a frame, once read, is decoded and run in the same step: the header in D_HDR, the extension in D_EXT, the
key in D_KEY. -/
def Obligations.StepRunsFramePart : Prop :=
  ∀ (s s' : State), s.refused = false → HostWaits s →
    (∀ b0 b1, s.phase = .dHdr → readPart 2 s = .got [b0, b1] s' →
      step s = exec (decodeHeader b0 b1) { s' with hdr := [b0, b1] }) ∧
    (∀ len7 ext i, s.phase = .dExt → s.len7 = some len7 → readPart (extSize len7) s = .got ext s' →
      decode s.cfg.payloadMax (.extension len7 ext) = .ok i → step s = exec i s') ∧
    (∀ a b c d, s.phase = .dKey → readPart 4 s = .got [a, b, c, d] s' → step s = exec (.maskOn ⟨a, b, c, d⟩) s')

/-- Placing a word of the opcode table makes the next step run just the instruction it decodes to. -/
def Obligations.StepRunsPlacedTableWord : Prop :=
  ∀ (s : State) (nbits w : Nat) (i : Instr), s.refused = false → decodeTableWord nbits w = some i →
    ∃ s', step (s.withFetchWord nbits w) = exec i s' ∧
      (nbits = 32 → s' = { s with phase := .idle }) ∧
      (nbits = 16 → s'.stream = s.stream ∧ s'.plan = s.plan ∧ s'.host = s.host ∧ s'.cfg = s.cfg ∧
        (s'.phase = .dHdr ∨ s'.phase = .dExt) ∧ s'.part = [] ∧ s'.buf = [] ∧ s'.rsp = none)

/-! ## The command rows -/

/-- R150 and R158 (with R52, R111, R153 to R156): ENCODE completes from every state and operands; what it emits and
answers, byte by byte; and it changes nothing but the response, what is emitted and the RNG's draws. `K` is the draw. -/
def Obligations.EncodeResult : Prop :=
  ∀ (op : Opcode) (final : Bool) (payload : Bytes) (s : State), payload.length < 2 ^ 32 →
    ∃ b0 b1 ext body,
      let K := (nextKey s).toNat
      let key : Bytes := [BitVec.ofNat 8 (K / 2 ^ 24), BitVec.ofNat 8 (K / 2 ^ 16), BitVec.ofNat 8 (K / 2 ^ 8), BitVec.ofNat 8 K]
      let n := payload.length
      let F : Bytes := b0 :: b1 :: (ext ++ key ++ body)
      exec (.encode op final payload) s = .next { s with
        keys := (drawn s).keys, draws := s.draws + 1, emitted := s.emitted ++ [F],
        rsp := some { status := 0#3, cmd := 0#2, opcode := none, final := none, masked := none, length := none,
                      maskKey := none, payload := none, frame := some F } } ∧
      b0.toNat = (if final then 128 else 0) + op.toNat ∧
      (n < 126 → b1.toNat = 128 + n ∧ ext = []) ∧
      (126 ≤ n → n < 65536 → b1.toNat = 254 ∧ ext = [BitVec.ofNat 8 (n / 2 ^ 8), BitVec.ofNat 8 n]) ∧
      (65536 ≤ n → b1.toNat = 255 ∧ ext = [0#8, 0#8, 0#8, 0#8, BitVec.ofNat 8 (n / 2 ^ 24), BitVec.ofNat 8 (n / 2 ^ 16),
        BitVec.ofNat 8 (n / 2 ^ 8), BitVec.ofNat 8 n]) ∧
      body.length = n ∧
      ∀ i, i < n → body.getD i 0#8 = payload.getD i 0#8 ^^^ key.getD (i % 4) 0#8

/-- R114: the size of the frame ENCODE emits. -/
def Obligations.EncodedFrameSize : Prop :=
  ∀ (op : Opcode) (final : Bool) (payload : Bytes) (s t : State),
    exec (.encode op final payload) s = .next t →
    ∃ F, t.emitted = s.emitted ++ [F] ∧
      (payload.length < 126 → F.length = payload.length + 6) ∧
      (126 ≤ payload.length → payload.length < 65536 → F.length = payload.length + 8) ∧
      (65536 ≤ payload.length → F.length = payload.length + 14)

/-- R151: the emitted frame depends on `op`, `final`, `P` and the draw alone. -/
def Obligations.EncodeIgnoresState : Prop :=
  ∀ (op : Opcode) (final : Bool) (payload : Bytes) (s s' t t' : State) (F : Bytes),
    nextKey s = nextKey s' →
    exec (.encode op final payload) s = .next t → exec (.encode op final payload) s' = .next t' →
    t.emitted = s.emitted ++ [F] → t'.emitted = s'.emitted ++ [F] ∧ t'.rsp = t.rsp

/-- R152: a draw is a value of `KEY_DRAW`, whatever it is; a given draw that is allowed is the one used; under
`SRC_RANGE` the first key byte is at most 0x7F and the draw is not 0. -/
def Obligations.KeyDrawAllowed : Prop :=
  ∀ s : State,
    keyAllowed s.cfg.keyDraw (nextKey s) = true ∧
    (s.cfg.keyDraw = .srcRange → nextKey s ≠ 0#32 ∧ (keyOfWord (nextKey s)).k0.toNat ≤ 0x7F) ∧
    ∀ k ks, s.keys = k :: ks → keyAllowed s.cfg.keyDraw k = true → nextKey s = k ∧ (drawn s).keys = ks

/-- R90 and R160: the pseudo-instructions have the words of the ENCODEs they expand to, and complete as those do; the pong
frame is 8A 80 and the key. -/
def Obligations.PseudoRowsRunAsEncode : Prop :=
  ∀ (s : State) (payload : Bytes),
    ((∃ t, exec .pong s = .next t ∧ exec (.encode 10#4 true []) s = .next t ∧
        t.emitted = s.emitted ++ [0x8A#8 :: 0x80#8 :: beBytes 4 (nextKey s).toNat]) ∧
      Sys2Proof.encode .pong = .command 0x00000068#32 [] ∧
      Sys2Proof.encode (.encode 10#4 true []) = .command 0x00000068#32 []) ∧
    ((∃ t, exec (.text payload) s = .next t ∧ exec (.encode 1#4 true payload) s = .next t) ∧
      Sys2Proof.encode (.text payload) = .command 0x00000044#32 payload ∧
      Sys2Proof.encode (.encode 1#4 true payload) = .command 0x00000044#32 payload) ∧
    ((∃ t, exec (.bin payload) s = .next t ∧ exec (.encode 2#4 true payload) s = .next t) ∧
      Sys2Proof.encode (.bin payload) = .command 0x00000048#32 payload ∧
      Sys2Proof.encode (.encode 2#4 true payload) = .command 0x00000048#32 payload) ∧
    ((∃ t, exec (.close payload) s = .next t ∧ exec (.encode 8#4 true payload) s = .next t) ∧
      Sys2Proof.encode (.close payload) = .command 0x00000060#32 payload ∧
      Sys2Proof.encode (.encode 8#4 true payload) = .command 0x00000060#32 payload)

/-- R181: DECODE is accepted in one step, when an IDLE block is offered it. No decode register keeps a value, no stream
access is made, and nothing outside the block changes. -/
def Obligations.DecodeAccepted : Prop :=
  ∀ s : State,
    let accepted := { s with
      phase := .dHdr, hdr := [], part := [], buf := [], rsp := none,
      opc := none, fin := none, msk := none, len7 := none, len := none, key := none }
    exec .decode s = .next accepted ∧
    ∀ rest, s.phase = .idle → s.refused = false → s.host = .offer 1#32 [] :: rest →
      step s = .next { accepted with host := rest }

/-- R73: the reserved command words are refused from every state, with the mark set and nothing else changed. -/
def Obligations.ReservedRowsRefused : Prop :=
  ∀ (s : State) (f : BitVec 5) (h : BitVec 25) (l : BitVec 7) (payload : Bytes),
    exec (.reservedCmd2 f payload) s = .refused (.cmdReserved { s with refused := true }) ∧
    exec (.reservedCmd3 f payload) s = .refused (.cmdReserved { s with refused := true }) ∧
    exec (.reservedDecodeFields f payload) s = .refused (.cmdReserved { s with refused := true }) ∧
    exec (.reservedHighBits h l payload) s = .refused (.cmdReserved { s with refused := true })

/-! ## The rows of a frame -/

/-- R182 and R188 (with R25, R77, R78 to R85, R189): every FRAME row, on every state. The header fields are latched, RSV
is read by nothing, and the block goes on to the part the header announces, completes an empty unmasked frame, or
refuses a length above PAYLOAD_MAX. Everything not named is unchanged; a frame that completes leaves the registers empty
(`ended`), which is DEDUCED (log 3) from the opening of spec/10_state.md and not in R186's pseudo-code. -/
def Obligations.FrameRowsResult : Prop :=
  ∀ row ∈ frameRows, ∀ (fin : Bool) (rsv : BitVec 3) (masked : Bool) (len7 : Len7) (s : State),
    let latched := { s with opc := some row.1, fin := some fin, msk := some masked, len7 := some len7 }
    let sized := { latched with len := some (BitVec.ofNat 32 len7.toNat) }
    (126 ≤ len7.toNat → exec (row.2 fin rsv masked len7) s = .next { latched with phase := .dExt }) ∧
    (len7.toNat ≤ 125 → s.cfg.payloadMax.toNat < len7.toNat →
      exec (row.2 fin rsv masked len7) s = .refused (.lengthUnsupported { latched with refused := true })) ∧
    (len7.toNat ≤ 125 → len7.toNat ≤ s.cfg.payloadMax.toNat → masked = true →
      exec (row.2 fin rsv masked len7) s = .next { sized with phase := .dKey }) ∧
    (len7.toNat ≤ 125 → len7.toNat ≤ s.cfg.payloadMax.toNat → masked = false → len7.toNat ≠ 0 →
      exec (row.2 fin rsv masked len7) s = .next { sized with phase := .dPay }) ∧
    (len7.toNat = 0 → masked = false → s.buf = [] →
      exec (row.2 fin rsv masked len7) s = .next (ended (frameRsp row.1 fin false 0#32 none []) s))

/-- R117, R183 and R188 (with R186, R189): the LEN rows. The declared length, as a number; where it is supported the row
stores it and goes on to the key, to the payload, or completes an empty unmasked frame; where it is not, the row refuses.
A frame that completes leaves the registers empty (`ended`), which is DEDUCED (log 3) from the opening of
spec/10_state.md. -/
def Obligations.LengthRowsResult : Prop :=
  ∀ (s : State) (masked : Bool), s.msk = some masked →
    ∀ (i : Instr) (n : Nat),
      ((∃ l : Len7, i = .lenInline l ∧ l.toNat ≤ 125 ∧ n = l.toNat) ∨
       (∃ a b : Byte, i = .lenExt16 [a, b] ∧ n = a.toNat * 256 + b.toNat) ∨
       (∃ a b c d e f g h : Byte, i = .lenExt64 [a, b, c, d, e, f, g, h] ∧
          n = a.toNat * 2 ^ 56 + b.toNat * 2 ^ 48 + c.toNat * 2 ^ 40 + d.toNat * 2 ^ 32 + e.toNat * 2 ^ 24 +
            f.toNat * 2 ^ 16 + g.toNat * 2 ^ 8 + h.toNat)) →
      (s.cfg.payloadMax.toNat < n → exec i s = .refused (.lengthUnsupported { s with refused := true })) ∧
      (n ≤ s.cfg.payloadMax.toNat → masked = true →
        exec i s = .next { s with len := some (BitVec.ofNat 32 n), phase := .dKey }) ∧
      (n ≤ s.cfg.payloadMax.toNat → masked = false → n ≠ 0 →
        exec i s = .next { s with len := some (BitVec.ofNat 32 n), phase := .dPay }) ∧
      (∀ op fin, n = 0 → masked = false → s.opc = some op → s.fin = some fin → s.buf = [] →
        exec i s = .next (ended (frameRsp op fin false 0#32 none []) s))

/-- R184, R186, R189 and R194: the MASK rows. MASK_ON stores the key; then either the payload is next, or the frame is empty
and complete, with the key in the response exactly when it was masked. A frame that completes leaves the registers empty
(`ended`), which is DEDUCED (log 3) from the opening of spec/10_state.md. -/
def Obligations.MaskRowsResult : Prop :=
  ∀ (s : State) (len : Word) (key : Key), s.len = some len →
    (len ≠ 0#32 → exec (.maskOn key) s = .next { s with key := some key, phase := .dPay }) ∧
    (len ≠ 0#32 → exec .maskOff s = .next { s with phase := .dPay }) ∧
    (∀ op fin, len = 0#32 → s.opc = some op → s.fin = some fin → s.buf = [] →
      (s.msk = some true → exec (.maskOn key) s = .next (ended (frameRsp op fin true 0#32 (some key) []) s)) ∧
      (s.msk = some false → exec .maskOff s = .next (ended (frameRsp op fin false 0#32 none []) s)))

/-- R77: the RSV bits. The frame ENCODE emits has them 0. Two states alike but for bits 6:4 of one header byte 0, in the
stream, in `part` or in `hdr`, take like steps: from two streams that differ in these bits alone a DECODE, and every
command after it, gives the same responses and the same errors, whatever HOST and STREAM do. -/
def Obligations.RsvBitsIgnored : Prop :=
  (∀ (op : Opcode) (final : Bool) (payload : Bytes) (s t : State), exec (.encode op final payload) s = .next t →
    ∃ b0 rest, t.emitted = s.emitted ++ [b0 :: rest] ∧ b0.toNat / 16 % 8 = 0) ∧
  ∀ (b0 c0 : Byte) (s s' t : State), b0 &&& 0x8F#8 = c0 &&& 0x8F#8 → AlikeBut b0 c0 s s' → step s = .next t →
    ∃ t', step s' = .next t' ∧ AlikeBut b0 c0 t t'

/-- R185, R190 and R191: the payload step on an answer of at least one byte. The request is The request is for the bytes still missing;
the answer is appended; the frame completes when all have come (R186, R193), and then leaves the registers empty
(`ended`), which is DEDUCED (log 3) from the opening of spec/10_state.md. -/
def Obligations.PayloadStepResult : Prop :=
  ∀ (s : State) (len : Word), s.phase = .dPay → s.refused = false → HostWaits s → s.len = some len →
    s.buf.length < len.toNat → s.stream ≠ [] →
    ∀ (m : Nat) (plan' : StreamPlan),
      ((s.plan = .whole ∧ plan' = .whole ∧ m = min (len.toNat - s.buf.length) s.stream.length) ∨
       (∃ k c, s.plan = .chunked (.data k :: c) ∧ plan' = .chunked c ∧ 0 < k ∧
          m = min k (min (len.toNat - s.buf.length) s.stream.length))) →
      let got := { s with buf := s.buf ++ s.stream.take m, stream := s.stream.drop m, plan := plan',
                          requests := s.requests ++ [len.toNat - s.buf.length] }
      (s.buf.length + m < len.toNat → step s = .next got) ∧
      (∀ op fin, s.buf.length + m = len.toNat → s.opc = some op → s.fin = some fin → s.msk = some false →
        step s = .next (ended (frameRsp op fin false len none got.buf) got)) ∧
      (∀ op fin key, s.buf.length + m = len.toNat → s.opc = some op → s.fin = some fin → s.msk = some true →
        s.key = some key →
        step s = .next (ended (frameRsp op fin true len (some key) (maskBytes key got.buf)) got))

/-! ## The stream -/

/-- R53: what a read request can be answered with, and what it leaves: data is the front of `S`, at most what was asked
for, and leaves `S`; an error leaves `S` alone; nothing else changes. -/
def Obligations.StreamReadAnswer : Prop :=
  ∀ (n : Nat) (s : State), 1 ≤ n →
    (∀ b s', streamRead n s = .data b s' → b.length ≤ n ∧ b ++ s'.stream = s.stream ∧
      s' = { s with stream := s'.stream, plan := s'.plan, requests := s.requests ++ [n] }) ∧
    (∀ s', streamRead n s = .err s' → s' = { s with plan := s'.plan, requests := s.requests ++ [n] }) ∧
    (∀ s', streamRead n s = .held s' → s' = { s with plan := s'.plan }) ∧
    streamRead n s ≠ .noRequest

/-- R54 and R55: every answer the spec admits is one STREAM can give: any length up to the request and what there is, or
an error. Under `WholeReads` the answer is all there is, up to the request. -/
def Obligations.StreamAnswersAdmitted : Prop :=
  ∀ (n : Nat) (s : State) (c : List StreamMove), 1 ≤ n →
    (∀ m, m ≤ n → m ≤ s.stream.length → ∃ s', streamRead n { s with plan := .chunked (.data m :: c) } =
      .data (s.stream.take m) s' ∧ s'.stream = s.stream.drop m) ∧
    (∃ s', streamRead n { s with plan := .chunked (.err :: c) } = .err s' ∧ s'.stream = s.stream) ∧
    (WholeReads s → ∃ s', streamRead n s = .data (s.stream.take n) s' ∧ s'.stream = s.stream.drop n)

/-- R187: under SINGLE_SHOT a header part is asked for once, and any answer shorter than it fails; R196: under LOOP an
answer is added to what has been collected, and only an empty answer or an error fails. -/
def Obligations.HeaderPartRead : Prop :=
  ∀ (n : Nat) (s s' : State),
    (s.cfg.hdrRead = .singleShot → ∀ b, streamRead n s = .data b s' →
      (b.length < n → readPart n s = .failed s') ∧ (n ≤ b.length → readPart n s = .got b s')) ∧
    (s.cfg.hdrRead = .loop → ∀ b, streamRead (n - s.part.length) s = .data b s' →
      (b = [] → readPart n s = .failed s') ∧
      (b ≠ [] → s.part.length + b.length < n → readPart n s = .stay { s' with part := s.part ++ b }) ∧
      (b ≠ [] → n ≤ s.part.length + b.length → readPart n s = .got (s.part ++ b) { s' with part := [] })) ∧
    (streamRead (if s.cfg.hdrRead = .loop then n - s.part.length else n) s = .err s' → readPart n s = .failed s')

/-- Every step consumes `S` strictly front to back and makes at most one request, of at least one byte, which its bytes
do not exceed (R53, R57, R58, R62). -/
def Obligations.StreamConsumedInOrder : Prop :=
  ∀ s t : State, step s = .next t →
    ∃ c, s.stream = c ++ t.stream ∧
      ((t.requests = s.requests ∧ c = []) ∨ ∃ n, 1 ≤ n ∧ c.length ≤ n ∧ t.requests = s.requests ++ [n])

/-- R68: ENCODE reads no stream; no step of a DECODE emits, nor draws a key. -/
def Obligations.DirectionsShareNothing : Prop :=
  (∀ (s t : State) (op : Opcode) (final : Bool) (payload : Bytes), exec (.encode op final payload) s = .next t →
    t.stream = s.stream ∧ t.plan = s.plan ∧ t.requests = s.requests) ∧
  (∀ s t : State, s.phase ≠ .idle → step s = .next t →
    t.emitted = s.emitted ∧ t.keys = s.keys ∧ t.draws = s.draws)

/-! ## Errors -/

/-- R197, R199, R230 and R231: a failed read ends the DECODE in that step, with the status code of its phase; the registers
lose their values, and nothing else changes. -/
def Obligations.FailedReadReported : Prop :=
  ∀ (s s' : State), s.refused = false → HostWaits s → s.cfg.failureMode = .propagate →
    (s.phase = .dHdr → readPart 2 s = .failed s' → step s = .next (ended (failRsp 1#3) s')) ∧
    (∀ len7, s.phase = .dExt → s.len7 = some len7 → readPart (extSize len7) s = .failed s' →
      step s = .next (ended (failRsp 2#3) s')) ∧
    (s.phase = .dKey → readPart 4 s = .failed s' → step s = .next (ended (failRsp 3#3) s')) ∧
    (∀ len, s.phase = .dPay → s.len = some len →
      (streamRead (len.toNat - s.buf.length) s = .err s' ∨ streamRead (len.toNat - s.buf.length) s = .data [] s') →
      step s = .next (ended (failRsp 4#3) s'))

/-- R235: under OBSERVE the failing step is refused, in every phase. -/
def Obligations.ObserveModeRefused : Prop :=
  ∀ (s s' : State), s.refused = false → HostWaits s → s.cfg.failureMode = .observe →
    (s.phase = .dHdr → readPart 2 s = .failed s' → step s = .refused (.observeMode { s' with refused := true })) ∧
    (∀ len7, s.phase = .dExt → s.len7 = some len7 → readPart (extSize len7) s = .failed s' →
      step s = .refused (.observeMode { s' with refused := true })) ∧
    (s.phase = .dKey → readPart 4 s = .failed s' → step s = .refused (.observeMode { s' with refused := true })) ∧
    (∀ len, s.phase = .dPay → s.len = some len →
      (streamRead (len.toNat - s.buf.length) s = .err s' ∨ streamRead (len.toNat - s.buf.length) s = .data [] s') →
      step s = .refused (.observeMode { s' with refused := true }))

/-- R200: an I/O error and the end of the stream have the same effect in every phase. -/
def Obligations.ErrorAndEndAlike : Prop :=
  ∀ (s : State) (c : List StreamMove), s.phase ≠ .idle → s.refused = false → HostQuiet s →
    step { s with plan := .chunked (.err :: c) } = step { s with plan := .chunked (.data 0 :: c) }

/-- R202: a DECODE whose first header read is answered with no bytes (the stream has ended, or a timeout) or with an
error fails in that read with the status code 1. -/
def Obligations.DecodeOnEndedStream : Prop :=
  ∀ s : State, s.phase = .idle → s.refused = false → s.cfg.failureMode = .propagate → s.host = [.offer 1#32 []] →
    ((WholeReads s ∧ s.stream = []) ∨ ∃ c, s.plan = .chunked (.data 0 :: c) ∨ s.plan = .chunked (.err :: c)) →
    ∃ t, RunsTo 2 s t ∧ t.phase = .idle ∧ t.rsp = some (failRsp 1#3) ∧ t.stream = s.stream

/-! ## Sequencing, holding, reset -/

/-- R24: the phase only moves forward and back to IDLE; from IDLE it moves to D_HDR alone. -/
def Obligations.PhaseMovesForward : Prop :=
  ∀ s t : State, step s = .next t →
    (s.phase = .idle → t.phase = .idle ∨ t.phase = .dHdr) ∧
    (s.phase = .dExt → t.phase ≠ .dHdr) ∧
    (s.phase = .dKey → t.phase ≠ .dHdr ∧ t.phase ≠ .dExt) ∧
    (s.phase = .dPay → t.phase = .dPay ∨ t.phase = .idle)

/-- R270 and R39: a command offered while a DECODE is in progress is held, neither accepted nor lost: the step is the one
without it, whatever its outcome, and the offer stays. -/
def Obligations.CommandHeldWhileBusy : Prop :=
  ∀ (s : State) (w : Word) (payload : Bytes) (rest : List HostMove),
    s.phase ≠ .idle → s.host = .offer w payload :: rest → step s = rehost s.host (step { s with host := [] })

/-- HOST's `wait` (log 7): the step is the one without it, whatever its outcome, and the wait has gone by. -/
def Obligations.WaitLeavesOneStep : Prop :=
  ∀ (s : State) (rest : List HostMove), s.refused = false → s.host = .wait :: rest →
    step s = rehost rest (step { s with host := [] })

/-- R262 and R24: an IDLE block that is offered nothing waits: its step changes nothing but that a wait goes by. That the
model has such a step at all is its choice (log 8). -/
def Obligations.IdleBlockWaits : Prop :=
  ∀ s : State, s.phase = .idle → s.refused = false →
    (s.host = [] → step s = .next s) ∧
    (∀ rest, s.host = .wait :: rest → step s = .next { s with host := rest })

/-- R201: until STREAM answers, a DECODE in progress is held and keeps all its registers; an answer that is late is what
goes by. -/
def Obligations.HeldUntilStreamAnswers : Prop :=
  ∀ s : State, Inv s → s.phase ≠ .idle → s.refused = false → HostWaits s →
    (s.plan = .chunked [] → step s = .next s) ∧
    (∀ c, s.plan = .chunked (.late :: c) → step s = .next { s with plan := .chunked c })

/-- R271: an IDLE block's response is cleared or overwritten by a command or a reset only, and a DECODE in progress has
none until it ends. -/
def Obligations.ResponseLasts : Prop :=
  ∀ s t : State, step s = .next t →
    (s.phase = .idle → (∀ w p rest, s.host ≠ .offer w p :: rest) → (∀ rest, s.host ≠ .reset :: rest) → t.rsp = s.rsp) ∧
    (s.phase ≠ .idle → t.phase ≠ .idle → t.rsp = s.rsp)

/-- R32 and R249: HOST's read of a field changes nothing where the response carries it (that the read takes a step and its
place among HOST's moves is the model's, log 7). It faults where there is no response or the field is absent; so does
every field but `status` and `cmd` of an error response, and `maskKey` of an unmasked frame. -/
def Obligations.HostReadsResponse : Prop :=
  ∀ (s : State) (f : RspField) (rest : List HostMove), s.refused = false → s.host = .read f :: rest →
    (s.rsp = none → step s = .fault .rspNoValue) ∧
    (∀ r, s.rsp = some r → ¬ Absent r f → step s = .next { s with host := rest }) ∧
    (∀ r, s.rsp = some r → Absent r f → step s = .fault (.fieldAbsent f)) ∧
    (∀ c, s.rsp = some (failRsp c) → f ≠ .status → f ≠ .cmd → step s = .fault (.fieldAbsent f)) ∧
    (∀ op fin len payload, s.rsp = some (frameRsp op fin false len none payload) → f = .maskKey →
      step s = .fault (.fieldAbsent .maskKey))

/-- R260: a reset acts in one step from any phase, and leaves the mark, the parameters and the stream alone; R261: power-on
is reset with the mark cleared, and State.reset is such a state. -/
def Obligations.ResetFromAnyPhase : Prop :=
  ∀ s : State,
    (∀ rest, s.host = .reset :: rest → step s = .next { s with
      host := rest, phase := .idle, hdr := [], part := [], buf := [], opc := none, fin := none, msk := none,
      len7 := none, len := none, key := none, rsp := none }) ∧
    powerOn s = { resetBlock s with refused := false } ∧ powerOn State.reset = State.reset

/-- R33: no step clears the mark or sets it and goes on; a state that carries it has no step but a reset; every refusal
leaves it set. -/
def Obligations.RefusedMarkSticky : Prop :=
  ∀ s : State,
    (∀ t, step s = .next t → t.refused = s.refused) ∧
    (s.refused = true → (∀ rest, s.host ≠ .reset :: rest) → step s = .refused (.alreadyRefused s)) ∧
    (∀ r, step s = .refused r → ∃ left, left.refused = true ∧
      (r = .cmdReserved left ∨ r = .lengthUnsupported left ∨ r = .observeMode left ∨ r = .alreadyRefused left))

/-- R248: a step is refused only for these reasons: a reserved word offered to an IDLE block; a failing read of a DECODE
under OBSERVE; a payload or a declared length above PAYLOAD_MAX. -/
def Obligations.RefusalReasons : Prop :=
  ∀ (s : State), s.refused = false →
    (∀ left, step s = .refused (.cmdReserved left) →
      s.phase = .idle ∧ ∃ w p rest, s.host = .offer w p :: rest ∧
        (w.toNat % 4 ≠ 0 ∨ 128 ≤ w.toNat) ∧ (w.toNat = 1 → p ≠ [])) ∧
    (∀ left, step s = .refused (.observeMode left) →
      s.cfg.failureMode = .observe ∧ ∃ s', ReadFails (waited s) s' ∧ left = { s' with refused := true }) ∧
    (∀ left, step s = .refused (.lengthUnsupported left) → ∃ n, s.cfg.payloadMax.toNat < n ∧ Declares (waited s) n) ∧
    (∀ left, step s ≠ .refused (.alreadyRefused left)) ∧
    (∀ m, step s ≠ .refused (.notModelled m))

/-- R22 and R264: no step changes a parameter. -/
def Obligations.ParametersFixed : Prop :=
  ∀ s t : State, step s = .next t → t.cfg = s.cfg

/-- R21: what a command does in an IDLE block depends on nothing an earlier command left: not on the response, nor on
what was emitted or asked for. -/
def Obligations.NoStateBetweenCommands : Prop :=
  ∀ (s s' t : State), Inv s → s.phase = .idle →
    s' = { s with rsp := s'.rsp, emitted := s'.emitted, requests := s'.requests } →
    (∃ w p rest, s.host = .offer w p :: rest) → step s = .next t →
    ∃ t', step s' = .next t' ∧ t' = { t with emitted := t'.emitted, requests := t'.requests } ∧
      (∀ F, t.emitted = s.emitted ++ F → t'.emitted = s'.emitted ++ F) ∧ t'.requests = s'.requests

/-! ## The length multiplexer and the mask engine -/

/-- R119: the round-trip law of the length multiplexer. -/
def Obligations.LengthRoundTrip : Prop :=
  ∀ n, n < 2 ^ 32 → extSize (lenEnc n).1 = (lenEnc n).2.length ∧ lenDec (lenEnc n).1 (lenEnc n).2 = n

/-- R116: no code and extension that decode to `n` are shorter than `LenEnc(n)`'s, though the longest form decodes to `n`
as well (R87, R117); R113: the top 4 bytes of an 8-byte extension ENCODE writes are 0. -/
def Obligations.LengthEncodingMinimal : Prop :=
  ∀ n, n < 2 ^ 32 →
    (∀ (c : Len7) (ext : Bytes), ext.length = extSize c → lenDec c ext = n → (lenEnc n).2.length ≤ ext.length) ∧
    ((lenEnc n).2.length = 8 → (lenEnc n).2.take 4 = [0#8, 0#8, 0#8, 0#8]) ∧
    ((lenEnc n).2.length = 0 ↔ n ≤ 125) ∧ ((lenEnc n).2.length = 2 ↔ 126 ≤ n ∧ n ≤ 65535) ∧
    ∃ ext : Bytes, ext.length = extSize 127#7 ∧ lenDec 127#7 ext = n

/-- R130: each output byte of the mask engine. -/
def Obligations.MaskBytewise : Prop :=
  ∀ (k : Key) (d : Bytes), (maskBytes k d).length = d.length ∧
    ∀ i, i < d.length → (maskBytes k d).getD i 0#8 = d.getD i 0#8 ^^^ k.bytes.getD (i % 4) 0#8

/-- R133: masking is an involution. -/
def Obligations.MaskInvolutive : Prop :=
  ∀ (k : Key) (d : Bytes), maskBytes k (maskBytes k d) = d

/-- R134: the key 0, the key of ones, and splitting at any point. -/
def Obligations.MaskIdentities : Prop :=
  ∀ (k : Key) (a b : Bytes),
    maskBytes ⟨0#8, 0#8, 0#8, 0#8⟩ a = a ∧
    maskBytes ⟨0xFF#8, 0xFF#8, 0xFF#8, 0xFF#8⟩ a = a.map (~~~ ·) ∧
    (a.length % 4 = 0 → maskBytes k (a ++ b) = maskBytes k a ++ maskBytes k b) ∧
    maskBytes k (a ++ b) = maskBytes k a ++ maskBytes (rotKey k (a.length % 4)) b

/-! ## The invariant, and whole commands -/

/-- The state after power-on (R37) meets the invariant. -/
def Obligations.ResetMeetsInv : Prop := Inv State.reset ∧ State.reset.phase = .idle ∧ State.reset.refused = false

/-- Every step keeps the invariant: what the block holds in each phase (R23 to R28) and which fields a response
carries (R30). That an IDLE block holds nothing after a DECODE that completed is DEDUCED (log 3) from the opening of
spec/10_state.md: the registers "are discarded when it ends". -/
def Obligations.StepKeepsInv : Prop := ∀ s t : State, Inv s → step s = .next t → Inv t

/-- R249: from a state that meets the invariant the only faults are HOST's reads of a field that holds no value. -/
def Obligations.FaultsOnlyOnHostReads : Prop :=
  ∀ (s : State) (r : Fault), Inv s → step s = .fault r →
    ∃ f rest, s.host = .read f :: rest ∧
      ((s.rsp = none ∧ r = .rspNoValue) ∨ (∃ q, s.rsp = some q ∧ Absent q f ∧ r = .fieldAbsent f))

/-- R276: each step of a DECODE in which STREAM answers ends the command, is refused, or consumes at least one byte. -/
def Obligations.DecodeStepProgress : Prop :=
  ∀ s : State, Inv s → s.phase ≠ .idle → s.refused = false → HostWaits s → Answers s →
    (∃ r, step s = .refused r) ∨
    ∃ t, step s = .next t ∧ (t.phase = .idle ∨ t.stream.length < s.stream.length)

/-- R276: the bound on the steps of a DECODE. After `n` steps from D_HDR that have left it in progress, STREAM has answered
at most 3 requests beyond one for each payload byte received under SINGLE_SHOT, and 14 under LOOP; and in D_PAY fewer
bytes than the declared length have been received. -/
def Obligations.DecodeReadsBounded : Prop :=
  ∀ (n : Nat) (s t : State), Inv s → s.phase = .dHdr → s.part = [] → s.refused = false → s.host = [] →
    RunsTo n s t → t.phase ≠ .idle →
    (s.cfg.hdrRead = .singleShot → t.requests.length ≤ s.requests.length + 3 + t.buf.length) ∧
    (s.cfg.hdrRead = .loop → t.requests.length ≤ s.requests.length + 14 + t.buf.length) ∧
    (t.phase = .dPay → ∃ len, t.len = some len ∧ t.buf.length < len.toNat)

/-- R180 and R195 (with R75, R131, R192, R193): a DECODE that completes has consumed one whole frame and nothing after it,
and its response reports just that frame, however STREAM split it into answers. -/
def Obligations.DecodeReportsTheFrame : Prop :=
  ∀ (n : Nat) (s t : State) (r : Rsp), Inv s → s.phase = .dHdr → s.part = [] → s.refused = false → s.host = [] →
    RunsTo n s t → t.phase = .idle → t.rsp = some r → r.status = 0#3 →
    ∃ b0 b1 ext kb data, s.stream = b0 :: b1 :: (ext ++ kb ++ data) ++ t.stream ∧ Reports b0 b1 ext kb data r

/-- R180 and R198 (with R87, R88): under `WholeReads` every frame at the front of `S` whose length is supported is decoded,
masked or not, whatever its opcode, RSV bits and length tier; the DECODE takes at most 5 steps and leaves the rest of `S`. -/
def Obligations.EveryFrameDecodes : Prop :=
  ∀ (s : State) (b0 b1 : Byte) (ext kb data rest : Bytes) (r : Rsp),
    s.phase = .idle → s.refused = false → s.host = [.offer 1#32 []] → WholeReads s →
    s.stream = b0 :: b1 :: (ext ++ kb ++ data) ++ rest → Reports b0 b1 ext kb data r →
    data.length ≤ s.cfg.payloadMax.toNat →
    ∃ n t, n ≤ 5 ∧ RunsTo n s t ∧ t.phase = .idle ∧ t.rsp = some r ∧ t.stream = rest

/-- R161: the round trip. A frame that an ENCODE emits, given as the whole of `S` to a DECODE under `WholeReads`, decodes
to the operands of the ENCODE, for every opcode, final flag, draw and payload up to PAYLOAD_MAX. -/
def Obligations.EncodeDecodeRoundTrip : Prop :=
  ∀ (u v s : State) (op : Opcode) (final : Bool) (payload F : Bytes),
    exec (.encode op final payload) u = .next v → v.emitted = u.emitted ++ [F] →
    s.phase = .idle → s.refused = false → s.host = [.offer 1#32 []] → WholeReads s → s.stream = F →
    payload.length ≤ s.cfg.payloadMax.toNat →
    ∃ n t, RunsTo n s t ∧ t.phase = .idle ∧ t.stream = [] ∧
      t.rsp = some (frameRsp op final true (BitVec.ofNat 32 payload.length) (some (keyOfWord (nextKey u))) payload)
end

