-- ==== Sys2Proof/Laws/Mux.lean ====
section
/-! SUPPORT. The byte-order helpers, the length multiplexer and the mask engine: their sizes and values. -/

namespace Sys2Proof

@[simp] theorem beBytes_length (n v : Nat) : (beBytes n v).length = n := by
  induction n with
  | zero => rfl
  | succ n ih => simp [beBytes, ih]

/-- A big-endian sequence holds its value modulo the size of the field (R10). -/
theorem unBE_beBytes (n v : Nat) : unBE (beBytes n v) = v % 256 ^ n := by
  induction n with
  | zero => simp [beBytes, unBE, Nat.mod_one]
  | succ n ih =>
    rw [beBytes, unBE, ih, beBytes_length, BitVec.toNat_ofNat, pow_succ (256 : Nat) n, Nat.mod_mul]
    ring

theorem unBE_lt (b : Bytes) : unBE b < 256 ^ b.length := by
  induction b with
  | nil => simp [unBE]
  | cons x xs ih =>
    have hx : x.toNat < 256 := x.isLt
    rw [unBE, List.length_cons, pow_succ]
    nlinarith

/-- The extension a LEN7 field announces has 0, 2 or 8 bytes (R115). -/
theorem extSize_cases (l : Len7) :
    (l.toNat ≤ 125 ∧ extSize l = 0) ∨ (l.toNat = 126 ∧ extSize l = 2) ∨ (l.toNat = 127 ∧ extSize l = 8) := by
  have := l.isLt
  unfold extSize
  split
  · exact .inl ⟨by assumption, rfl⟩
  · split
    · exact .inr (.inl ⟨by assumption, rfl⟩)
    · exact .inr (.inr ⟨by omega, rfl⟩)

namespace Machine

theorem lenDec_inline {l : Len7} (h : l.toNat ≤ 125) (ext : Bytes) : lenDec l ext = l.toNat := by
  simp [lenDec, h]

theorem lenDec_ext {l : Len7} (h : 125 < l.toNat) (ext : Bytes) : lenDec l ext = unBE ext := by
  simp [lenDec, Nat.not_le.mpr h]

@[simp] theorem maskFrom_length (k : Key) (i : Nat) (d : Bytes) : (maskFrom k i d).length = d.length := by
  induction d generalizing i with
  | nil => rfl
  | cons b bs ih => simp [maskFrom, ih]

@[simp] theorem maskBytes_length (k : Key) (d : Bytes) : (maskBytes k d).length = d.length :=
  maskFrom_length k 0 d

@[simp] theorem maskBytes_nil (k : Key) : maskBytes k [] = [] := rfl

theorem maskFrom_append (k : Key) (i : Nat) (a b : Bytes) :
    maskFrom k i (a ++ b) = maskFrom k i a ++ maskFrom k (i + a.length) b := by
  induction a generalizing i with
  | nil => rfl
  | cons x xs ih => simp only [List.cons_append, maskFrom, ih, List.length_cons, Nat.add_assoc, Nat.add_comm 1]

/-- The key byte depends on the index modulo 4 alone (R130). -/
theorem keyByte_mod (k : Key) (i : Nat) : keyByte k (i % 4) = keyByte k i := by
  unfold keyByte; rw [Nat.mod_mod]

end Machine
end Sys2Proof
end

