-- ==== Sys2Proof/Laws/State.lean ====
section
/-! SUPPORT. One lemma for each field and each named update of the state, so that no proof unfolds an update. -/

namespace Sys2Proof.Machine

/-! ## `dropDecode` -/

@[simp] theorem dropDecode_phase (s : State) : (dropDecode s).phase = s.phase := rfl
@[simp] theorem dropDecode_hdr (s : State) : (dropDecode s).hdr = [] := rfl
@[simp] theorem dropDecode_opc (s : State) : (dropDecode s).opc = none := rfl
@[simp] theorem dropDecode_fin (s : State) : (dropDecode s).fin = none := rfl
@[simp] theorem dropDecode_msk (s : State) : (dropDecode s).msk = none := rfl
@[simp] theorem dropDecode_len7 (s : State) : (dropDecode s).len7 = none := rfl
@[simp] theorem dropDecode_len (s : State) : (dropDecode s).len = none := rfl
@[simp] theorem dropDecode_part (s : State) : (dropDecode s).part = [] := rfl
@[simp] theorem dropDecode_key (s : State) : (dropDecode s).key = none := rfl
@[simp] theorem dropDecode_buf (s : State) : (dropDecode s).buf = [] := rfl
@[simp] theorem dropDecode_rsp (s : State) : (dropDecode s).rsp = s.rsp := rfl
@[simp] theorem dropDecode_refused (s : State) : (dropDecode s).refused = s.refused := rfl
@[simp] theorem dropDecode_cfg (s : State) : (dropDecode s).cfg = s.cfg := rfl
@[simp] theorem dropDecode_stream (s : State) : (dropDecode s).stream = s.stream := rfl
@[simp] theorem dropDecode_plan (s : State) : (dropDecode s).plan = s.plan := rfl
@[simp] theorem dropDecode_requests (s : State) : (dropDecode s).requests = s.requests := rfl
@[simp] theorem dropDecode_keys (s : State) : (dropDecode s).keys = s.keys := rfl
@[simp] theorem dropDecode_draws (s : State) : (dropDecode s).draws = s.draws := rfl
@[simp] theorem dropDecode_host (s : State) : (dropDecode s).host = s.host := rfl
@[simp] theorem dropDecode_emitted (s : State) : (dropDecode s).emitted = s.emitted := rfl

/-! ## `setFlags` -/

@[simp] theorem setFlags_phase (fin masked : Bool) (s : State) : (setFlags fin masked s).phase = s.phase := rfl
@[simp] theorem setFlags_hdr (fin masked : Bool) (s : State) : (setFlags fin masked s).hdr = s.hdr := rfl
@[simp] theorem setFlags_opc (fin masked : Bool) (s : State) : (setFlags fin masked s).opc = s.opc := rfl
@[simp] theorem setFlags_fin (fin masked : Bool) (s : State) : (setFlags fin masked s).fin = some fin := rfl
@[simp] theorem setFlags_msk (fin masked : Bool) (s : State) : (setFlags fin masked s).msk = some masked := rfl
@[simp] theorem setFlags_len7 (fin masked : Bool) (s : State) : (setFlags fin masked s).len7 = s.len7 := rfl
@[simp] theorem setFlags_len (fin masked : Bool) (s : State) : (setFlags fin masked s).len = s.len := rfl
@[simp] theorem setFlags_part (fin masked : Bool) (s : State) : (setFlags fin masked s).part = s.part := rfl
@[simp] theorem setFlags_key (fin masked : Bool) (s : State) : (setFlags fin masked s).key = s.key := rfl
@[simp] theorem setFlags_buf (fin masked : Bool) (s : State) : (setFlags fin masked s).buf = s.buf := rfl
@[simp] theorem setFlags_rsp (fin masked : Bool) (s : State) : (setFlags fin masked s).rsp = s.rsp := rfl
@[simp] theorem setFlags_refused (fin masked : Bool) (s : State) : (setFlags fin masked s).refused = s.refused := rfl
@[simp] theorem setFlags_cfg (fin masked : Bool) (s : State) : (setFlags fin masked s).cfg = s.cfg := rfl
@[simp] theorem setFlags_stream (fin masked : Bool) (s : State) : (setFlags fin masked s).stream = s.stream := rfl
@[simp] theorem setFlags_plan (fin masked : Bool) (s : State) : (setFlags fin masked s).plan = s.plan := rfl
@[simp] theorem setFlags_requests (fin masked : Bool) (s : State) : (setFlags fin masked s).requests = s.requests := rfl
@[simp] theorem setFlags_keys (fin masked : Bool) (s : State) : (setFlags fin masked s).keys = s.keys := rfl
@[simp] theorem setFlags_draws (fin masked : Bool) (s : State) : (setFlags fin masked s).draws = s.draws := rfl
@[simp] theorem setFlags_host (fin masked : Bool) (s : State) : (setFlags fin masked s).host = s.host := rfl
@[simp] theorem setFlags_emitted (fin masked : Bool) (s : State) : (setFlags fin masked s).emitted = s.emitted := rfl

/-! ## `latchHeader` -/

@[simp] theorem latchHeader_phase (op : Opcode) (fin masked : Bool) (len7 : Len7) (s : State) : (latchHeader op fin masked len7 s).phase = s.phase := rfl
@[simp] theorem latchHeader_hdr (op : Opcode) (fin masked : Bool) (len7 : Len7) (s : State) : (latchHeader op fin masked len7 s).hdr = s.hdr := rfl
@[simp] theorem latchHeader_opc (op : Opcode) (fin masked : Bool) (len7 : Len7) (s : State) : (latchHeader op fin masked len7 s).opc = some op := rfl
@[simp] theorem latchHeader_fin (op : Opcode) (fin masked : Bool) (len7 : Len7) (s : State) : (latchHeader op fin masked len7 s).fin = some fin := rfl
@[simp] theorem latchHeader_msk (op : Opcode) (fin masked : Bool) (len7 : Len7) (s : State) : (latchHeader op fin masked len7 s).msk = some masked := rfl
@[simp] theorem latchHeader_len7 (op : Opcode) (fin masked : Bool) (len7 : Len7) (s : State) : (latchHeader op fin masked len7 s).len7 = some len7 := rfl
@[simp] theorem latchHeader_len (op : Opcode) (fin masked : Bool) (len7 : Len7) (s : State) : (latchHeader op fin masked len7 s).len = s.len := rfl
@[simp] theorem latchHeader_part (op : Opcode) (fin masked : Bool) (len7 : Len7) (s : State) : (latchHeader op fin masked len7 s).part = s.part := rfl
@[simp] theorem latchHeader_key (op : Opcode) (fin masked : Bool) (len7 : Len7) (s : State) : (latchHeader op fin masked len7 s).key = s.key := rfl
@[simp] theorem latchHeader_buf (op : Opcode) (fin masked : Bool) (len7 : Len7) (s : State) : (latchHeader op fin masked len7 s).buf = s.buf := rfl
@[simp] theorem latchHeader_rsp (op : Opcode) (fin masked : Bool) (len7 : Len7) (s : State) : (latchHeader op fin masked len7 s).rsp = s.rsp := rfl
@[simp] theorem latchHeader_refused (op : Opcode) (fin masked : Bool) (len7 : Len7) (s : State) : (latchHeader op fin masked len7 s).refused = s.refused := rfl
@[simp] theorem latchHeader_cfg (op : Opcode) (fin masked : Bool) (len7 : Len7) (s : State) : (latchHeader op fin masked len7 s).cfg = s.cfg := rfl
@[simp] theorem latchHeader_stream (op : Opcode) (fin masked : Bool) (len7 : Len7) (s : State) : (latchHeader op fin masked len7 s).stream = s.stream := rfl
@[simp] theorem latchHeader_plan (op : Opcode) (fin masked : Bool) (len7 : Len7) (s : State) : (latchHeader op fin masked len7 s).plan = s.plan := rfl
@[simp] theorem latchHeader_requests (op : Opcode) (fin masked : Bool) (len7 : Len7) (s : State) : (latchHeader op fin masked len7 s).requests = s.requests := rfl
@[simp] theorem latchHeader_keys (op : Opcode) (fin masked : Bool) (len7 : Len7) (s : State) : (latchHeader op fin masked len7 s).keys = s.keys := rfl
@[simp] theorem latchHeader_draws (op : Opcode) (fin masked : Bool) (len7 : Len7) (s : State) : (latchHeader op fin masked len7 s).draws = s.draws := rfl
@[simp] theorem latchHeader_host (op : Opcode) (fin masked : Bool) (len7 : Len7) (s : State) : (latchHeader op fin masked len7 s).host = s.host := rfl
@[simp] theorem latchHeader_emitted (op : Opcode) (fin masked : Bool) (len7 : Len7) (s : State) : (latchHeader op fin masked len7 s).emitted = s.emitted := rfl

/-! ## `acceptDecode` -/

@[simp] theorem acceptDecode_phase (s : State) : (acceptDecode s).phase = .dHdr := rfl
@[simp] theorem acceptDecode_hdr (s : State) : (acceptDecode s).hdr = [] := rfl
@[simp] theorem acceptDecode_opc (s : State) : (acceptDecode s).opc = none := rfl
@[simp] theorem acceptDecode_fin (s : State) : (acceptDecode s).fin = none := rfl
@[simp] theorem acceptDecode_msk (s : State) : (acceptDecode s).msk = none := rfl
@[simp] theorem acceptDecode_len7 (s : State) : (acceptDecode s).len7 = none := rfl
@[simp] theorem acceptDecode_len (s : State) : (acceptDecode s).len = none := rfl
@[simp] theorem acceptDecode_part (s : State) : (acceptDecode s).part = [] := rfl
@[simp] theorem acceptDecode_key (s : State) : (acceptDecode s).key = none := rfl
@[simp] theorem acceptDecode_buf (s : State) : (acceptDecode s).buf = [] := rfl
@[simp] theorem acceptDecode_rsp (s : State) : (acceptDecode s).rsp = none := rfl
@[simp] theorem acceptDecode_refused (s : State) : (acceptDecode s).refused = s.refused := rfl
@[simp] theorem acceptDecode_cfg (s : State) : (acceptDecode s).cfg = s.cfg := rfl
@[simp] theorem acceptDecode_stream (s : State) : (acceptDecode s).stream = s.stream := rfl
@[simp] theorem acceptDecode_plan (s : State) : (acceptDecode s).plan = s.plan := rfl
@[simp] theorem acceptDecode_requests (s : State) : (acceptDecode s).requests = s.requests := rfl
@[simp] theorem acceptDecode_keys (s : State) : (acceptDecode s).keys = s.keys := rfl
@[simp] theorem acceptDecode_draws (s : State) : (acceptDecode s).draws = s.draws := rfl
@[simp] theorem acceptDecode_host (s : State) : (acceptDecode s).host = s.host := rfl
@[simp] theorem acceptDecode_emitted (s : State) : (acceptDecode s).emitted = s.emitted := rfl

/-! ## `drawn` -/

@[simp] theorem drawn_phase (s : State) : (drawn s).phase = s.phase := rfl
@[simp] theorem drawn_hdr (s : State) : (drawn s).hdr = s.hdr := rfl
@[simp] theorem drawn_opc (s : State) : (drawn s).opc = s.opc := rfl
@[simp] theorem drawn_fin (s : State) : (drawn s).fin = s.fin := rfl
@[simp] theorem drawn_msk (s : State) : (drawn s).msk = s.msk := rfl
@[simp] theorem drawn_len7 (s : State) : (drawn s).len7 = s.len7 := rfl
@[simp] theorem drawn_len (s : State) : (drawn s).len = s.len := rfl
@[simp] theorem drawn_part (s : State) : (drawn s).part = s.part := rfl
@[simp] theorem drawn_key (s : State) : (drawn s).key = s.key := rfl
@[simp] theorem drawn_buf (s : State) : (drawn s).buf = s.buf := rfl
@[simp] theorem drawn_rsp (s : State) : (drawn s).rsp = s.rsp := rfl
@[simp] theorem drawn_refused (s : State) : (drawn s).refused = s.refused := rfl
@[simp] theorem drawn_cfg (s : State) : (drawn s).cfg = s.cfg := rfl
@[simp] theorem drawn_stream (s : State) : (drawn s).stream = s.stream := rfl
@[simp] theorem drawn_plan (s : State) : (drawn s).plan = s.plan := rfl
@[simp] theorem drawn_requests (s : State) : (drawn s).requests = s.requests := rfl
@[simp] theorem drawn_keys (s : State) : (drawn s).keys = (s.keys.dropWhile (fun k => !keyAllowed s.cfg.keyDraw k)).tail := rfl
@[simp] theorem drawn_draws (s : State) : (drawn s).draws = s.draws + 1 := rfl
@[simp] theorem drawn_host (s : State) : (drawn s).host = s.host := rfl
@[simp] theorem drawn_emitted (s : State) : (drawn s).emitted = s.emitted := rfl

/-! ## `emit` -/

@[simp] theorem emit_phase (frame : Bytes) (s : State) : (emit frame s).phase = s.phase := rfl
@[simp] theorem emit_hdr (frame : Bytes) (s : State) : (emit frame s).hdr = s.hdr := rfl
@[simp] theorem emit_opc (frame : Bytes) (s : State) : (emit frame s).opc = s.opc := rfl
@[simp] theorem emit_fin (frame : Bytes) (s : State) : (emit frame s).fin = s.fin := rfl
@[simp] theorem emit_msk (frame : Bytes) (s : State) : (emit frame s).msk = s.msk := rfl
@[simp] theorem emit_len7 (frame : Bytes) (s : State) : (emit frame s).len7 = s.len7 := rfl
@[simp] theorem emit_len (frame : Bytes) (s : State) : (emit frame s).len = s.len := rfl
@[simp] theorem emit_part (frame : Bytes) (s : State) : (emit frame s).part = s.part := rfl
@[simp] theorem emit_key (frame : Bytes) (s : State) : (emit frame s).key = s.key := rfl
@[simp] theorem emit_buf (frame : Bytes) (s : State) : (emit frame s).buf = s.buf := rfl
@[simp] theorem emit_rsp (frame : Bytes) (s : State) : (emit frame s).rsp = s.rsp := rfl
@[simp] theorem emit_refused (frame : Bytes) (s : State) : (emit frame s).refused = s.refused := rfl
@[simp] theorem emit_cfg (frame : Bytes) (s : State) : (emit frame s).cfg = s.cfg := rfl
@[simp] theorem emit_stream (frame : Bytes) (s : State) : (emit frame s).stream = s.stream := rfl
@[simp] theorem emit_plan (frame : Bytes) (s : State) : (emit frame s).plan = s.plan := rfl
@[simp] theorem emit_requests (frame : Bytes) (s : State) : (emit frame s).requests = s.requests := rfl
@[simp] theorem emit_keys (frame : Bytes) (s : State) : (emit frame s).keys = s.keys := rfl
@[simp] theorem emit_draws (frame : Bytes) (s : State) : (emit frame s).draws = s.draws := rfl
@[simp] theorem emit_host (frame : Bytes) (s : State) : (emit frame s).host = s.host := rfl
@[simp] theorem emit_emitted (frame : Bytes) (s : State) : (emit frame s).emitted = s.emitted ++ [frame] := rfl

/-! ## `resetBlock` -/

@[simp] theorem resetBlock_phase (s : State) : (resetBlock s).phase = .idle := rfl
@[simp] theorem resetBlock_hdr (s : State) : (resetBlock s).hdr = [] := rfl
@[simp] theorem resetBlock_opc (s : State) : (resetBlock s).opc = none := rfl
@[simp] theorem resetBlock_fin (s : State) : (resetBlock s).fin = none := rfl
@[simp] theorem resetBlock_msk (s : State) : (resetBlock s).msk = none := rfl
@[simp] theorem resetBlock_len7 (s : State) : (resetBlock s).len7 = none := rfl
@[simp] theorem resetBlock_len (s : State) : (resetBlock s).len = none := rfl
@[simp] theorem resetBlock_part (s : State) : (resetBlock s).part = [] := rfl
@[simp] theorem resetBlock_key (s : State) : (resetBlock s).key = none := rfl
@[simp] theorem resetBlock_buf (s : State) : (resetBlock s).buf = [] := rfl
@[simp] theorem resetBlock_rsp (s : State) : (resetBlock s).rsp = none := rfl
@[simp] theorem resetBlock_refused (s : State) : (resetBlock s).refused = s.refused := rfl
@[simp] theorem resetBlock_cfg (s : State) : (resetBlock s).cfg = s.cfg := rfl
@[simp] theorem resetBlock_stream (s : State) : (resetBlock s).stream = s.stream := rfl
@[simp] theorem resetBlock_plan (s : State) : (resetBlock s).plan = s.plan := rfl
@[simp] theorem resetBlock_requests (s : State) : (resetBlock s).requests = s.requests := rfl
@[simp] theorem resetBlock_keys (s : State) : (resetBlock s).keys = s.keys := rfl
@[simp] theorem resetBlock_draws (s : State) : (resetBlock s).draws = s.draws := rfl
@[simp] theorem resetBlock_host (s : State) : (resetBlock s).host = s.host := rfl
@[simp] theorem resetBlock_emitted (s : State) : (resetBlock s).emitted = s.emitted := rfl

/-! ## `powerOn` -/

@[simp] theorem powerOn_phase (s : State) : (powerOn s).phase = .idle := rfl
@[simp] theorem powerOn_hdr (s : State) : (powerOn s).hdr = [] := rfl
@[simp] theorem powerOn_opc (s : State) : (powerOn s).opc = none := rfl
@[simp] theorem powerOn_fin (s : State) : (powerOn s).fin = none := rfl
@[simp] theorem powerOn_msk (s : State) : (powerOn s).msk = none := rfl
@[simp] theorem powerOn_len7 (s : State) : (powerOn s).len7 = none := rfl
@[simp] theorem powerOn_len (s : State) : (powerOn s).len = none := rfl
@[simp] theorem powerOn_part (s : State) : (powerOn s).part = [] := rfl
@[simp] theorem powerOn_key (s : State) : (powerOn s).key = none := rfl
@[simp] theorem powerOn_buf (s : State) : (powerOn s).buf = [] := rfl
@[simp] theorem powerOn_rsp (s : State) : (powerOn s).rsp = none := rfl
@[simp] theorem powerOn_refused (s : State) : (powerOn s).refused = false := rfl
@[simp] theorem powerOn_cfg (s : State) : (powerOn s).cfg = s.cfg := rfl
@[simp] theorem powerOn_stream (s : State) : (powerOn s).stream = s.stream := rfl
@[simp] theorem powerOn_plan (s : State) : (powerOn s).plan = s.plan := rfl
@[simp] theorem powerOn_requests (s : State) : (powerOn s).requests = s.requests := rfl
@[simp] theorem powerOn_keys (s : State) : (powerOn s).keys = s.keys := rfl
@[simp] theorem powerOn_draws (s : State) : (powerOn s).draws = s.draws := rfl
@[simp] theorem powerOn_host (s : State) : (powerOn s).host = s.host := rfl
@[simp] theorem powerOn_emitted (s : State) : (powerOn s).emitted = s.emitted := rfl

end Sys2Proof.Machine
end

