-- ==== Sys2Proof/Laws/Ops.lean ====
section
/-! SUPPORT. What each shared operation can do, said once: later proofs cite these lemmas and unfold no operation. -/

namespace Sys2Proof.Machine

/-! ## Register reads -/

theorem readReg_some {α : Type} (r : DecReg) (a : α) (k : α → Result) : readReg r (some a) k = k a := rfl

theorem readReg_next {α : Type} {r : DecReg} {v : Option α} {k : α → Result} {t : State}
    (h : readReg r v k = .next t) : ∃ a, v = some a ∧ k a = .next t := by
  cases v with
  | none => cases h
  | some a => exact ⟨a, rfl, h⟩

theorem readReg_refused {α : Type} {r : DecReg} {v : Option α} {k : α → Result} {q : Refusal}
    (h : readReg r v k = .refused q) : ∃ a, v = some a ∧ k a = .refused q := by
  cases v with
  | none => cases h
  | some a => exact ⟨a, rfl, h⟩

/-! ## What stays as it was -/

/-- Everything outside the block's own registers is the same, and so is the mark. -/
structure SameOutside (s t : State) : Prop where
  cfg : t.cfg = s.cfg
  refused : t.refused = s.refused
  stream : t.stream = s.stream
  plan : t.plan = s.plan
  requests : t.requests = s.requests
  keys : t.keys = s.keys
  draws : t.draws = s.draws
  host : t.host = s.host
  emitted : t.emitted = s.emitted

theorem SameOutside.refl (s : State) : SameOutside s s := ⟨rfl, rfl, rfl, rfl, rfl, rfl, rfl, rfl, rfl⟩

theorem SameOutside.trans {s t u : State} (h : SameOutside s t) (g : SameOutside t u) : SameOutside s u :=
  ⟨g.cfg.trans h.cfg, g.refused.trans h.refused, g.stream.trans h.stream, g.plan.trans h.plan,
   g.requests.trans h.requests, g.keys.trans h.keys, g.draws.trans h.draws, g.host.trans h.host,
   g.emitted.trans h.emitted⟩

/-! ## The sequencer's moves -/

theorem finish_next (r : Rsp) (s : State) :
    finish r s = .next { dropDecode s with rsp := some r, phase := .idle } := rfl

/-- `complete` ends the command with the response of R186, or faults on a register that holds no value. -/
theorem complete_next {s t : State} (h : complete s = .next t) :
    ∃ op fin masked len, s.opc = some op ∧ s.fin = some fin ∧ s.msk = some masked ∧ s.len = some len ∧
      ((masked = true ∧ ∃ key, s.key = some key ∧
          t = { dropDecode s with
                rsp := some (decodeRsp op fin true len (some key) (maskBytes key s.buf)), phase := .idle }) ∨
       (masked = false ∧
          t = { dropDecode s with rsp := some (decodeRsp op fin false len none s.buf), phase := .idle })) := by
  unfold complete at h
  obtain ⟨op, hop, h⟩ := readReg_next h
  obtain ⟨fin, hfin, h⟩ := readReg_next h
  obtain ⟨masked, hm, h⟩ := readReg_next h
  obtain ⟨len, hl, h⟩ := readReg_next h
  refine ⟨op, fin, masked, len, hop, hfin, hm, hl, ?_⟩
  cases masked with
  | true =>
    obtain ⟨key, hk, h⟩ := readReg_next h
    exact .inl ⟨rfl, key, hk, (Host.Outcome.next.inj h).symm⟩
  | false => exact .inr ⟨rfl, (Host.Outcome.next.inj h).symm⟩

theorem complete_unmasked {s : State} {op : Opcode} {fin : Bool} {len : Word} (hop : s.opc = some op)
    (hfin : s.fin = some fin) (hm : s.msk = some false) (hl : s.len = some len) :
    complete s = .next { dropDecode s with
      rsp := some (decodeRsp op fin false len none s.buf), phase := .idle } := by
  simp [complete, hop, hfin, hm, hl, readReg, finish]

theorem complete_masked {s : State} {op : Opcode} {fin : Bool} {len : Word} {key : Key}
    (hop : s.opc = some op) (hfin : s.fin = some fin) (hm : s.msk = some true) (hl : s.len = some len)
    (hk : s.key = some key) :
    complete s = .next { dropDecode s with
      rsp := some (decodeRsp op fin true len (some key) (maskBytes key s.buf)), phase := .idle } := by
  simp [complete, hop, hfin, hm, hl, hk, readReg, finish]

theorem complete_not_refused {s : State} {q : Refusal} : complete s ≠ .refused q := by
  intro h
  unfold complete at h
  obtain ⟨op, hop, h⟩ := readReg_refused h
  obtain ⟨fin, hfin, h⟩ := readReg_refused h
  obtain ⟨masked, hm, h⟩ := readReg_refused h
  obtain ⟨len, hl, h⟩ := readReg_refused h
  cases masked with
  | true => obtain ⟨key, hk, h⟩ := readReg_refused h; cases h
  | false => cases h

theorem complete_same {s t : State} (h : complete s = .next t) : SameOutside s t := by
  obtain ⟨_, _, _, _, -, -, -, -, ⟨-, _, -, rfl⟩ | ⟨-, rfl⟩⟩ := complete_next h <;>
    exact ⟨rfl, rfl, rfl, rfl, rfl, rfl, rfl, rfl, rfl⟩

/-- `enterPayload` completes an empty frame, and goes to D_PAY otherwise (R182, R189). -/
theorem enterPayload_next {s t : State} (h : enterPayload s = .next t) :
    ∃ len, s.len = some len ∧ ((len = 0#32 ∧ complete s = .next t) ∨ (len ≠ 0#32 ∧ t = { s with phase := .dPay })) := by
  unfold enterPayload at h
  obtain ⟨len, hl, h⟩ := readReg_next h
  refine ⟨len, hl, ?_⟩
  by_cases h0 : len = 0#32
  · rw [if_pos h0] at h; exact .inl ⟨h0, h⟩
  · rw [if_neg h0] at h; exact .inr ⟨h0, (Host.Outcome.next.inj h).symm⟩

theorem enterPayload_not_refused {s : State} {q : Refusal} : enterPayload s ≠ .refused q := by
  intro h
  unfold enterPayload at h
  obtain ⟨len, hl, h⟩ := readReg_refused h
  by_cases h0 : len = 0#32
  · rw [if_pos h0] at h; exact complete_not_refused h
  · rw [if_neg h0] at h; cases h

theorem enterPayload_same {s t : State} (h : enterPayload s = .next t) : SameOutside s t := by
  obtain ⟨_, -, ⟨-, h⟩ | ⟨-, rfl⟩⟩ := enterPayload_next h
  · exact complete_same h
  · exact ⟨rfl, rfl, rfl, rfl, rfl, rfl, rfl, rfl, rfl⟩

/-- `afterLength` goes to D_KEY for a masked frame, and on to the payload otherwise (R182). -/
theorem afterLength_next {s t : State} (h : afterLength s = .next t) :
    (s.msk = some true ∧ t = { s with phase := .dKey }) ∨ (s.msk = some false ∧ enterPayload s = .next t) := by
  unfold afterLength at h
  obtain ⟨masked, hm, h⟩ := readReg_next h
  cases masked with
  | true => exact .inl ⟨hm, (Host.Outcome.next.inj h).symm⟩
  | false => exact .inr ⟨hm, h⟩

theorem afterLength_not_refused {s : State} {q : Refusal} : afterLength s ≠ .refused q := by
  intro h
  unfold afterLength at h
  obtain ⟨masked, hm, h⟩ := readReg_refused h
  cases masked with
  | true => cases h
  | false => exact enterPayload_not_refused h

theorem afterLength_same {s t : State} (h : afterLength s = .next t) : SameOutside s t := by
  obtain ⟨-, rfl⟩ | ⟨-, h⟩ := afterLength_next h
  · exact ⟨rfl, rfl, rfl, rfl, rfl, rfl, rfl, rfl, rfl⟩
  · exact enterPayload_same h

/-- `setLength` stores a supported length and goes on; it refuses any other (R188). -/
theorem setLength_next {n : Nat} {s t : State} (h : setLength n s = .next t) :
    n ≤ s.cfg.payloadMax.toNat ∧ afterLength { s with len := some (BitVec.ofNat 32 n) } = .next t := by
  unfold setLength at h
  by_cases hn : lenSupported s.cfg n = true
  · rw [if_pos hn] at h; exact ⟨by simpa [lenSupported] using hn, h⟩
  · rw [if_neg hn] at h; cases h

theorem setLength_refused {n : Nat} {s : State} {q : Refusal} (h : setLength n s = .refused q) :
    s.cfg.payloadMax.toNat < n ∧ q = .lengthUnsupported { s with refused := true } := by
  unfold setLength at h
  by_cases hn : lenSupported s.cfg n = true
  · rw [if_pos hn] at h; exact absurd h afterLength_not_refused
  · rw [if_neg hn] at h
    exact ⟨by simpa [lenSupported] using hn, (Host.Outcome.refused.inj h).symm⟩

theorem setLength_supported {n : Nat} {s : State} (h : n ≤ s.cfg.payloadMax.toNat) :
    setLength n s = afterLength { s with len := some (BitVec.ofNat 32 n) } := by
  simp [setLength, lenSupported, h]

theorem setLength_unsupported {n : Nat} {s : State} (h : s.cfg.payloadMax.toNat < n) :
    setLength n s = .refused (.lengthUnsupported { s with refused := true }) := by
  simp [setLength, lenSupported, Nat.not_le.mpr h, refuse]

theorem setLength_same {n : Nat} {s t : State} (h : setLength n s = .next t) : SameOutside s t :=
  SameOutside.trans (t := { s with len := some (BitVec.ofNat 32 n) })
    ⟨rfl, rfl, rfl, rfl, rfl, rfl, rfl, rfl, rfl⟩ (afterLength_same (setLength_next h).2)

/-- The header step latches its fields and goes to D_EXT or sets an inline length (R182). -/
theorem runHeader_next {op : Opcode} {fin masked : Bool} {len7 : Len7} {s t : State}
    (h : runHeader op fin masked len7 s = .next t) :
    (extSize len7 ≠ 0 ∧ t = { latchHeader op fin masked len7 s with phase := .dExt }) ∨
    (extSize len7 = 0 ∧ setLength len7.toNat (latchHeader op fin masked len7 s) = .next t) := by
  unfold runHeader at h
  obtain ⟨hl, h0⟩ | ⟨hl, h0⟩ | ⟨hl, h0⟩ := extSize_cases len7
  · rw [if_pos h0, lenDec_inline hl] at h; exact .inr ⟨h0, h⟩
  all_goals
    rw [if_neg (by omega)] at h
    exact .inl ⟨by omega, (Host.Outcome.next.inj h).symm⟩

theorem runHeader_refused {op : Opcode} {fin masked : Bool} {len7 : Len7} {s : State} {q : Refusal}
    (h : runHeader op fin masked len7 s = .refused q) :
    len7.toNat ≤ 125 ∧ s.cfg.payloadMax.toNat < len7.toNat ∧
      q = .lengthUnsupported { latchHeader op fin masked len7 s with refused := true } := by
  unfold runHeader at h
  obtain ⟨hl, h0⟩ | ⟨hl, h0⟩ | ⟨hl, h0⟩ := extSize_cases len7
  · rw [if_pos h0, lenDec_inline hl] at h
    exact ⟨hl, setLength_refused h⟩
  all_goals rw [if_neg (by omega)] at h; cases h

theorem runHeader_same {op : Opcode} {fin masked : Bool} {len7 : Len7} {s t : State}
    (h : runHeader op fin masked len7 s = .next t) : SameOutside s t := by
  obtain ⟨-, rfl⟩ | ⟨-, h⟩ := runHeader_next h
  · exact ⟨rfl, rfl, rfl, rfl, rfl, rfl, rfl, rfl, rfl⟩
  · exact SameOutside.trans (t := latchHeader op fin masked len7 s)
      ⟨rfl, rfl, rfl, rfl, rfl, rfl, rfl, rfl, rfl⟩ (setLength_same h)

/-! ## Raising an error -/

theorem raiseError_propagate {e : FrameError} {s : State} (h : s.cfg.failureMode = .propagate) :
    raiseError e s = .next { dropDecode s with rsp := some (errorRsp e), phase := .idle } := by
  simp [raiseError, h]

theorem raiseError_observe {e : FrameError} {s : State} (h : s.cfg.failureMode = .observe) :
    raiseError e s = .refused (.observeMode { s with refused := true }) := by
  simp [raiseError, h, refuse]

theorem raiseError_next {e : FrameError} {s t : State} (h : raiseError e s = .next t) :
    t = { dropDecode s with rsp := some (errorRsp e), phase := .idle } := by
  cases hm : s.cfg.failureMode with
  | propagate => rw [raiseError_propagate hm] at h; exact (Host.Outcome.next.inj h).symm
  | observe => rw [raiseError_observe hm] at h; cases h

theorem raiseError_refused {e : FrameError} {s : State} {q : Refusal} (h : raiseError e s = .refused q) :
    s.cfg.failureMode = .observe ∧ q = .observeMode { s with refused := true } := by
  cases hm : s.cfg.failureMode with
  | propagate => rw [raiseError_propagate hm] at h; cases h
  | observe => rw [raiseError_observe hm] at h; exact ⟨rfl, (Host.Outcome.refused.inj h).symm⟩

theorem raiseError_not_fault {e : FrameError} {s : State} {f : Fault} : raiseError e s ≠ .fault f := by
  unfold raiseError refuse; split <;> simp

/-! ## The stream -/

theorem streamRead_data {n : Nat} {s s' : State} {b : Bytes} (h : streamRead n s = .data b s') :
    1 ≤ n ∧ ∃ p m, m ≤ n ∧ b = s.stream.take m ∧
      s' = { s with plan := p, stream := s.stream.drop m, requests := s.requests ++ [n] } := by
  unfold streamRead answerData at h
  split at h
  · cases h
  · refine ⟨by omega, ?_⟩
    split at h <;> cases h
    · exact ⟨.whole, _, Nat.min_le_right _ _, rfl, by simp [*]⟩
    · exact ⟨_, _, Nat.min_le_right _ _, rfl, rfl⟩

theorem streamRead_err {n : Nat} {s s' : State} (h : streamRead n s = .err s') :
    1 ≤ n ∧ ∃ p, s' = { s with plan := p, requests := s.requests ++ [n] } := by
  unfold streamRead answerData at h
  split at h
  · cases h
  · refine ⟨by omega, ?_⟩
    split at h <;> cases h
    exact ⟨_, rfl⟩

theorem streamRead_held {n : Nat} {s s' : State} (h : streamRead n s = .held s') :
    1 ≤ n ∧ ((s.plan = .chunked [] ∧ s' = s) ∨ ∃ c, s.plan = .chunked (.late :: c) ∧ s' = { s with plan := .chunked c }) := by
  unfold streamRead answerData at h
  split at h
  · cases h
  · refine ⟨by omega, ?_⟩
    split at h <;> cases h
    · exact .inl ⟨‹_›, rfl⟩
    · exact .inr ⟨_, ‹_›, rfl⟩

theorem streamRead_noRequest {n : Nat} {s : State} (h : streamRead n s = .noRequest) : n = 0 := by
  unfold streamRead answerData at h
  split at h
  · assumption
  · split at h <;> cases h

theorem streamRead_whole {n : Nat} {s : State} (hn : 1 ≤ n) (h : s.plan = .whole) :
    streamRead n s = .data (s.stream.take n)
      { s with stream := s.stream.drop n, requests := s.requests ++ [n] } := by
  simp [streamRead, h, answerData, Nat.ne_of_gt hn]

/-- What a read of the stream, of whatever outcome, can change: it consumes `m` bytes of an answer to one request. -/
structure ReadStep (s t : State) : Prop where
  cfg : t.cfg = s.cfg
  refused : t.refused = s.refused
  keys : t.keys = s.keys
  draws : t.draws = s.draws
  host : t.host = s.host
  emitted : t.emitted = s.emitted
  phase : t.phase = s.phase
  rsp : t.rsp = s.rsp
  consumed : ∃ c, s.stream = c ++ t.stream ∧
    ((t.requests = s.requests ∧ c = []) ∨ ∃ n, 1 ≤ n ∧ c.length ≤ n ∧ t.requests = s.requests ++ [n])

theorem ReadStep.ofHeld {n : Nat} {s s' : State} (h : streamRead n s = .held s') : ReadStep s s' := by
  obtain ⟨-, ⟨-, rfl⟩ | ⟨_, -, rfl⟩⟩ := streamRead_held h <;>
    exact ⟨rfl, rfl, rfl, rfl, rfl, rfl, rfl, rfl, [], rfl, .inl ⟨rfl, rfl⟩⟩

theorem ReadStep.ofErr {n : Nat} {s s' : State} (h : streamRead n s = .err s') : ReadStep s s' := by
  obtain ⟨hn, _, rfl⟩ := streamRead_err h
  exact ⟨rfl, rfl, rfl, rfl, rfl, rfl, rfl, rfl, [], rfl, .inr ⟨n, hn, by simp, rfl⟩⟩

theorem ReadStep.ofData {n : Nat} {b : Bytes} {s s' : State} (h : streamRead n s = .data b s') : ReadStep s s' := by
  obtain ⟨hn, _, m, hm, -, rfl⟩ := streamRead_data h
  exact ⟨rfl, rfl, rfl, rfl, rfl, rfl, rfl, rfl, s.stream.take m, by simp,
    .inr ⟨n, hn, by simp; omega, rfl⟩⟩

/-! ## Reading a header part -/

/-- The part has arrived: what was collected before and the front of the stream make up its `n` bytes. -/
theorem readPart_got {n : Nat} {s s' : State} {b : Bytes} (hp : PartUnder n s) (h : readPart n s = .got b s') :
    b.length = n ∧ ∃ p m, b = s.part ++ s.stream.take m ∧
      s' = { s with plan := p, stream := s.stream.drop m, part := [], requests := s.requests ++ [n - s.part.length] } := by
  cases hc : s.cfg.hdrRead with
  | singleShot =>
    have hpart := hp.2 hc
    simp only [readPart, hc, readPartOnce] at h
    split at h <;> try cases h
    rename_i b' s'' hr
    obtain ⟨hn, p, m, hm, rfl, rfl⟩ := streamRead_data hr
    split at h <;> cases h
    have : (List.take m s.stream).length ≤ m := by simp
    exact ⟨by omega, p, m, by simp [hpart], by simp [hpart]⟩
  | loop =>
    simp only [readPart, hc, readPartLoop] at h
    split at h <;> try cases h
    rename_i x xs s'' hr
    obtain ⟨hn, p, m, hm, hb, rfl⟩ := streamRead_data hr
    split at h <;> cases h
    have : (List.take m s.stream).length ≤ m := by simp
    rw [← hb] at this
    have := hp.1
    refine ⟨?_, p, m, by rw [← hb], rfl⟩
    simp only [List.length_append, List.length_cons] at *
    omega

/-- The block stays in the phase: it is held, or LOOP has collected more of the part. -/
theorem readPart_stay {n : Nat} {s s' : State} (hp : PartUnder n s) (h : readPart n s = .stay s') :
    (∃ p, s' = { s with plan := p }) ∨
    (s.cfg.hdrRead = .loop ∧ ∃ p m, s.stream.take m ≠ [] ∧ (s.part ++ s.stream.take m).length < n ∧
      s' = { s with plan := p, stream := s.stream.drop m, part := s.part ++ s.stream.take m,
                    requests := s.requests ++ [n - s.part.length] }) := by
  cases hc : s.cfg.hdrRead with
  | singleShot =>
    simp only [readPart, hc, readPartOnce] at h
    split at h <;> try cases h
    · rename_i hr
      obtain ⟨-, ⟨-, rfl⟩ | ⟨c, -, rfl⟩⟩ := streamRead_held hr
      · exact .inl ⟨_, rfl⟩
      · exact .inl ⟨_, rfl⟩
    · split at h <;> cases h
  | loop =>
    simp only [readPart, hc, readPartLoop] at h
    split at h <;> try cases h
    · rename_i hr
      obtain ⟨-, ⟨-, rfl⟩ | ⟨c, -, rfl⟩⟩ := streamRead_held hr
      · exact .inl ⟨_, rfl⟩
      · exact .inl ⟨_, rfl⟩
    · rename_i x xs s'' hr
      obtain ⟨hn, p, m, hm, hb, rfl⟩ := streamRead_data hr
      split at h <;> cases h
      exact .inr ⟨rfl, p, m, by rw [← hb]; simp, by rw [← hb]; assumption, by rw [← hb]⟩

/-- The read has failed: what its answer brought is consumed. -/
theorem readPart_failed {n : Nat} {s s' : State} (h : readPart n s = .failed s') :
    ∃ p m r, 1 ≤ r ∧ m ≤ r ∧ s' = { s with plan := p, stream := s.stream.drop m, requests := s.requests ++ [r] } := by
  cases hc : s.cfg.hdrRead with
  | singleShot =>
    simp only [readPart, hc, readPartOnce] at h
    split at h <;> try cases h
    · rename_i hr
      obtain ⟨hn, p, rfl⟩ := streamRead_err hr
      exact ⟨p, 0, n, hn, by omega, rfl⟩
    · rename_i b' s'' hr
      obtain ⟨hn, p, m, hm, rfl, rfl⟩ := streamRead_data hr
      split at h <;> cases h
      exact ⟨p, m, n, hn, hm, rfl⟩
  | loop =>
    simp only [readPart, hc, readPartLoop] at h
    split at h <;> try cases h
    · rename_i hr
      obtain ⟨hn, p, rfl⟩ := streamRead_err hr
      exact ⟨p, 0, _, hn, by omega, rfl⟩
    · rename_i hr
      obtain ⟨hn, p, m, hm, -, rfl⟩ := streamRead_data hr
      exact ⟨p, m, _, hn, hm, rfl⟩
    · split at h <;> cases h

theorem readPart_request {n : Nat} {s : State} (hp : PartUnder n s) : readPart n s ≠ .noRequest := by
  intro h
  cases hc : s.cfg.hdrRead with
  | singleShot =>
    simp only [readPart, hc, readPartOnce] at h
    split at h <;> try cases h
    · rename_i hr; have := streamRead_noRequest hr; have := hp.1; omega
    · split at h <;> cases h
  | loop =>
    simp only [readPart, hc, readPartLoop] at h
    split at h <;> try cases h
    · rename_i hr; have := streamRead_noRequest hr; have := hp.1; omega
    · split at h <;> cases h

/-- Whatever the outcome of a part read, it changes what a `ReadStep` changes. -/
theorem readPart_readStep {n : Nat} {s s' : State}
    (h : readPart n s = .stay s' ∨ readPart n s = .failed s' ∨ ∃ b, readPart n s = .got b s') : ReadStep s s' := by
  cases hc : s.cfg.hdrRead with
  | singleShot =>
    simp only [readPart, hc, readPartOnce] at h
    cases hr : streamRead n s with
    | held s1 => simp [hr] at h; exact h ▸ ReadStep.ofHeld hr
    | err s1 => simp [hr] at h; exact h ▸ ReadStep.ofErr hr
    | noRequest => simp [hr] at h
    | data b s1 =>
      simp only [hr] at h
      split at h <;> simp at h <;> exact h ▸ ReadStep.ofData hr
  | loop =>
    simp only [readPart, hc, readPartLoop] at h
    cases hr : streamRead (n - s.part.length) s with
    | held s1 => simp [hr] at h; exact h ▸ ReadStep.ofHeld hr
    | err s1 => simp [hr] at h; exact h ▸ ReadStep.ofErr hr
    | noRequest => simp [hr] at h
    | data b s1 =>
      have hs := ReadStep.ofData hr
      cases b with
      | nil => simp [hr] at h; exact h ▸ hs
      | cons x xs =>
        simp only [hr] at h
        split at h <;> simp at h <;> subst h <;>
          exact ⟨hs.cfg, hs.refused, hs.keys, hs.draws, hs.host, hs.emitted, hs.phase, hs.rsp, hs.consumed⟩

/-! ## The payload step -/

/-- D_PAY: held; failed; or the answer is appended, and the frame completes when the last byte has come (R185). -/
theorem payloadStep_next {s t : State} (h : payloadStep s = .next t) :
    ∃ len, s.len = some len ∧ ∃ s', ReadStep s s' ∧
      ((streamRead (len.toNat - s.buf.length) s = .held s' ∧ t = s') ∨
       ((streamRead (len.toNat - s.buf.length) s = .err s' ∨ streamRead (len.toNat - s.buf.length) s = .data [] s') ∧
          raiseError .payload s' = .next t) ∨
       ∃ b, b ≠ [] ∧ streamRead (len.toNat - s.buf.length) s = .data b s' ∧
        ((s'.buf.length + b.length = len.toNat ∧ complete { s' with buf := s'.buf ++ b } = .next t) ∨
         (s'.buf.length + b.length ≠ len.toNat ∧ t = { s' with buf := s'.buf ++ b }))) := by
  unfold payloadStep at h
  obtain ⟨len, hl, h⟩ := readReg_next h
  refine ⟨len, hl, ?_⟩
  split at h
  · rename_i s' hr
    exact ⟨s', ReadStep.ofHeld hr, .inl ⟨hr, (Host.Outcome.next.inj h).symm⟩⟩
  · rename_i s' hr
    exact ⟨s', ReadStep.ofErr hr, .inr (.inl ⟨.inl hr, h⟩)⟩
  · cases h
  · rename_i s' hr
    exact ⟨s', ReadStep.ofData hr, .inr (.inl ⟨.inr hr, h⟩)⟩
  · rename_i x xs s' hr
    refine ⟨s', ReadStep.ofData hr, .inr (.inr ⟨x :: xs, by simp, hr, ?_⟩)⟩
    unfold afterPayload at h
    split at h
    · rename_i hlen
      exact .inl ⟨by simpa using hlen, h⟩
    · rename_i hlen
      exact .inr ⟨by simpa using hlen, (Host.Outcome.next.inj h).symm⟩

theorem payloadStep_refused {s : State} {q : Refusal} (h : payloadStep s = .refused q) :
    ∃ s', ReadStep s s' ∧ s'.cfg.failureMode = .observe ∧ q = .observeMode { s' with refused := true } := by
  unfold payloadStep at h
  obtain ⟨len, hl, h⟩ := readReg_refused h
  split at h
  · cases h
  · rename_i s' hr; exact ⟨s', ReadStep.ofErr hr, raiseError_refused h⟩
  · cases h
  · rename_i s' hr; exact ⟨s', ReadStep.ofData hr, raiseError_refused h⟩
  · unfold afterPayload at h
    split at h
    · exact absurd h complete_not_refused
    · cases h

/-! ## ENCODE -/

theorem runEncode_next (op : Opcode) (final : Bool) (payload : Bytes) (s : State) :
    runEncode op final payload s = .next { emit (encodedFrame op final payload (nextKey s)) (drawn s) with
      rsp := some (encodeRsp (encodedFrame op final payload (nextKey s))) } := rfl

end Sys2Proof.Machine
end

