-- ==== Sys2Proof/Laws/PerInstr.lean ====
section
/-! SUPPORT. Decoding and encoding: how the encoder's words are taken apart again, and the family RoundTrip with one lemma
for each constructor of Instr. -/

namespace Sys2Proof

/-! ## Fields of a word that is put together -/

theorem extract_low {n m : Nat} (x : BitVec n) (y : BitVec m) : (x ++ y).extractLsb' 0 m = y := by
  ext i hi; simp [BitVec.getLsbD_append, hi]

theorem extract_high {n m : Nat} (x : BitVec n) (y : BitVec m) : (x ++ y).extractLsb' m n = x := by
  ext i hi; simp [BitVec.getLsbD_append, hi]

theorem extract_above {n m : Nat} (x : BitVec n) (y : BitVec m) (k l : Nat) (h : m ≤ k) :
    (x ++ y).extractLsb' k l = x.extractLsb' (k - m) l := by
  ext i hi
  simp [BitVec.getLsbD_append, show ¬ (k + i < m) by omega, show k + i - m = k - m + i by omega]

theorem bit_of_extract {n : Nat} {x : BitVec n} {k : Nat} {b : Bool} (h : x.extractLsb' k 1 = BitVec.ofBool b) :
    x.getLsbD k = b := by
  simpa using congrArg (fun v => v.getLsbD 0) h

theorem cmdReserved_append (r : BitVec 25) (l : BitVec 7) : cmdReserved (r ++ l) = r := extract_high r l

theorem cmdLow_append (r : BitVec 25) (l : BitVec 7) : cmdLow (r ++ l) = l := extract_low r l

theorem cmdReserved_append3 (r : BitVec 25) (f : BitVec 5) (c : BitVec 2) : cmdReserved (r ++ f ++ c) = r :=
  (extract_above _ c 7 25 (by omega)).trans (extract_high r f)

theorem cmdFields_append3 (r : BitVec 25) (f : BitVec 5) (c : BitVec 2) : cmdFields (r ++ f ++ c) = f :=
  (extract_above _ c 2 5 (by omega)).trans (extract_low r f)

theorem cmdOf_append3 (r : BitVec 25) (f : BitVec 5) (c : BitVec 2) : cmdOf (r ++ f ++ c) = c := extract_low _ c

theorem cmdReserved_cmdWord (r : BitVec 25) (f : Bool) (o : Opcode) (c : BitVec 2) : cmdReserved (cmdWord r f o c) = r :=
  ((extract_above _ c 7 25 (by omega)).trans (extract_above _ o 5 25 (by omega))).trans (extract_high r _)

theorem cmdOf_cmdWord (r : BitVec 25) (f : Bool) (o : Opcode) (c : BitVec 2) : cmdOf (cmdWord r f o c) = c :=
  extract_low _ c

theorem cmdOp_cmdWord (r : BitVec 25) (f : Bool) (o : Opcode) (c : BitVec 2) : cmdOp (cmdWord r f o c) = o :=
  (extract_above _ c 2 4 (by omega)).trans (extract_low _ o)

theorem cmdFin_cmdWord (r : BitVec 25) (f : Bool) (o : Opcode) (c : BitVec 2) : cmdFin (cmdWord r f o c) = f :=
  bit_of_extract
    (((extract_above _ c 6 1 (by omega)).trans (extract_above _ o 4 1 (by omega))).trans (extract_low r _))

theorem decodeHeader_of_fields (op : Opcode) (fin : Bool) (rsv : BitVec 3) (masked : Bool) (len7 : Len7) :
    decodeHeader (BitVec.ofBool fin ++ rsv ++ op) (BitVec.ofBool masked ++ len7) = frameRow op fin rsv masked len7 := by
  have h1 : hdrOpc (BitVec.ofBool fin ++ rsv ++ op) = op := extract_low _ op
  have h2 : hdrFin (BitVec.ofBool fin ++ rsv ++ op) = fin :=
    bit_of_extract ((extract_above _ op 7 1 (by omega)).trans (extract_high _ rsv))
  have h3 : hdrRsv (BitVec.ofBool fin ++ rsv ++ op) = rsv :=
    (extract_above _ op 4 3 (by omega)).trans (extract_low _ rsv)
  have h4 : hdrMsk (BitVec.ofBool masked ++ len7) = masked := bit_of_extract (extract_high _ len7)
  have h5 : hdrLen7 (BitVec.ofBool masked ++ len7) = len7 := extract_low _ len7
  rw [decodeHeader, h1, h2, h3, h4, h5]

/-! ## The family RoundTrip -/

/-- The words of a well-formed instruction decode to it, under the name of its row. -/
def Laws.RoundTrip.Statement (i : Instr) : Prop :=
  ∀ pmax : Word, i.wf pmax = true → Sys2Proof.decode pmax (Sys2Proof.encode i) = .ok i.canon

theorem Laws.RoundTrip.encode (op : Opcode) (final : Bool) (p : Bytes) :
    Laws.RoundTrip.Statement (.encode op final p) := by
  intro pmax h
  simp only [Instr.wf] at h
  simp [Sys2Proof.encode, Sys2Proof.decode, decodeCmd, cmdReserved_cmdWord, cmdOf_cmdWord, cmdOp_cmdWord,
    cmdFin_cmdWord, h, Instr.canon]

theorem Laws.RoundTrip.decode : Laws.RoundTrip.Statement .decode := by
  intro pmax _; rfl

theorem Laws.RoundTrip.reservedCmd2 (f : BitVec 5) (p : Bytes) : Laws.RoundTrip.Statement (.reservedCmd2 f p) := by
  intro pmax _
  simp [Sys2Proof.encode, Sys2Proof.decode, decodeCmd, cmdReserved_append3, cmdOf_append3, cmdFields_append3,
    Instr.canon]

theorem Laws.RoundTrip.reservedCmd3 (f : BitVec 5) (p : Bytes) : Laws.RoundTrip.Statement (.reservedCmd3 f p) := by
  intro pmax _
  simp [Sys2Proof.encode, Sys2Proof.decode, decodeCmd, cmdReserved_append3, cmdOf_append3, cmdFields_append3,
    Instr.canon]

theorem Laws.RoundTrip.reservedDecodeFields (f : BitVec 5) (p : Bytes) :
    Laws.RoundTrip.Statement (.reservedDecodeFields f p) := by
  intro pmax h
  have h' : f ≠ 0#5 ∨ p ≠ [] := by simpa [Instr.wf] using h
  simp only [Sys2Proof.encode, Sys2Proof.decode, decodeCmd, cmdReserved_append3, cmdOf_append3, cmdFields_append3,
    Instr.canon, if_pos h']
  rfl

theorem Laws.RoundTrip.reservedHighBits (h : BitVec 25) (l : BitVec 7) (p : Bytes) :
    Laws.RoundTrip.Statement (.reservedHighBits h l p) := by
  intro pmax hw
  have h' : h ≠ 0#25 := by simpa [Instr.wf] using hw
  simp [Sys2Proof.encode, Sys2Proof.decode, decodeCmd, cmdReserved_append, cmdLow_append, Instr.canon, h']

theorem Laws.RoundTrip.frameCont (fin : Bool) (rsv : BitVec 3) (masked : Bool) (len7 : Len7) :
    Laws.RoundTrip.Statement (.frameCont fin rsv masked len7) :=
  fun _ _ => congrArg Decoded.ok (decodeHeader_of_fields 0#4 fin rsv masked len7)

theorem Laws.RoundTrip.frameText (fin : Bool) (rsv : BitVec 3) (masked : Bool) (len7 : Len7) :
    Laws.RoundTrip.Statement (.frameText fin rsv masked len7) :=
  fun _ _ => congrArg Decoded.ok (decodeHeader_of_fields 1#4 fin rsv masked len7)

theorem Laws.RoundTrip.frameBin (fin : Bool) (rsv : BitVec 3) (masked : Bool) (len7 : Len7) :
    Laws.RoundTrip.Statement (.frameBin fin rsv masked len7) :=
  fun _ _ => congrArg Decoded.ok (decodeHeader_of_fields 2#4 fin rsv masked len7)

theorem Laws.RoundTrip.frameClose (fin : Bool) (rsv : BitVec 3) (masked : Bool) (len7 : Len7) :
    Laws.RoundTrip.Statement (.frameClose fin rsv masked len7) :=
  fun _ _ => congrArg Decoded.ok (decodeHeader_of_fields 8#4 fin rsv masked len7)

theorem Laws.RoundTrip.framePing (fin : Bool) (rsv : BitVec 3) (masked : Bool) (len7 : Len7) :
    Laws.RoundTrip.Statement (.framePing fin rsv masked len7) :=
  fun _ _ => congrArg Decoded.ok (decodeHeader_of_fields 9#4 fin rsv masked len7)

theorem Laws.RoundTrip.framePong (fin : Bool) (rsv : BitVec 3) (masked : Bool) (len7 : Len7) :
    Laws.RoundTrip.Statement (.framePong fin rsv masked len7) :=
  fun _ _ => congrArg Decoded.ok (decodeHeader_of_fields 10#4 fin rsv masked len7)

theorem Laws.RoundTrip.frameRsvd3 (fin : Bool) (rsv : BitVec 3) (masked : Bool) (len7 : Len7) :
    Laws.RoundTrip.Statement (.frameRsvd3 fin rsv masked len7) :=
  fun _ _ => congrArg Decoded.ok (decodeHeader_of_fields 3#4 fin rsv masked len7)

theorem Laws.RoundTrip.frameRsvd4 (fin : Bool) (rsv : BitVec 3) (masked : Bool) (len7 : Len7) :
    Laws.RoundTrip.Statement (.frameRsvd4 fin rsv masked len7) :=
  fun _ _ => congrArg Decoded.ok (decodeHeader_of_fields 4#4 fin rsv masked len7)

theorem Laws.RoundTrip.frameRsvd5 (fin : Bool) (rsv : BitVec 3) (masked : Bool) (len7 : Len7) :
    Laws.RoundTrip.Statement (.frameRsvd5 fin rsv masked len7) :=
  fun _ _ => congrArg Decoded.ok (decodeHeader_of_fields 5#4 fin rsv masked len7)

theorem Laws.RoundTrip.frameRsvd6 (fin : Bool) (rsv : BitVec 3) (masked : Bool) (len7 : Len7) :
    Laws.RoundTrip.Statement (.frameRsvd6 fin rsv masked len7) :=
  fun _ _ => congrArg Decoded.ok (decodeHeader_of_fields 6#4 fin rsv masked len7)

theorem Laws.RoundTrip.frameRsvd7 (fin : Bool) (rsv : BitVec 3) (masked : Bool) (len7 : Len7) :
    Laws.RoundTrip.Statement (.frameRsvd7 fin rsv masked len7) :=
  fun _ _ => congrArg Decoded.ok (decodeHeader_of_fields 7#4 fin rsv masked len7)

theorem Laws.RoundTrip.frameRsvdB (fin : Bool) (rsv : BitVec 3) (masked : Bool) (len7 : Len7) :
    Laws.RoundTrip.Statement (.frameRsvdB fin rsv masked len7) :=
  fun _ _ => congrArg Decoded.ok (decodeHeader_of_fields 11#4 fin rsv masked len7)

theorem Laws.RoundTrip.frameRsvdC (fin : Bool) (rsv : BitVec 3) (masked : Bool) (len7 : Len7) :
    Laws.RoundTrip.Statement (.frameRsvdC fin rsv masked len7) :=
  fun _ _ => congrArg Decoded.ok (decodeHeader_of_fields 12#4 fin rsv masked len7)

theorem Laws.RoundTrip.frameRsvdD (fin : Bool) (rsv : BitVec 3) (masked : Bool) (len7 : Len7) :
    Laws.RoundTrip.Statement (.frameRsvdD fin rsv masked len7) :=
  fun _ _ => congrArg Decoded.ok (decodeHeader_of_fields 13#4 fin rsv masked len7)

theorem Laws.RoundTrip.frameRsvdE (fin : Bool) (rsv : BitVec 3) (masked : Bool) (len7 : Len7) :
    Laws.RoundTrip.Statement (.frameRsvdE fin rsv masked len7) :=
  fun _ _ => congrArg Decoded.ok (decodeHeader_of_fields 14#4 fin rsv masked len7)

theorem Laws.RoundTrip.frameRsvdF (fin : Bool) (rsv : BitVec 3) (masked : Bool) (len7 : Len7) :
    Laws.RoundTrip.Statement (.frameRsvdF fin rsv masked len7) :=
  fun _ _ => congrArg Decoded.ok (decodeHeader_of_fields 15#4 fin rsv masked len7)

theorem Laws.RoundTrip.lenInline (l : Len7) : Laws.RoundTrip.Statement (.lenInline l) := by
  intro pmax h
  have h' : l.toNat ≤ 125 := by simpa [Instr.wf] using h
  simp [Sys2Proof.encode, Sys2Proof.decode, decodeLength, extSize, Instr.canon, h']

theorem Laws.RoundTrip.lenExt16 (e : Bytes) : Laws.RoundTrip.Statement (.lenExt16 e) := by
  intro pmax h
  have h' : e.length = 2 := by simpa [Instr.wf] using h
  simp [Sys2Proof.encode, Sys2Proof.decode, decodeLength, extSize, Instr.canon, h']

theorem Laws.RoundTrip.lenExt64 (e : Bytes) : Laws.RoundTrip.Statement (.lenExt64 e) := by
  intro pmax h
  have h' : e.length = 8 := by simpa [Instr.wf] using h
  simp [Sys2Proof.encode, Sys2Proof.decode, decodeLength, extSize, Instr.canon, h']

theorem Laws.RoundTrip.maskOff : Laws.RoundTrip.Statement .maskOff := fun _ _ => rfl

theorem Laws.RoundTrip.maskOn (k : Key) : Laws.RoundTrip.Statement (.maskOn k) := fun _ _ => rfl

theorem Laws.RoundTrip.pong : Laws.RoundTrip.Statement .pong := by
  intro pmax _
  simp [Sys2Proof.encode, Sys2Proof.decode, decodeCmd, payloadFits, Instr.canon]
  decide

theorem Laws.RoundTrip.text (p : Bytes) : Laws.RoundTrip.Statement (.text p) :=
  fun pmax h => Laws.RoundTrip.encode 1#4 true p pmax h

theorem Laws.RoundTrip.bin (p : Bytes) : Laws.RoundTrip.Statement (.bin p) :=
  fun pmax h => Laws.RoundTrip.encode 2#4 true p pmax h

theorem Laws.RoundTrip.close (p : Bytes) : Laws.RoundTrip.Statement (.close p) :=
  fun pmax h => Laws.RoundTrip.encode 8#4 true p pmax h

end Sys2Proof
end

