-- ==== Sys2Proof/Laws/Step.lean ====
section
/-! SUPPORT. What a step does, said once: by HOST's next move, and by the block's phase. The equations turn a step into
the shared operations of Machine/Ops.lean, about which Laws/Ops.lean says everything. -/

namespace Sys2Proof.Machine

/-! ## The meanings by their shared operation -/

theorem exec_frameRow (op : Opcode) (fin : Bool) (rsv : BitVec 3) (masked : Bool) (len7 : Len7) (s : State) :
    exec (frameRow op fin rsv masked len7) s = runHeader op fin masked len7 s := by
  obtain ⟨n, hn⟩ := op
  match n, hn with
  | 0, _ | 1, _ | 2, _ | 3, _ | 4, _ | 5, _ | 6, _ | 7, _ => rfl
  | 8, _ | 9, _ | 10, _ | 11, _ | 12, _ | 13, _ | 14, _ | 15, _ => rfl
  | n + 16, h => exact absurd h (by omega)

theorem exec_decodeHeader (b0 b1 : Byte) (s : State) :
    exec (decodeHeader b0 b1) s = runHeader (hdrOpc b0) (hdrFin b0) (hdrMsk b1) (hdrLen7 b1) s :=
  exec_frameRow _ _ _ _ _ _

/-- A LEN row sets the length that its LEN7 field and extension declare (R117). -/
theorem exec_decodeLength {len7 : Len7} {ext : Bytes} {i : Instr} (h : decodeLength len7 ext = .ok i) (s : State) :
    ext.length = extSize len7 ∧ exec i s = setLength (lenDec len7 ext) s := by
  unfold decodeLength at h
  by_cases hlen : ext.length = extSize len7
  · refine ⟨hlen, ?_⟩
    rw [if_neg (not_not.mpr hlen)] at h
    obtain ⟨hl, h0⟩ | ⟨hl, h0⟩ | ⟨hl, h0⟩ := extSize_cases len7
    · rw [if_pos hl] at h
      cases h
      show setLength (lenDec len7 []) s = _
      rw [lenDec_inline hl, lenDec_inline hl]
    · rw [if_neg (by omega), if_pos hl] at h
      cases h
      show setLength (lenDec 126#7 ext) s = _
      rw [lenDec_ext (by decide), lenDec_ext (by omega)]
    · rw [if_neg (by omega), if_neg (by omega)] at h
      cases h
      show setLength (lenDec 127#7 ext) s = _
      rw [lenDec_ext (by decide), lenDec_ext (by omega)]
  · rw [if_pos hlen] at h; cases h

theorem decodeLength_ok {len7 : Len7} {ext : Bytes} (h : ext.length = extSize len7) : ∃ i, decodeLength len7 ext = .ok i := by
  unfold decodeLength
  rw [if_neg (not_not.mpr h)]
  split
  · exact ⟨_, rfl⟩
  · split <;> exact ⟨_, rfl⟩

/-- An ENCODE and the pseudo-instruction that names its words run alike (R90). -/
theorem exec_encodeRow (op : Opcode) (final : Bool) (payload : Bytes) (s : State) :
    exec (encodeRow op final payload) s = runEncode op final payload s := by
  unfold encodeRow
  split
  · rename_i h; simp only [Bool.and_eq_true, beq_iff_eq] at h; obtain ⟨rfl, rfl⟩ := h; rfl
  · split
    · rename_i h; simp only [Bool.and_eq_true, beq_iff_eq] at h; obtain ⟨rfl, rfl⟩ := h; rfl
    · split
      · rename_i h; simp only [Bool.and_eq_true, beq_iff_eq] at h; obtain ⟨rfl, rfl⟩ := h; rfl
      · split
        · rename_i h
          simp only [Bool.and_eq_true, beq_iff_eq, List.isEmpty_iff] at h
          obtain ⟨⟨rfl, rfl⟩, rfl⟩ := h; rfl
        · rfl

/-! ## The block's own step -/

/-- The block's own next step by its phase. -/
def phaseStep (s : State) : Result :=
  match fetchPhase s with
  | .ends o => o
  | .run i s' => exec i s'

theorem phaseStep_idle {s : State} (h : s.phase = .idle) : phaseStep s = .next s := by
  simp [phaseStep, fetchPhase, h]

theorem phaseStep_dPay {s : State} (h : s.phase = .dPay) : phaseStep s = payloadStep s := by
  simp [phaseStep, fetchPhase, h]

/-- The step of a phase that reads a header part of `n` bytes: `use` is what it does with the part. -/
def partStep (n : Nat) (e : FrameError) (s : State) (use : Bytes → State → Result) : Result :=
  match readPart n s with
  | .stay s' => .next s'
  | .failed s' => raiseError e s'
  | .noRequest => .fault .emptyRequest
  | .got b s' => if b.length = n then use b s' else .fault .malformedPart

theorem phaseStep_dHdr {s : State} (h : s.phase = .dHdr) :
    phaseStep s = partStep 2 .header s fun b s' =>
      runHeader (hdrOpc (b.getD 0 0#8)) (hdrFin (b.getD 0 0#8)) (hdrMsk (b.getD 1 0#8)) (hdrLen7 (b.getD 1 0#8))
        { s' with hdr := b } := by
  simp only [phaseStep, fetchPhase, h, fetchHeader, fetchPart, partStep]
  cases readPart 2 s with
  | got b s' =>
    match b with
    | [] => rfl
    | [_] => rfl
    | [b0, b1] => exact exec_decodeHeader b0 b1 _
    | _ :: _ :: _ :: _ => simp
  | _ => rfl

theorem phaseStep_dExt {s : State} {len7 : Len7} (h : s.phase = .dExt) (hl : s.len7 = some len7) :
    phaseStep s = partStep (extSize len7) .extension s fun b s' => setLength (lenDec len7 b) s' := by
  simp only [phaseStep, fetchPhase, h, fetchExtension, hl, fetchPart, partStep]
  cases readPart (extSize len7) s with
  | got b s' =>
    by_cases hb : b.length = extSize len7
    · obtain ⟨i, hi⟩ := decodeLength_ok hb
      simp only [runDecoded, decode, hi, if_pos hb]
      exact (exec_decodeLength hi s').2
    · simp [runDecoded, decode, decodeLength, hb]
  | _ => rfl

theorem phaseStep_dExt_fault {s : State} (h : s.phase = .dExt) (hl : s.len7 = none) :
    phaseStep s = .fault (.regNoValue .len7) := by
  simp [phaseStep, fetchPhase, h, fetchExtension, hl]

/-- The key of its four bytes. -/
def keyOf (b : Bytes) : Key := ⟨b.getD 0 0#8, b.getD 1 0#8, b.getD 2 0#8, b.getD 3 0#8⟩

theorem phaseStep_dKey {s : State} (h : s.phase = .dKey) :
    phaseStep s = partStep 4 .mask s fun b s' => enterPayload { s' with key := some (keyOf b) } := by
  simp only [phaseStep, fetchPhase, h, fetchKey, fetchPart, partStep]
  cases readPart 4 s with
  | got b s' =>
    match b with
    | [] => rfl
    | [_] => rfl
    | [_, _] => rfl
    | [_, _, _] => rfl
    | [_, _, _, _] => rfl
    | _ :: _ :: _ :: _ :: _ :: _ => simp [runDecoded, decode, decodeMask]
  | _ => rfl

/-! ## What the block's own step leaves alone -/

/-- What the block's own step can change outside its registers: it consumes the bytes of one answer. -/
structure BlockStep (s t : State) : Prop where
  cfg : t.cfg = s.cfg
  refused : t.refused = s.refused
  keys : t.keys = s.keys
  draws : t.draws = s.draws
  host : t.host = s.host
  emitted : t.emitted = s.emitted
  consumed : ∃ c, s.stream = c ++ t.stream ∧
    ((t.requests = s.requests ∧ c = []) ∨ ∃ n, 1 ≤ n ∧ c.length ≤ n ∧ t.requests = s.requests ++ [n])

theorem ReadStep.block {s t : State} (h : ReadStep s t) : BlockStep s t :=
  ⟨h.cfg, h.refused, h.keys, h.draws, h.host, h.emitted, h.consumed⟩

theorem BlockStep.thenSame {s t u : State} (h : BlockStep s t) (g : SameOutside t u) : BlockStep s u :=
  ⟨g.cfg.trans h.cfg, g.refused.trans h.refused, g.keys.trans h.keys, g.draws.trans h.draws,
   g.host.trans h.host, g.emitted.trans h.emitted, by rw [g.stream, g.requests]; exact h.consumed⟩

theorem raiseError_same {e : FrameError} {s t : State} (h : raiseError e s = .next t) : SameOutside s t := by
  cases raiseError_next h; exact ⟨rfl, rfl, rfl, rfl, rfl, rfl, rfl, rfl, rfl⟩

theorem partStep_next {n : Nat} {e : FrameError} {s t : State} {use : Bytes → State → Result}
    (h : partStep n e s use = .next t) :
    readPart n s = .stay t ∨ (∃ s', readPart n s = .failed s' ∧ raiseError e s' = .next t) ∨
    ∃ b s', readPart n s = .got b s' ∧ b.length = n ∧ use b s' = .next t := by
  unfold partStep at h
  split at h
  · rename_i hr; exact .inl (by rw [hr, Host.Outcome.next.inj h])
  · exact .inr (.inl ⟨_, ‹_›, h⟩)
  · cases h
  · split at h
    · exact .inr (.inr ⟨_, _, ‹_›, ‹_›, h⟩)
    · cases h

theorem partStep_refused {n : Nat} {e : FrameError} {s : State} {use : Bytes → State → Result} {q : Refusal}
    (h : partStep n e s use = .refused q) :
    (∃ s', ReadStep s s' ∧ s'.cfg.failureMode = .observe ∧ q = .observeMode { s' with refused := true }) ∨
    ∃ b s', readPart n s = .got b s' ∧ b.length = n ∧ use b s' = .refused q := by
  unfold partStep at h
  split at h
  · cases h
  · rename_i s' hr
    exact .inl ⟨s', readPart_readStep (.inr (.inl hr)), raiseError_refused h⟩
  · cases h
  · split at h
    · exact .inr ⟨_, _, ‹_›, ‹_›, h⟩
    · cases h

theorem partStep_block {n : Nat} {e : FrameError} {s t : State} {use : Bytes → State → Result}
    (huse : ∀ b s', use b s' = .next t → SameOutside s' t) (h : partStep n e s use = .next t) : BlockStep s t := by
  obtain hr | ⟨s', hr, h⟩ | ⟨b, s', hr, -, h⟩ := partStep_next h
  · exact (readPart_readStep (.inl hr)).block
  · exact (readPart_readStep (.inr (.inl hr))).block.thenSame (raiseError_same h)
  · exact (readPart_readStep (.inr (.inr ⟨b, hr⟩))).block.thenSame (huse b s' h)

theorem payloadStep_block {s t : State} (h : payloadStep s = .next t) : BlockStep s t := by
  obtain ⟨len, -, s', hs, ⟨-, rfl⟩ | ⟨-, h⟩ | ⟨b, -, -, ⟨-, h⟩ | ⟨-, rfl⟩⟩⟩ := payloadStep_next h
  · exact hs.block
  · exact hs.block.thenSame (raiseError_same h)
  · exact hs.block.thenSame (SameOutside.trans (t := { s' with buf := s'.buf ++ b })
      ⟨rfl, rfl, rfl, rfl, rfl, rfl, rfl, rfl, rfl⟩ (complete_same h))
  · exact hs.block.thenSame ⟨rfl, rfl, rfl, rfl, rfl, rfl, rfl, rfl, rfl⟩

/-- The block's own step changes nothing outside its registers but the stream it reads. -/
theorem phaseStep_block {s t : State} (h : phaseStep s = .next t) : BlockStep s t := by
  match hp : s.phase with
  | .idle =>
    rw [phaseStep_idle hp] at h
    cases h
    exact ⟨rfl, rfl, rfl, rfl, rfl, rfl, [], rfl, .inl ⟨rfl, rfl⟩⟩
  | .dHdr =>
    rw [phaseStep_dHdr hp] at h
    exact partStep_block (fun b s' hu => SameOutside.trans (t := { s' with hdr := b })
      ⟨rfl, rfl, rfl, rfl, rfl, rfl, rfl, rfl, rfl⟩ (runHeader_same hu)) h
  | .dExt =>
    match hl : s.len7 with
    | none => rw [phaseStep_dExt_fault hp hl] at h; cases h
    | some l => rw [phaseStep_dExt hp hl] at h; exact partStep_block (fun b s' hu => setLength_same hu) h
  | .dKey =>
    rw [phaseStep_dKey hp] at h
    exact partStep_block (fun b s' hu => SameOutside.trans (t := { s' with key := some (keyOf b) })
      ⟨rfl, rfl, rfl, rfl, rfl, rfl, rfl, rfl, rfl⟩ (enterPayload_same hu)) h
  | .dPay => rw [phaseStep_dPay hp] at h; exact payloadStep_block h

/-- When the block's own step is refused (R248): a failed read under OBSERVE, or a length that is not supported. -/
theorem phaseStep_refused {s : State} {q : Refusal} (h : phaseStep s = .refused q) :
    s.phase ≠ .idle ∧ ∃ left, left.refused = true ∧
      ((q = .observeMode left ∧ s.cfg.failureMode = .observe) ∨
       (q = .lengthUnsupported left ∧ (s.phase = .dHdr ∨ s.phase = .dExt))) := by
  match hp : s.phase with
  | .idle => rw [phaseStep_idle hp] at h; cases h
  | .dHdr =>
    rw [phaseStep_dHdr hp] at h
    obtain ⟨s', hs, hm, rfl⟩ | ⟨b, s', -, -, h⟩ := partStep_refused h
    · exact ⟨by simp, _, rfl, .inl ⟨rfl, by rw [← hs.cfg]; exact hm⟩⟩
    · obtain ⟨-, -, rfl⟩ := runHeader_refused h
      exact ⟨by simp, _, rfl, .inr ⟨rfl, .inl rfl⟩⟩
  | .dExt =>
    match hl : s.len7 with
    | none => rw [phaseStep_dExt_fault hp hl] at h; cases h
    | some l =>
      rw [phaseStep_dExt hp hl] at h
      obtain ⟨s', hs, hm, rfl⟩ | ⟨b, s', -, -, h⟩ := partStep_refused h
      · exact ⟨by simp, _, rfl, .inl ⟨rfl, by rw [← hs.cfg]; exact hm⟩⟩
      · obtain ⟨-, rfl⟩ := setLength_refused h
        exact ⟨by simp, _, rfl, .inr ⟨rfl, .inr rfl⟩⟩
  | .dKey =>
    rw [phaseStep_dKey hp] at h
    obtain ⟨s', hs, hm, rfl⟩ | ⟨b, s', -, -, h⟩ := partStep_refused h
    · exact ⟨by simp, _, rfl, .inl ⟨rfl, by rw [← hs.cfg]; exact hm⟩⟩
    · exact absurd h enterPayload_not_refused
  | .dPay =>
    rw [phaseStep_dPay hp] at h
    obtain ⟨s', hs, hm, rfl⟩ := payloadStep_refused h
    exact ⟨by simp, _, rfl, .inl ⟨rfl, by rw [← hs.cfg]; exact hm⟩⟩

/-! ## The step by HOST's next move -/

theorem step_reset {s : State} {rest : List HostMove} (h : s.host = .reset :: rest) :
    step s = .next (resetBlock { s with host := rest }) := by
  simp [step, fetch, h]

theorem step_refused {s : State} (hr : s.refused = true) (h : ∀ rest, s.host ≠ .reset :: rest) :
    step s = .refused (.alreadyRefused s) := by
  unfold step fetch
  split
  · rename_i h'
    split at h'
    · exact absurd ‹_› (h _)
    · simp [hr] at h'; exact h'.symm
  · rename_i h'
    split at h'
    · exact absurd ‹_› (h _)
    · simp [hr] at h'

theorem step_read {s : State} {f : RspField} {rest : List HostMove} (hr : s.refused = false)
    (h : s.host = .read f :: rest) : step s = hostRead f { s with host := rest } := by
  simp [step, fetch, h, hr]

theorem step_wait {s : State} {rest : List HostMove} (hr : s.refused = false) (h : s.host = .wait :: rest) :
    step s = phaseStep { s with host := rest } := by
  simp only [step, fetch, h, hr, phaseStep]; rfl

theorem step_quiet {s : State} (hr : s.refused = false) (h : s.host = []) : step s = phaseStep s := by
  simp only [step, fetch, h, hr, phaseStep]; rfl

theorem step_held {s : State} {w : Word} {p : Bytes} {rest : List HostMove} (hr : s.refused = false)
    (h : s.host = .offer w p :: rest) (hb : s.phase ≠ .idle) : step s = phaseStep s := by
  simp only [step, fetch, h, hr, phaseStep, if_neg hb]; rfl

theorem step_waits {s : State} (hr : s.refused = false) (hb : s.phase ≠ .idle) (h : HostWaits s) : step s = phaseStep s := by
  obtain h | ⟨w, p, rest, h⟩ := h
  · exact step_quiet hr h
  · exact step_held hr h hb

/-- What an IDLE block does with an offered command. -/
def accept (w : Word) (p : Bytes) (s : State) : Result :=
  match decodeCmd s.cfg.payloadMax w p with
  | .ok i => exec i s
  | .reject _ => .refused (.lengthUnsupported { s with refused := true })

theorem decodeCmd_reject {pmax w : Word} {p : Bytes} {r : Reject} (h : decodeCmd pmax w p = .reject r) :
    r = .lengthUnsupported := by
  unfold decodeCmd at h
  split at h
  · cases h
  · split at h
    · split at h <;> cases h; rfl
    · split at h
      · split at h <;> cases h
      · split at h <;> cases h

theorem step_offer {s : State} {w : Word} {p : Bytes} {rest : List HostMove} (hr : s.refused = false)
    (h : s.host = .offer w p :: rest) (hi : s.phase = .idle) : step s = accept w p { s with host := rest } := by
  simp only [step, fetch, h, hr, if_pos hi, runDecoded, decode, accept]
  cases hd : decodeCmd s.cfg.payloadMax w p with
  | ok i => rfl
  | reject r => cases decodeCmd_reject hd; rfl

/-- Every step is one of these six. -/
theorem step_cases (s : State) :
    (∃ rest, s.host = .reset :: rest ∧ step s = .next (resetBlock { s with host := rest })) ∨
    (s.refused = true ∧ (∀ rest, s.host ≠ .reset :: rest) ∧ step s = .refused (.alreadyRefused s)) ∨
    (s.refused = false ∧ ∃ f rest, s.host = .read f :: rest ∧ step s = hostRead f { s with host := rest }) ∨
    (s.refused = false ∧ ∃ rest, s.host = .wait :: rest ∧ step s = phaseStep { s with host := rest }) ∨
    (s.refused = false ∧ s.phase = .idle ∧ ∃ w p rest, s.host = .offer w p :: rest ∧
      step s = accept w p { s with host := rest }) ∨
    (s.refused = false ∧ (s.host = [] ∨ (s.phase ≠ .idle ∧ ∃ w p rest, s.host = .offer w p :: rest)) ∧
      step s = phaseStep s) := by
  by_cases hres : ∃ rest, s.host = .reset :: rest
  · obtain ⟨rest, hh⟩ := hres
    exact .inl ⟨rest, hh, step_reset hh⟩
  · have hres' : ∀ rest, s.host ≠ .reset :: rest := fun rest h => hres ⟨rest, h⟩
    by_cases hr : s.refused = true
    · exact .inr (.inl ⟨hr, hres', step_refused hr hres'⟩)
    · replace hr : s.refused = false := by simpa using hr
      match hh : s.host with
      | .reset :: rest => exact absurd hh (hres' rest)
      | [] => exact .inr (.inr (.inr (.inr (.inr ⟨hr, .inl rfl, step_quiet hr hh⟩))))
      | .read f :: rest => exact .inr (.inr (.inl ⟨hr, f, rest, rfl, step_read hr hh⟩))
      | .wait :: rest => exact .inr (.inr (.inr (.inl ⟨hr, rest, rfl, step_wait hr hh⟩)))
      | .offer w p :: rest =>
        by_cases hi : s.phase = .idle
        · exact .inr (.inr (.inr (.inr (.inl ⟨hr, hi, w, p, rest, rfl, step_offer hr hh hi⟩))))
        · exact .inr (.inr (.inr (.inr (.inr ⟨hr, .inr ⟨hi, w, p, rest, rfl⟩, step_held hr hh hi⟩))))

/-- An accepted command is an ENCODE, a DECODE or a refusal (R72). -/
theorem accept_cases (w : Word) (p : Bytes) (s : State) :
    (∃ op final, p.length ≤ s.cfg.payloadMax.toNat ∧ accept w p s = runEncode op final p s) ∨
    accept w p s = .next (acceptDecode s) ∨
    accept w p s = .refused (.cmdReserved { s with refused := true }) ∨
    accept w p s = .refused (.lengthUnsupported { s with refused := true }) := by
  unfold accept
  cases hd : decodeCmd s.cfg.payloadMax w p with
  | reject r => exact .inr (.inr (.inr rfl))
  | ok i =>
    unfold decodeCmd at hd
    split at hd
    · cases hd; exact .inr (.inr (.inl rfl))
    · split at hd
      · split at hd
        · rename_i hp
          cases hd
          exact .inl ⟨_, _, by simpa [payloadFits] using hp, exec_encodeRow _ _ _ _⟩
        · cases hd
      · split at hd
        · split at hd <;> cases hd
          · exact .inr (.inr (.inl rfl))
          · exact .inr (.inl rfl)
        · split at hd <;> cases hd <;> exact .inr (.inr (.inl rfl))

end Sys2Proof.Machine
end

