-- ==== Sys2Proof/Laws/Inv.lean ====
section
/-! SUPPORT. The invariant of Safety.lean and the shared operations: which of them keep it, and that none of them faults
where it holds. -/

namespace Sys2Proof.Machine

/-! ## The responses -/

theorem rspOk_errorRsp (e : FrameError) : RspOk (errorRsp e) := by
  cases e <;> constructor <;> simp [errorRsp, errorCode]

theorem rspOk_encodeRsp (frame : Bytes) : RspOk (encodeRsp frame) := by
  constructor <;> simp [encodeRsp]

theorem rspOk_decodeRsp {op : Opcode} {fin masked : Bool} {len : Word} {key : Option Key} {payload : Bytes}
    (hk : key.isSome ↔ masked = true) (hl : len.toNat = payload.length) :
    RspOk (decodeRsp op fin masked len key payload) := by
  constructor <;> simp [decodeRsp, hk]
  exact hl

/-! ## The parts of the invariant do not depend on the neighbours -/

theorem HeaderLatched.congr {s t : State} (h : HeaderLatched s) (e1 : t.hdr = s.hdr) (e2 : t.opc = s.opc)
    (e3 : t.fin = s.fin) (e4 : t.msk = s.msk) (e5 : t.len7 = s.len7) : HeaderLatched t := by
  obtain ⟨b0, b1, h1, h2, h3, h4, h5⟩ := h
  exact ⟨b0, b1, e1.trans h1, e2.trans h2, e3.trans h3, e4.trans h4, e5.trans h5⟩

theorem LenLatched.congr {s t : State} (h : LenLatched s) (e1 : t.len7 = s.len7) (e2 : t.len = s.len)
    (e3 : t.cfg = s.cfg) : LenLatched t := by
  obtain ⟨l, len, h1, h2, h3, h4, h5⟩ := h
  exact ⟨l, len, e1.trans h1, e2.trans h2, by rw [e3]; exact h3, h4, h5⟩

theorem Inv.withHost {s : State} (h : Inv s) (moves : List HostMove) : Inv { s with host := moves } := by
  obtain ⟨h1, h2⟩ := h
  refine ⟨?_, h2⟩
  unfold PhaseInv at *
  match hph : s.phase with
  | .idle =>
    rw [hph] at h1; simp only
    exact ⟨h1.hdr, h1.opc, h1.fin, h1.msk, h1.len7, h1.len, h1.part, h1.key, h1.buf⟩
  | .dHdr =>
    rw [hph] at h1; simp only
    obtain ⟨h, h'⟩ := h1
    exact ⟨⟨h.hdr, h.opc, h.fin, h.msk, h.len7, h.len, h.part, h.key, h.buf⟩, h'⟩
  | .dExt | .dKey | .dPay => rw [hph] at h1; exact h1

/-! ## The end of a command -/

theorem Inv.ended {s : State} {r : Rsp} (h : RspOk r) : Inv { dropDecode s with rsp := some r, phase := .idle } :=
  ⟨⟨rfl, rfl, rfl, rfl, rfl, rfl, rfl, rfl, rfl⟩, fun q hq => by cases hq; exact h⟩

theorem Inv.raised {e : FrameError} {s t : State} (h : raiseError e s = .next t) : Inv t := by
  rw [raiseError_next h]; exact Inv.ended (rspOk_errorRsp e)

theorem Inv.completed {s t : State} (hbuf : ∀ len, s.len = some len → s.buf.length = len.toNat)
    (h : complete s = .next t) : Inv t := by
  obtain ⟨op, fin, m, len, -, -, -, hl, ⟨rfl, key, -, rfl⟩ | ⟨rfl, rfl⟩⟩ := complete_next h
  · exact Inv.ended (rspOk_decodeRsp (by simp) (by simp [hbuf len hl]))
  · exact Inv.ended (rspOk_decodeRsp (by simp) (by simp [hbuf len hl]))

/-- Entering the payload: the frame is complete, or D_PAY waits for its bytes. -/
theorem Inv.enteredPayload {s t : State} (hh : HeaderLatched s) (hl : LenLatched s)
    (hk : s.msk = some true ↔ s.key.isSome) (hb : s.buf = []) (hp : s.part = []) (hr : s.rsp = none)
    (h : enterPayload s = .next t) : Inv t := by
  obtain ⟨len, hlen, ⟨h0, h⟩ | ⟨h0, rfl⟩⟩ := enterPayload_next h
  · refine Inv.completed ?_ h
    intro l hl'; rw [hlen] at hl'; cases hl'; subst h0; simp [hb]
  · refine ⟨⟨hh, hl, ⟨len, hlen, ?_⟩, hk, hp, hr⟩, fun q hq => ?_⟩
    · have : len.toNat ≠ 0 := fun h => h0 (by rw [← BitVec.toNat_inj]; simpa using h)
      simp [hb]; omega
    · simp [hr] at hq

/-- A length that the header's tier can hold has been set. -/
theorem Inv.lengthSet {n : Nat} {l : Len7} {s t : State} (hh : HeaderLatched s) (hl : s.len7 = some l)
    (hn : l.toNat ≤ 125 → n = l.toNat) (hn' : l.toNat = 126 → n < 65536) (hk : s.key = none) (hb : s.buf = [])
    (hp : s.part = []) (hr : s.rsp = none) (h : setLength n s = .next t) : Inv t := by
  obtain ⟨hle, h⟩ := setLength_next h
  have hlt := s.cfg.payloadMax.isLt
  have hto : (BitVec.ofNat 32 n).toNat = n := by simp; omega
  have hL : LenLatched { s with len := some (BitVec.ofNat 32 n) } :=
    ⟨l, _, hl, rfl, by rw [hto]; exact hle, by rw [hto]; exact hn, by rw [hto]; exact hn'⟩
  obtain ⟨hm, rfl⟩ | ⟨hm, h⟩ := afterLength_next h
  · refine ⟨⟨hh, hL, hm, ⟨by simp [hp], fun _ => hp⟩, hk, hb, hr⟩, fun q hq => ?_⟩
    simp [hr] at hq
  · refine Inv.enteredPayload ?_ hL ?_ hb hp hr h
    · exact hh
    · simp at hm; simp [hm, hk]

/-! ## No fault -/

theorem complete_answers {s : State} (h1 : s.opc.isSome) (h2 : s.fin.isSome) (h3 : s.len.isSome)
    (h4 : s.msk = some false ∨ (s.msk = some true ∧ s.key.isSome)) : ∃ t, complete s = .next t := by
  obtain ⟨a, h1⟩ := Option.isSome_iff_exists.mp h1
  obtain ⟨b, h2⟩ := Option.isSome_iff_exists.mp h2
  obtain ⟨c, h3⟩ := Option.isSome_iff_exists.mp h3
  obtain h4 | ⟨h4, h5⟩ := h4
  · exact ⟨_, complete_unmasked h1 h2 h4 h3⟩
  · obtain ⟨d, h5⟩ := Option.isSome_iff_exists.mp h5
    exact ⟨_, complete_masked h1 h2 h4 h3 h5⟩

theorem enterPayload_answers {s : State} (h1 : s.opc.isSome) (h2 : s.fin.isSome) (h3 : s.len.isSome)
    (h4 : s.msk = some false ∨ (s.msk = some true ∧ s.key.isSome)) : ∃ t, enterPayload s = .next t := by
  obtain ⟨t, ht⟩ := complete_answers h1 h2 h3 h4
  obtain ⟨c, h3⟩ := Option.isSome_iff_exists.mp h3
  unfold enterPayload
  simp only [h3, readReg]
  split
  · exact ⟨_, ht⟩
  · exact ⟨_, rfl⟩

theorem setLength_not_fault {n : Nat} {s : State} {f : Fault} (h1 : s.opc.isSome) (h2 : s.fin.isSome)
    (h3 : s.msk.isSome) : setLength n s ≠ .fault f := by
  unfold setLength
  split
  · obtain ⟨m, h3⟩ := Option.isSome_iff_exists.mp h3
    cases m with
    | true => simp [afterLength, h3, readReg]
    | false =>
      obtain ⟨t, ht⟩ := enterPayload_answers (s := { s with len := some (BitVec.ofNat 32 n) }) h1 h2 rfl (.inl h3)
      rw [show afterLength { s with len := some (BitVec.ofNat 32 n) } =
        enterPayload { s with len := some (BitVec.ofNat 32 n) } by simp [afterLength, h3, readReg], ht]
      simp
  · simp [refuse]

theorem runHeader_not_fault {op : Opcode} {fin masked : Bool} {len7 : Len7} {s : State} {f : Fault} :
    runHeader op fin masked len7 s ≠ .fault f := by
  unfold runHeader
  simp only
  split
  · exact setLength_not_fault rfl rfl rfl
  · simp

theorem partStep_not_fault {n : Nat} {e : FrameError} {s : State} {use : Bytes → State → Result} {f : Fault}
    (hp : PartUnder n s) (hu : ∀ b s', readPart n s = .got b s' → use b s' ≠ .fault f) :
    partStep n e s use ≠ .fault f := by
  unfold partStep
  split
  · simp
  · exact raiseError_not_fault
  · exact absurd ‹_› (readPart_request hp)
  · rw [if_pos (readPart_got hp ‹_›).1]; exact hu _ _ ‹_›

end Sys2Proof.Machine
end

