-- ==== Sys2Proof/Laws/Rehost.lean ====
section
/-! SUPPORT. The block's own step does not look at HOST's moves: with other moves in the state it has the same outcome, with
those moves in it. One lemma for each shared operation. -/

namespace Sys2Proof.Machine

theorem readReg_rehost {α : Type} (moves : List HostMove) (r : DecReg) (v : Option α) {k k' : α → Result}
    (hk : ∀ a, k' a = rehost moves (k a)) : readReg r v k' = rehost moves (readReg r v k) := by
  cases v with
  | none => rfl
  | some a => exact hk a

theorem complete_rehost (moves : List HostMove) (s : State) :
    complete { s with host := moves } = rehost moves (complete s) := by
  refine readReg_rehost moves _ _ fun op => readReg_rehost moves _ _ fun fin => readReg_rehost moves _ _ fun masked =>
    readReg_rehost moves _ _ fun len => ?_
  cases masked with
  | false => rfl
  | true => exact readReg_rehost moves _ _ fun key => rfl

theorem enterPayload_rehost (moves : List HostMove) (s : State) :
    enterPayload { s with host := moves } = rehost moves (enterPayload s) := by
  refine readReg_rehost moves _ _ fun len => ?_
  split
  · exact complete_rehost moves s
  · rfl

theorem afterLength_rehost (moves : List HostMove) (s : State) :
    afterLength { s with host := moves } = rehost moves (afterLength s) := by
  refine readReg_rehost moves _ _ fun masked => ?_
  split
  · rfl
  · exact enterPayload_rehost moves s

theorem setLength_rehost (moves : List HostMove) (n : Nat) (s : State) :
    setLength n { s with host := moves } = rehost moves (setLength n s) := by
  unfold setLength
  simp only
  split
  · exact afterLength_rehost moves { s with len := some (BitVec.ofNat 32 n) }
  · rfl

theorem runHeader_rehost (moves : List HostMove) (op : Opcode) (fin masked : Bool) (len7 : Len7) (s : State) :
    runHeader op fin masked len7 { s with host := moves } = rehost moves (runHeader op fin masked len7 s) := by
  unfold runHeader
  simp only
  split
  · exact setLength_rehost moves _ (latchHeader op fin masked len7 s)
  · rfl

theorem raiseError_rehost (moves : List HostMove) (e : FrameError) (s : State) :
    raiseError e { s with host := moves } = rehost moves (raiseError e s) := by
  unfold raiseError
  simp only
  split <;> rfl

theorem streamRead_host (moves : List HostMove) (n : Nat) (s : State) :
    streamRead n { s with host := moves } =
      match streamRead n s with
      | .held t => .held { t with host := moves }
      | .data b t => .data b { t with host := moves }
      | .err t => .err { t with host := moves }
      | .noRequest => .noRequest := by
  unfold streamRead
  split <;> simp
  split <;> simp_all [answerData]

theorem readPart_host (moves : List HostMove) (n : Nat) (s : State) :
    readPart n { s with host := moves } =
      match readPart n s with
      | .stay t => .stay { t with host := moves }
      | .failed t => .failed { t with host := moves }
      | .got b t => .got b { t with host := moves }
      | .noRequest => .noRequest := by
  unfold readPart
  simp only
  split
  · unfold readPartOnce
    rw [streamRead_host]
    cases streamRead n s <;> simp
    split <;> rfl
  · unfold readPartLoop
    rw [streamRead_host]
    simp only
    match streamRead (n - s.part.length) s with
    | .data [] _ => rfl
    | .data (_ :: _) _ => simp only; split <;> rfl
    | .held _ => rfl
    | .err _ => rfl
    | .noRequest => rfl

theorem partStep_rehost (moves : List HostMove) (n : Nat) (e : FrameError) (s : State) (use : Bytes → State → Result)
    (hu : ∀ b t, use b { t with host := moves } = rehost moves (use b t)) :
    partStep n e { s with host := moves } use = rehost moves (partStep n e s use) := by
  unfold partStep
  rw [readPart_host]
  cases readPart n s with
  | stay _ => rfl
  | failed _ => exact raiseError_rehost moves e _
  | noRequest => rfl
  | got b t =>
    simp only
    split
    · exact hu b t
    · rfl

theorem payloadStep_rehost (moves : List HostMove) (s : State) :
    payloadStep { s with host := moves } = rehost moves (payloadStep s) := by
  refine readReg_rehost moves _ _ fun len => ?_
  rw [streamRead_host]
  match streamRead (len.toNat - s.buf.length) s with
  | .held _ => rfl
  | .err _ => exact raiseError_rehost moves _ _
  | .noRequest => rfl
  | .data [] _ => exact raiseError_rehost moves _ _
  | .data (b :: bs) t =>
    simp only [afterPayload]
    split
    · exact complete_rehost moves { t with buf := t.buf ++ b :: bs }
    · rfl

/-- The block's own step with other moves of HOST in the state. -/
theorem phaseStep_rehost (moves : List HostMove) (s : State) :
    phaseStep { s with host := moves } = rehost moves (phaseStep s) := by
  obtain h | h | h | h | h : s.phase = .idle ∨ s.phase = .dHdr ∨ s.phase = .dExt ∨ s.phase = .dKey ∨ s.phase = .dPay := by
    cases s.phase <;> simp
  · rw [phaseStep_idle h, phaseStep_idle (by exact h)]; rfl
  · rw [phaseStep_dHdr h, phaseStep_dHdr (by exact h)]
    exact partStep_rehost moves _ _ _ _ fun b t => runHeader_rehost moves _ _ _ _ { t with hdr := b }
  · obtain hl | ⟨l, hl⟩ : s.len7 = none ∨ ∃ l, s.len7 = some l := by cases s.len7 <;> simp
    · rw [phaseStep_dExt_fault h hl, phaseStep_dExt_fault (by exact h) (by exact hl)]; rfl
    · rw [phaseStep_dExt h hl, phaseStep_dExt (by exact h) (by exact hl)]
      exact partStep_rehost moves _ _ _ _ fun b t => setLength_rehost moves _ t
  · rw [phaseStep_dKey h, phaseStep_dKey (by exact h)]
    exact partStep_rehost moves _ _ _ _ fun b t => enterPayload_rehost moves { t with key := some (keyOf b) }
  · rw [phaseStep_dPay h, phaseStep_dPay (by exact h)]
    exact payloadStep_rehost moves s

end Sys2Proof.Machine
end

