-- ==== Sys2Proof/Tests/Slice0.lean ====
section
/-! SUPPORT. The model's own tests. Expected values come from the spec's vectors (spec/95_test_vectors.md, cited as V2.1
and so on) or are worked out by hand from the rule named. The last part shows, for each statement with hypotheses, concrete
states and operands that meet them. -/

open Sys2Proof Sys2Proof.Machine Sys2Proof.Claims

namespace Sys2Proof.Tests

/-! ## Helpers -/

def next : Result → Option State
  | .next t => some t
  | .fault _ => none
  | .refused _ => none

def fault : Result → Option Fault
  | .next _ => none
  | .fault f => some f
  | .refused _ => none

def refusal : Result → Option Refusal
  | .next _ => none
  | .fault _ => none
  | .refused q => some q

/-- A field of the next state. -/
def after {α : Type} (f : State → α) (r : Result) : Option α := (next r).map f

def dflt : Config := Config.default
def max5 : Config := { Config.default with payloadMax := 5#32 }
def looping : Config := { Config.default with hdrRead := .loop }
def observing : Config := { Config.default with failureMode := .observe }
def srcKeys : Config := { Config.default with keyDraw := .srcRange }

def hello : Bytes := [0x48#8, 0x65#8, 0x6C#8, 0x6C#8, 0x6F#8]
def helloKey : Word := 0x37FA213D#32
def helloFrame : Bytes := [0x81#8, 0x85#8, 0x37#8, 0xFA#8, 0x21#8, 0x3D#8, 0x7F#8, 0x9F#8, 0x4D#8, 0x51#8, 0x58#8]

/-- An IDLE block to which HOST makes these moves; the RNG's first draw is `key`. -/
def idle (cfg : Config) (key : Word) (moves : List HostMove) : State :=
  { State.reset with cfg := cfg, keys := [key], host := moves }

/-- A DECODE in D_HDR. -/
def inHdr (cfg : Config) (stream : Bytes) (plan : StreamPlan) : State :=
  { State.reset with cfg := cfg, phase := .dHdr, stream := stream, plan := plan }

/-- A DECODE past its header `81 b1`. -/
def inFrame (phase : Phase) (b1 : Byte) (len : Option Word) (key : Option Key) (cfg : Config) (stream : Bytes)
    (plan : StreamPlan) : State :=
  { State.reset with
    cfg := cfg, phase := phase, stream := stream, plan := plan, hdr := [0x81#8, b1], opc := some 1#4,
    fin := some true, msk := some (hdrMsk b1), len7 := some (hdrLen7 b1), len := len, key := key }

def inExt (b1 : Byte) (cfg : Config) (stream : Bytes) (plan : StreamPlan) : State :=
  inFrame .dExt b1 none none cfg stream plan

/-- Header `81 85`, waiting for the key. -/
def inKey (cfg : Config) (stream : Bytes) (plan : StreamPlan) : State :=
  inFrame .dKey 0x85#8 (some 5#32) none cfg stream plan

/-- Header `81 05`, unmasked, waiting for 5 bytes. -/
def inPay (cfg : Config) (stream : Bytes) (plan : StreamPlan) : State :=
  inFrame .dPay 0x05#8 (some 5#32) none cfg stream plan

/-- Header `81 85`, masked with the key of "Hello", waiting for 5 bytes. -/
def inPayMasked (cfg : Config) (stream : Bytes) (plan : StreamPlan) : State :=
  inFrame .dPay 0x85#8 (some 5#32) (some (keyOfWord helloKey)) cfg stream plan

/-! ## Well-formedness: an ill-formed term for each check -/

theorem test_wf_refuses_long_payloads :
    (Instr.encode 1#4 true (List.replicate 6 0#8)).wf 5#32 = false ∧ (Instr.text (List.replicate 6 0#8)).wf 5#32 = false ∧
    (Instr.bin (List.replicate 6 0#8)).wf 5#32 = false ∧ (Instr.close (List.replicate 6 0#8)).wf 5#32 = false ∧
    (Instr.encode 1#4 true (List.replicate 5 0#8)).wf 5#32 = true := by decide

theorem test_wf_refuses_decode_as_reserved : (Instr.reservedDecodeFields 0#5 []).wf 5#32 = false := by decide

theorem test_wf_refuses_zero_high_bits : (Instr.reservedHighBits 0#25 4#7 []).wf 5#32 = false := by decide

theorem test_wf_refuses_wrong_tier :
    (Instr.lenInline 126#7).wf 5#32 = false ∧ (Instr.lenExt16 [0#8]).wf 5#32 = false ∧
    (Instr.lenExt64 [0#8, 0#8]).wf 5#32 = false ∧ (Instr.lenInline 125#7).wf 5#32 = true := by decide

/-! ## Decoding: every constructor by a word written out from the spec's encoding -/

/-- V2.1 and R70: bits 31:7 = 0, fin, op (4 bits), cmd (2 bits). -/
theorem test_decode_encode :
    decode dflt.payloadMax (.command 0b00000000000000000000000000011100#32 [0x41#8]) = .ok (.encode 7#4 false [0x41#8]) ∧
    decode dflt.payloadMax (.command 0b00000000000000000000000001111100#32 []) = .ok (.encode 15#4 true []) ∧
    decode dflt.payloadMax (.command 0b00000000000000000000000001101000#32 [0x41#8]) = .ok (.encode 10#4 true [0x41#8]) := by
  decide

theorem test_decode_decode :
    decode dflt.payloadMax (.command 0b00000000000000000000000000000001#32 []) = .ok .decode := by decide

/-- V2.1. -/
theorem test_decode_reserved :
    decode dflt.payloadMax (.command 0x00000002#32 []) = .ok (.reservedCmd2 0#5 []) ∧
    decode dflt.payloadMax (.command 0x00000003#32 []) = .ok (.reservedCmd3 0#5 []) ∧
    decode dflt.payloadMax (.command 0x00000005#32 []) = .ok (.reservedDecodeFields 1#5 []) ∧
    decode dflt.payloadMax (.command 0x00000041#32 []) = .ok (.reservedDecodeFields 16#5 []) ∧
    decode dflt.payloadMax (.command 0x00000001#32 [0#8]) = .ok (.reservedDecodeFields 0#5 [0#8]) ∧
    decode dflt.payloadMax (.command 0x00000080#32 []) = .ok (.reservedHighBits 1#25 0#7 []) ∧
    decode dflt.payloadMax (.command 0x80000044#32 [0x48#8, 0x69#8]) =
      .ok (.reservedHighBits 0x1000000#25 0x44#7 [0x48#8, 0x69#8]) := by decide

/-- R72: a payload above `PAYLOAD_MAX` is rejected by name, one of just that size is not. -/
theorem test_decode_rejects_long_payload :
    decode 5#32 (.command 0x00000048#32 (List.replicate 6 0#8)) = .reject .lengthUnsupported ∧
    decode 5#32 (.command 0x00000048#32 (List.replicate 5 0#8)) = .ok (.bin (List.replicate 5 0#8)) := by decide

/-- R90. -/
theorem test_decode_pseudo :
    decode dflt.payloadMax (.command 0b00000000000000000000000001101000#32 []) = .ok .pong ∧
    decode dflt.payloadMax (.command 0b00000000000000000000000001000100#32 hello) = .ok (.text hello) ∧
    decode dflt.payloadMax (.command 0b00000000000000000000000001001000#32 hello) = .ok (.bin hello) ∧
    decode dflt.payloadMax (.command 0b00000000000000000000000001100000#32 hello) = .ok (.close hello) := by decide

/-- R74 and R79 to R84: FIN RSV OPCODE, then MASK LEN7. -/
theorem test_decode_named_frames :
    decode 0#32 (.header 0b00000000#8 0b10000010#8) = .ok (.frameCont false 0#3 true 2#7) ∧
    decode 0#32 (.header 0b10000001#8 0b10000101#8) = .ok (.frameText true 0#3 true 5#7) ∧
    decode 0#32 (.header 0b10000010#8 0b11111110#8) = .ok (.frameBin true 0#3 true 126#7) ∧
    decode 0#32 (.header 0b10001000#8 0b00000000#8) = .ok (.frameClose true 0#3 false 0#7) ∧
    decode 0#32 (.header 0b10001001#8 0b00000000#8) = .ok (.framePing true 0#3 false 0#7) ∧
    decode 0#32 (.header 0b10001010#8 0b10000000#8) = .ok (.framePong true 0#3 true 0#7) := by decide

/-- R85, with RSV bits set in some. -/
theorem test_decode_unnamed_frames :
    decode 0#32 (.header 0b00000011#8 0b00000000#8) = .ok (.frameRsvd3 false 0#3 false 0#7) ∧
    decode 0#32 (.header 0b01000100#8 0b00000001#8) = .ok (.frameRsvd4 false 4#3 false 1#7) ∧
    decode 0#32 (.header 0b00100101#8 0b10000000#8) = .ok (.frameRsvd5 false 2#3 true 0#7) ∧
    decode 0#32 (.header 0b00010110#8 0b01000000#8) = .ok (.frameRsvd6 false 1#3 false 64#7) ∧
    decode 0#32 (.header 0b11110111#8 0b01111111#8) = .ok (.frameRsvd7 true 7#3 false 127#7) ∧
    decode 0#32 (.header 0b10001011#8 0b00000000#8) = .ok (.frameRsvdB true 0#3 false 0#7) ∧
    decode 0#32 (.header 0b10001100#8 0b00000000#8) = .ok (.frameRsvdC true 0#3 false 0#7) ∧
    decode 0#32 (.header 0b00001101#8 0b00000000#8) = .ok (.frameRsvdD false 0#3 false 0#7) ∧
    decode 0#32 (.header 0b00001110#8 0b11111111#8) = .ok (.frameRsvdE false 0#3 true 127#7) ∧
    decode 0#32 (.header 0b11111111#8 0b11111111#8) = .ok (.frameRsvdF true 7#3 true 127#7) := by decide

/-- R86. -/
theorem test_decode_lengths :
    decode 0#32 (.extension 125#7 []) = .ok (.lenInline 125#7) ∧
    decode 0#32 (.extension 126#7 [0#8, 0x7E#8]) = .ok (.lenExt16 [0#8, 0x7E#8]) ∧
    decode 0#32 (.extension 127#7 [0#8, 0#8, 0#8, 0#8, 0#8, 1#8, 0#8, 0#8]) =
      .ok (.lenExt64 [0#8, 0#8, 0#8, 0#8, 0#8, 1#8, 0#8, 0#8]) ∧
    decode 0#32 (.extension 126#7 [0#8]) = .reject .extensionSize := by decide

/-- R88, the key in wire order. -/
theorem test_decode_masks :
    decode 0#32 (.maskKey false []) = .ok .maskOff ∧
    decode 0#32 (.maskKey true [1#8, 2#8, 3#8, 4#8]) = .ok (.maskOn ⟨1#8, 2#8, 3#8, 4#8⟩) ∧
    decode 0#32 (.maskKey true [1#8, 2#8, 3#8]) = .reject .keySize := by decide

/-! ## ENCODE and its helpers -/

/-- V2.2. -/
theorem test_lenEnc :
    lenEnc 0 = (0#7, []) ∧ lenEnc 125 = (125#7, []) ∧ lenEnc 126 = (126#7, [0#8, 0x7E#8]) ∧
    lenEnc 300 = (126#7, [1#8, 0x2C#8]) ∧ lenEnc 65535 = (126#7, [0xFF#8, 0xFF#8]) ∧
    lenEnc 65536 = (127#7, [0#8, 0#8, 0#8, 0#8, 0#8, 1#8, 0#8, 0#8]) ∧
    lenEnc 4294967295 = (127#7, [0#8, 0#8, 0#8, 0#8, 0xFF#8, 0xFF#8, 0xFF#8, 0xFF#8]) := by decide

/-- V2.2. -/
theorem test_lenDec :
    lenDec 125#7 [] = 125 ∧ lenDec 126#7 [0#8, 5#8] = 5 ∧ lenDec 126#7 [0xFF#8, 0xFF#8] = 65535 ∧
    lenDec 127#7 [0#8, 0#8, 0#8, 0#8, 0#8, 1#8, 0#8, 0#8] = 65536 ∧
    lenDec 127#7 [0#8, 0#8, 0#8, 1#8, 0#8, 0#8, 0#8, 0#8] = 4294967296 ∧
    lenDec 127#7 [0x80#8, 0#8, 0#8, 0#8, 0#8, 0#8, 0#8, 0#8] = 9223372036854775808 := by decide

/-- V2.3. -/
theorem test_mask :
    maskBytes ⟨0x37#8, 0xFA#8, 0x21#8, 0x3D#8⟩ hello = [0x7F#8, 0x9F#8, 0x4D#8, 0x51#8, 0x58#8] ∧
    maskBytes ⟨1#8, 2#8, 3#8, 4#8⟩ [0x10#8, 0x20#8, 0x30#8, 0x40#8, 0x50#8, 0x60#8] =
      [0x11#8, 0x22#8, 0x33#8, 0x44#8, 0x51#8, 0x62#8] := by decide

/-- V2.4: an unnamed opcode, and a non-final continuation. -/
theorem test_encode_row :
    after (·.emitted) (step (idle dflt 0xFFFFFFFF#32 [.offer 0x0000004C#32 []])) =
      some [[0x83#8, 0x80#8, 0xFF#8, 0xFF#8, 0xFF#8, 0xFF#8]] ∧
    after (·.emitted) (step (idle dflt 0xDEADBEEF#32 [.offer 0x00000000#32 [0x43#8, 0x44#8]])) =
      some [[0x00#8, 0x82#8, 0xDE#8, 0xAD#8, 0xBE#8, 0xEF#8, 0x9D#8, 0xE9#8]] := by decide

/-- V1.2 and V2.4: the header parts of the frames of 126 and of 65536 bytes. -/
theorem test_encode_ext_headers :
    [encByte0 2#4 true, encByte1 (lenEnc 126).1] ++ (lenEnc 126).2 = [0x82#8, 0xFE#8, 0x00#8, 0x7E#8] ∧
    [encByte0 1#4 true, encByte1 (lenEnc 65536).1] ++ (lenEnc 65536).2 =
      [0x81#8, 0xFF#8, 0#8, 0#8, 0#8, 0#8, 0#8, 1#8, 0#8, 0#8] := by decide

/-- V2.4; the draw is used up and the block stays IDLE. -/
theorem test_text_row :
    after (fun t => (t.emitted, t.rsp.bind (·.frame), t.phase, t.keys, t.draws))
        (step (idle dflt helloKey [.offer 0x00000044#32 hello])) =
      some ([helloFrame], some helloFrame, .idle, [], 1) := by decide

/-- V2.4. -/
theorem test_pong_row :
    after (·.emitted) (step (idle dflt 0x01020304#32 [.offer 0x00000068#32 []])) =
      some [[0x8A#8, 0x80#8, 1#8, 2#8, 3#8, 4#8]] := by decide

/-- V2.4. -/
theorem test_bin_row :
    after (·.emitted) (step (idle dflt 0xFFFFFFFF#32 [.offer 0x00000048#32 [0x00#8, 0xFF#8, 0x55#8, 0xAA#8, 0x0F#8]])) =
      some [[0x82#8, 0x85#8, 0xFF#8, 0xFF#8, 0xFF#8, 0xFF#8, 0xFF#8, 0x00#8, 0xAA#8, 0x55#8, 0xF0#8]] := by decide

/-- V2.4. -/
theorem test_close_row :
    after (·.emitted) (step (idle dflt 0x11223344#32 [.offer 0x00000060#32 [0x03#8, 0xE8#8]])) =
      some [[0x88#8, 0x82#8, 0x11#8, 0x22#8, 0x33#8, 0x44#8, 0x12#8, 0xCA#8]] := by decide

/-- R152: under `SRC_RANGE` a given draw of 0 is not one the RNG answers. -/
theorem test_src_range_skips_zero : nextKey { idle srcKeys 0#32 [] with keys := [0#32, 0x80000000#32, 7#32] } = 7#32 := by decide

/-! ## DECODE and the rows of a frame -/

/-- R181: accepted in one step, with no stream access. -/
theorem test_decode_row :
    after (fun t => (t.phase, t.rsp, t.stream, t.requests)) (step { idle dflt 0#32 [.offer 0x00000001#32 []] with
        stream := helloFrame, rsp := some (errorRsp .payload) }) = some (.dHdr, none, helloFrame, []) := by decide

/-- R73: refused, the mark set, nothing consumed. -/
theorem test_reserved_rows :
    refusal (step (idle dflt 0#32 [.offer 0x00000002#32 []])) = some (.cmdReserved { idle dflt 0#32 [] with refused := true }) ∧
    refusal (step (idle dflt 0#32 [.offer 0x00000003#32 []])) = some (.cmdReserved { idle dflt 0#32 [] with refused := true }) ∧
    refusal (step (idle dflt 0#32 [.offer 0x00000005#32 []])) = some (.cmdReserved { idle dflt 0#32 [] with refused := true }) ∧
    refusal (step (idle dflt 0#32 [.offer 0x00000080#32 []])) = some (.cmdReserved { idle dflt 0#32 [] with refused := true }) := by
  decide

/-- R78 to R85: each opcode is reported as it came; RSV is not read (V2.5: all RSV bits set). -/
theorem test_frame_rows :
    (List.range 16).map (fun op => after (fun t => (t.rsp.bind (·.opcode), t.phase))
      (step (inHdr dflt [BitVec.ofNat 8 (0xF0 + op), 0#8] .whole))) =
    (List.range 16).map (fun op => some (some (BitVec.ofNat 4 op), Phase.idle)) := by decide

/-- V1.6: `88 00` decodes to opcode 8, final 1, masked 0, length 0. -/
theorem test_close_frame :
    after (·.rsp) (step (inHdr dflt [0x88#8, 0x00#8] .whole)) =
      some (some { status := 0#3, cmd := 1#2, opcode := some 8#4, final := some true, masked := some false,
                   length := some 0#32, maskKey := none, payload := some [], frame := none }) := by decide

/-- P1: header `81 85` goes to the key with length 5. -/
theorem test_text_frame :
    after (fun t => (t.phase, t.opc, t.fin)) (step (inHdr dflt helloFrame .whole)) = some (.dKey, some 1#4, some true) ∧
    after (fun t => (t.msk, t.len7, t.len)) (step (inHdr dflt helloFrame .whole)) = some (some true, some 5#7, some 5#32) ∧
    after (fun t => (t.hdr, t.requests)) (step (inHdr dflt helloFrame .whole)) = some ([0x81#8, 0x85#8], [2]) := by
  decide

/-- V2.6: `81 06` with `PAYLOAD_MAX = 5` is refused in D_HDR, and the payload is not read. -/
theorem test_inline_length_refused :
    ((refusal (step (inHdr max5 [0x81#8, 0x06#8, 0x41#8] .whole))).bind fun q =>
      match q with | .lengthUnsupported t => some (t.stream, t.refused, t.rsp, t.len) | _ => none) =
      some ([0x41#8], true, none, none) := by decide

/-- R182: the LEN_INLINE row, alone. -/
theorem test_lenInline_row :
    after (fun t => (t.phase, t.len)) (exec (.lenInline 5#7) (inExt 0x05#8 dflt [] .whole)) = some (.dPay, some 5#32) := by decide

/-- V2.5: `82 7E 01 00`; V2.6: `7E 00 06` with `PAYLOAD_MAX = 5`. -/
theorem test_lenExt16_row :
    after (fun t => (t.phase, t.len, t.requests)) (step (inExt 0x7E#8 dflt [1#8, 0#8] .whole)) = some (.dPay, some 256#32, [2]) ∧
    (refusal (step (inExt 0x7E#8 max5 [0#8, 6#8, 0x41#8] .whole))).isSome = true := by decide

/-- V2.5 and V2.6: a non-minimal length is accepted, 2^32 is refused. -/
theorem test_lenExt64_row :
    after (fun t => (t.phase, t.len, t.requests)) (step (inExt 0xFF#8 dflt [0#8, 0#8, 0#8, 0#8, 0#8, 0#8, 0#8, 3#8] .whole)) =
      some (.dKey, some 3#32, [8]) ∧
    (refusal (step (inExt 0x7F#8 dflt [0#8, 0#8, 0#8, 1#8, 0#8, 0#8, 0#8, 0#8] .whole))).isSome = true := by decide

/-- R88, R194: the MASK_OFF row, alone: an empty unmasked frame is complete. -/
theorem test_maskOff_row :
    after (fun t => (t.phase, t.rsp.bind (·.maskKey))) (exec .maskOff (inFrame .dExt 0x00#8 (some 0#32) none dflt [] .whole)) =
      some (.idle, none) := by decide

/-- R184's example; and V2.5 `81 80 01 02 03 04`: the key of an empty frame is read and reported. -/
theorem test_maskOn_row :
    after (fun t => (t.phase, t.key)) (step (inKey dflt (helloFrame.drop 2) .whole)) =
      some (.dPay, some ⟨0x37#8, 0xFA#8, 0x21#8, 0x3D#8⟩) ∧
    after (fun t => (t.phase, t.rsp.bind (·.maskKey), t.rsp.bind (·.payload)))
        (step (inFrame .dKey 0x80#8 (some 0#32) none dflt [1#8, 2#8, 3#8, 4#8] .whole)) =
      some (.idle, some ⟨1#8, 2#8, 3#8, 4#8⟩, some []) := by decide

/-- P1's last step: the payload is unmasked, the registers are discarded. -/
theorem test_payload_step_completes :
    after (fun t => (t.phase, t.rsp.bind (·.payload), t.buf, t.opc)) (step (inPayMasked dflt (helloFrame.drop 6) .whole)) =
      some (.idle, some hello, [], none) := by decide

/-- R185's example: an answer of 2 bytes is kept as it arrived. -/
theorem test_payload_step_goes_on :
    after (fun t => (t.phase, t.buf, t.requests)) (step (inPayMasked dflt (helloFrame.drop 6) (.chunked [.data 2]))) =
      some (.dPay, [0x7F#8, 0x9F#8], [5]) := by decide

/-! ## Errors, holding, HOST's moves -/

/-- V2.6 and V2.7: the status of a failed read in each phase, with the decode registers gone. -/
theorem test_error_status :
    after (·.rsp) (step (inHdr dflt [0x81#8] .whole)) = some (some (failRsp 1#3)) ∧
    after (·.rsp) (step (inExt 0x7E#8 dflt [0#8] .whole)) = some (some (failRsp 2#3)) ∧
    after (·.rsp) (step (inKey dflt [0x37#8, 0xFA#8] .whole)) = some (some (failRsp 3#3)) ∧
    after (·.rsp) (step (inPay dflt hello (.chunked [.err]))) = some (some (failRsp 4#3)) := by decide

/-- V2.7: `81 00` in answers of one byte: SINGLE_SHOT fails and has consumed the byte, LOOP goes on. -/
theorem test_hdr_read :
    after (fun t => (t.rsp, t.stream)) (step (inHdr dflt [0x81#8, 0#8] (.chunked [.data 1, .data 1]))) =
      some (some (failRsp 1#3), [0#8]) ∧
    after (fun t => (t.phase, t.part, t.requests)) (step (inHdr looping [0x81#8, 0#8] (.chunked [.data 1, .data 1]))) =
      some (.dHdr, [0x81#8], [2]) := by decide

/-- R235. -/
theorem test_observe_refused : (refusal (step (inHdr observing [] .whole))).isSome = true := by decide

/-- R249. -/
theorem test_host_reads :
    fault (step (idle dflt 0#32 [.read .status])) = some .rspNoValue ∧
    fault (step { idle dflt 0#32 [.read .payload] with rsp := some (errorRsp .payload) }) = some (.fieldAbsent .payload) := by
  decide

/-- R260: a reset in D_PAY. -/
theorem test_reset :
    after (fun t => (t.phase, t.rsp, t.opc, t.stream)) (step { inPay dflt hello .whole with host := [.reset] }) =
      some (.idle, none, none, hello) := by decide

/-- R33: the mark is sticky. -/
theorem test_refused_is_sticky :
    (refusal (step { idle dflt 0#32 [] with refused := true })).isSome = true ∧
    after (·.refused) (step { idle dflt 0#32 [.reset] with refused := true }) = some true := by decide

/-- A table word placed after reset runs at once: DECODE (32 bits) and the ping header `89 00` (16 bits, byte 0 high). -/
theorem test_placed_words_run :
    after (·.phase) (step (State.reset.withFetchWord 32 0x00000001)) = some .dHdr ∧
    after (fun t => t.rsp.bind (·.opcode)) (step (State.reset.withFetchWord 16 0x8900)) = some (some 9#4) := by decide

/-! ## Witnesses: states and operands that meet the hypotheses of each statement, clause by clause -/

/-- The invariant holds of an IDLE block, and of a DECODE in each phase. -/
theorem test_inv_idle (cfg : Config) (key : Word) (moves : List HostMove) : Inv (idle cfg key moves) :=
  ⟨⟨rfl, rfl, rfl, rfl, rfl, rfl, rfl, rfl, rfl⟩, fun _ h => by cases h⟩

theorem test_inv_inHdr (cfg : Config) (stream : Bytes) (plan : StreamPlan) : Inv (inHdr cfg stream plan) :=
  ⟨⟨⟨rfl, rfl, rfl, rfl, rfl, rfl, rfl, rfl, rfl⟩, ⟨show 0 < 2 by decide, fun _ => rfl⟩, rfl⟩, fun _ h => by cases h⟩

theorem test_inv_inExt (stream : Bytes) (plan : StreamPlan) : Inv (inExt 0x7E#8 dflt stream plan) :=
  ⟨⟨⟨_, _, rfl, rfl, rfl, rfl, rfl⟩, ⟨_, rfl, show 0 < extSize 126#7 by decide, fun _ => rfl⟩, rfl, rfl, rfl, rfl⟩, fun _ h => by cases h⟩

theorem test_inv_inKey (stream : Bytes) (plan : StreamPlan) : Inv (inKey dflt stream plan) :=
  ⟨⟨⟨_, _, rfl, rfl, rfl, rfl, rfl⟩, ⟨_, _, rfl, rfl, show 5 ≤ dflt.payloadMax.toNat by decide, by decide, by decide⟩, rfl,
    ⟨show 0 < 4 by decide, fun _ => rfl⟩,
    rfl, rfl, rfl⟩, fun _ h => by cases h⟩

theorem test_inv_inPay (stream : Bytes) (plan : StreamPlan) : Inv (inPay dflt stream plan) :=
  ⟨⟨⟨_, _, rfl, rfl, rfl, rfl, rfl⟩, ⟨_, _, rfl, rfl, show 5 ≤ dflt.payloadMax.toNat by decide, by decide, by decide⟩,
    ⟨_, rfl, show 0 < 5 by decide⟩, show some (hdrMsk 0x05#8) = some true ↔ (none : Option Key).isSome = true by decide,
    rfl, rfl⟩, fun _ h => by cases h⟩

theorem test_witness_DecodeOfEncode :
    (Instr.text (List.replicate 5 0#8)).wf 5#32 = true ∧ (Instr.lenInline 125#7).wf 5#32 = true := by decide

theorem test_witness_EncodeOfDecode :
    decode 5#32 (.command 0x00000044#32 (List.replicate 5 0#8)) = .ok (.text (List.replicate 5 0#8)) ∧
    decode 5#32 (.maskKey false []) = .ok .maskOff := by decide

/-- One state for each clause, at the words and payload sizes where the clauses meet. -/
theorem test_witness_CommandWordClassified :
    (∀ w P, (idle max5 0#32 [.offer w P]).phase = .idle ∧ (idle max5 0#32 [.offer w P]).refused = false) ∧
    128 ≤ (0x80#32).toNat ∧
    ((0x7C#32).toNat < 128 ∧ (0x7C#32).toNat % 4 = 0 ∧ max5.payloadMax.toNat < (List.replicate 6 0#8).length) ∧
    (List.replicate 5 0#8).length ≤ max5.payloadMax.toNat ∧ (1#32).toNat = 1 ∧
    ((0x7D#32).toNat < 128 ∧ (0x7D#32).toNat % 4 = 1 ∧ (0x7D#32).toNat ≠ 1) ∧
    ((0x7F#32).toNat < 128 ∧ 2 ≤ (0x7F#32).toNat % 4) := by
  refine ⟨fun w P => ⟨rfl, rfl⟩, ?_⟩; decide

theorem test_witness_StepRunsOfferedCommand :
    (idle max5 0#32 [.offer 0x44#32 (List.replicate 5 0#8)]).phase = .idle ∧
    (idle max5 0#32 [.offer 0x44#32 (List.replicate 5 0#8)]).refused = false ∧
    decode max5.payloadMax (.command 0x44#32 (List.replicate 5 0#8)) = .ok (.text (List.replicate 5 0#8)) := by decide

theorem test_witness_StepRunsFramePart :
    (∃ s', readPart 2 (inHdr dflt helloFrame .whole) = .got [0x81#8, 0x85#8] s') ∧
    (∃ s', readPart (extSize 126#7) (inExt 0x7E#8 dflt [0#8, 5#8] .whole) = .got [0#8, 5#8] s' ∧
      decode dflt.payloadMax (.extension 126#7 [0#8, 5#8]) = .ok (.lenExt16 [0#8, 5#8])) ∧
    (∃ s', readPart 4 { inKey dflt (helloFrame.drop 2) .whole with host := [.offer 1#32 []] } =
      .got [0x37#8, 0xFA#8, 0x21#8, 0x3D#8] s') :=
  ⟨⟨_, rfl⟩, ⟨_, rfl, rfl⟩, ⟨_, rfl⟩⟩

/-- An IDLE block that is offered DECODE. -/
theorem test_witness_DecodeAccepted :
    (idle dflt 0#32 [.offer 1#32 []]).phase = .idle ∧ (idle dflt 0#32 [.offer 1#32 []]).refused = false ∧
    (idle dflt 0#32 [.offer 1#32 []]).host = .offer 1#32 [] :: [] := by decide

/-- Both forms of HostWaits, for a busy block. -/
theorem test_witness_HostWaits :
    HostWaits (inPay dflt hello .whole) ∧ HostWaits { inPay dflt hello .whole with host := [.offer 0x68#32 []] } :=
  ⟨.inl rfl, .inr ⟨_, _, _, rfl⟩⟩

theorem test_witness_StepRunsPlacedTableWord :
    State.reset.refused = false ∧ decodeTableWord 32 0x00000001 = some .decode ∧
    decodeTableWord 16 0x8900 = some (.framePing true 0#3 false 0#7) ∧
    decodeTableWord 16 0x007F = some (.lenExt64 (List.replicate 8 0#8)) := by decide

/-- Payloads at the tier boundaries (R112). -/
theorem test_witness_EncodeResult :
    ∀ n ∈ [0, 125, 126, 65535, 65536], (List.replicate n (0#8 : Byte)).length = n ∧ n < 2 ^ 32 := by
  intro n hn
  refine ⟨List.length_replicate, ?_⟩
  fin_cases hn <;> decide

theorem test_witness_EncodedFrameSize (n : Nat) :
    ∃ t, exec (.encode 1#4 true (List.replicate n 0#8)) (idle dflt 0#32 []) = .next t := ⟨_, rfl⟩

theorem test_witness_EncodeIgnoresState :
    nextKey (idle dflt helloKey []) = nextKey (inPay dflt [] .whole |> fun s => { s with keys := [helloKey] }) ∧
    ∃ t t', exec (.encode 1#4 true hello) (idle dflt helloKey []) = .next t ∧ t.emitted = [] ++ [helloFrame] ∧
      exec (.encode 1#4 true hello) { inPay dflt [] .whole with keys := [helloKey] } = .next t' :=
  ⟨rfl, _, _, rfl, by decide, rfl⟩

theorem test_witness_KeyDrawAllowed :
    (idle srcKeys 1#32 []).cfg.keyDraw = .srcRange ∧ (idle srcKeys 1#32 []).keys = [1#32] ∧
    keyAllowed .srcRange 1#32 = true ∧ keyAllowed .srcRange 0x7FFFFFFF#32 = true ∧
    keyAllowed .srcRange 0#32 = false ∧ keyAllowed .srcRange 0x80000000#32 = false ∧ keyAllowed .any32 0#32 = true := by
  decide

/-- LEN7 at 0, 1, 125, 126 and 127, with lengths at and above `PAYLOAD_MAX`. -/
theorem test_witness_FrameRowsResult :
    frameRows.length = 16 ∧ 126 ≤ (126#7 : Len7).toNat ∧ 126 ≤ (127#7 : Len7).toNat ∧
    ((6#7 : Len7).toNat ≤ 125 ∧ max5.payloadMax.toNat < (6#7 : Len7).toNat) ∧
    (5#7 : Len7).toNat ≤ max5.payloadMax.toNat ∧ (125#7 : Len7).toNat ≤ dflt.payloadMax.toNat ∧
    (1#7 : Len7).toNat ≠ 0 ∧ (0#7 : Len7).toNat = 0 ∧ (inHdr dflt [] .whole).buf = [] := by decide

theorem test_witness_LengthRowsResult :
    (inExt 0xFE#8 max5 [] .whole).msk = some true ∧ (inExt 0x7E#8 max5 [] .whole).msk = some false ∧
    ((125#7 : Len7).toNat ≤ 125 ∧ max5.payloadMax.toNat < (125#7 : Len7).toNat) ∧
    (0#8 : Byte).toNat * 256 + (5#8 : Byte).toNat ≤ max5.payloadMax.toNat ∧
    max5.payloadMax.toNat < (0#8 : Byte).toNat * 256 + (6#8 : Byte).toNat ∧
    (inExt 0x7E#8 max5 [] .whole).opc = some 1#4 ∧ (inExt 0x7E#8 max5 [] .whole).fin = some true ∧
    (inExt 0x7E#8 max5 [] .whole).buf = [] := by decide

theorem test_witness_MaskRowsResult :
    (inKey dflt [] .whole).len = some 5#32 ∧
    (∀ b1 ∈ [0x80#8, 0x00#8], (inFrame .dKey b1 (some 0#32) none dflt [] .whole).len = some 0#32 ∧
      (inFrame .dKey b1 (some 0#32) none dflt [] .whole).opc = some 1#4 ∧
      (inFrame .dKey b1 (some 0#32) none dflt [] .whole).fin = some true ∧
      (inFrame .dKey b1 (some 0#32) none dflt [] .whole).buf = []) ∧
    (inFrame .dKey 0x80#8 (some 0#32) none dflt [] .whole).msk = some true ∧
    (inFrame .dKey 0x00#8 (some 0#32) none dflt [] .whole).msk = some false := by decide

/-- Two streams, and two states of a DECODE, that differ in the RSV bits alone: before any byte is read, with one byte in
`part` under LOOP, and with the header in `hdr`. -/
theorem test_witness_RsvBitsIgnored :
    (0xF1#8 : Byte) &&& 0x8F#8 = 0x81#8 &&& 0x8F#8 ∧
    (∃ t, exec (.encode 1#4 true hello) (idle dflt 0#32 []) = .next t) ∧
    (AlikeBut 0xF1#8 0x81#8 (inHdr dflt [0xF1#8, 0#8] .whole) (inHdr dflt [0x81#8, 0#8] .whole) ∧
      ∃ t, step (inHdr dflt [0xF1#8, 0#8] .whole) = .next t) ∧
    (AlikeBut 0xF1#8 0x81#8 { inHdr looping [0#8] .whole with part := [0xF1#8] }
        { inHdr looping [0#8] .whole with part := [0x81#8] } ∧
      ∃ t, step { inHdr looping [0#8] .whole with part := [0xF1#8] } = .next t) ∧
    (AlikeBut 0xF1#8 0x81#8 { inPay dflt hello .whole with hdr := [0xF1#8, 0x05#8] } (inPay dflt hello .whole) ∧
      ∃ t, step { inPay dflt hello .whole with hdr := [0xF1#8, 0x05#8] } = .next t) :=
  ⟨by decide, ⟨_, rfl⟩, ⟨⟨rfl, .inl rfl, .inl rfl, .inr ⟨.inr ⟨rfl, rfl⟩, _, rfl, rfl⟩⟩, _, rfl⟩,
   ⟨⟨rfl, .inl rfl, .inr ⟨rfl, rfl, rfl, rfl⟩, .inl rfl⟩, _, rfl⟩,
   ⟨⟨rfl, .inr ⟨_, rfl, rfl⟩, .inl rfl, .inl rfl⟩, _, rfl⟩⟩

/-- 5 bytes missing: an answer of 4, and answers of all 5, of an unmasked and of a masked frame. -/
theorem test_witness_PayloadStepResult :
    (inPay dflt hello .whole).len = some 5#32 ∧ (inPay dflt hello .whole).buf.length < (5#32 : Word).toNat ∧
    (inPay dflt hello .whole).stream ≠ [] ∧ (inPay dflt hello .whole).msk = some false ∧
    (inPayMasked dflt hello .whole).msk = some true ∧ (inPayMasked dflt hello .whole).key = some (keyOfWord helloKey) ∧
    (inPay dflt hello (.chunked [.data 4])).plan = .chunked [.data 4] ∧ min 4 (min (5 - 0) hello.length) = 4 ∧
    min 9 (min (5 - 0) hello.length) = 5 ∧ min (5 - 0) hello.length = 5 := by decide

theorem test_witness_StreamReadAnswer :
    (∃ s', streamRead 2 (inHdr dflt helloFrame .whole) = .data [0x81#8, 0x85#8] s') ∧
    (∃ s', streamRead 2 (inHdr dflt helloFrame (.chunked [.data 0])) = .data [] s') ∧
    (∃ s', streamRead 2 (inHdr dflt helloFrame (.chunked [.err])) = .err s') ∧
    (∃ s', streamRead 2 (inHdr dflt helloFrame (.chunked [.late])) = .held s') :=
  ⟨⟨_, rfl⟩, ⟨_, rfl⟩, ⟨_, rfl⟩, ⟨_, rfl⟩⟩

theorem test_witness_StreamAnswersAdmitted :
    (∀ m ∈ [0, 11], m ≤ 11 ∧ m ≤ (inHdr dflt helloFrame .whole).stream.length) ∧ WholeReads (inHdr dflt helloFrame .whole) := by
  decide

theorem test_witness_HeaderPartRead :
    (∃ s', streamRead 2 (inHdr dflt [0x81#8] .whole) = .data [0x81#8] s') ∧
    (∃ s', streamRead 2 (inHdr dflt helloFrame .whole) = .data [0x81#8, 0x85#8] s') ∧
    (∃ s', streamRead (2 - 0) (inHdr looping [] .whole) = .data [] s') ∧
    (∃ s', streamRead (2 - 0) (inHdr looping [0x81#8] .whole) = .data [0x81#8] s') ∧
    (∃ s', streamRead (2 - 1) { inHdr looping [0x85#8] .whole with part := [0x81#8] } = .data [0x85#8] s') ∧
    (∃ s', streamRead 2 (inHdr dflt [] (.chunked [.err])) = .err s') :=
  ⟨⟨_, rfl⟩, ⟨_, rfl⟩, ⟨_, rfl⟩, ⟨_, rfl⟩, ⟨_, rfl⟩, ⟨_, rfl⟩⟩

/-- Steps that answer a next state, in every phase: the hypothesis of StreamConsumedInOrder, PhaseMovesForward,
ParametersFixed and StepKeepsInv (the invariant holds of these states, as shown above). -/
theorem test_witness_steps :
    (∃ t, step (idle dflt helloKey [.offer 0x44#32 hello]) = .next t) ∧ (∃ t, step (inHdr dflt helloFrame .whole) = .next t) ∧
    (∃ t, step (inExt 0x7E#8 dflt [0#8, 5#8] .whole) = .next t) ∧ (∃ t, step (inKey dflt (helloFrame.drop 2) .whole) = .next t) ∧
    (∃ t, step (inPay dflt hello .whole) = .next t) :=
  ⟨⟨_, rfl⟩, ⟨_, rfl⟩, ⟨_, rfl⟩, ⟨_, rfl⟩, ⟨_, rfl⟩⟩

theorem test_witness_DirectionsShareNothing :
    (∃ t, exec (.encode 1#4 true hello) (idle dflt helloKey []) = .next t) ∧
    (inPay dflt hello .whole).phase ≠ .idle ∧ ∃ t, step (inPay dflt hello .whole) = .next t :=
  ⟨⟨_, rfl⟩, by decide, _, rfl⟩

theorem test_witness_FailedReadReported :
    (inHdr dflt [0x81#8] .whole).cfg.failureMode = .propagate ∧ (inHdr dflt [0x81#8] .whole).host = [] ∧
    (∃ s', readPart 2 (inHdr dflt [0x81#8] .whole) = .failed s') ∧
    (∃ s', readPart (extSize 126#7) (inExt 0x7E#8 dflt [0#8] .whole) = .failed s') ∧
    (∃ s', readPart 4 (inKey dflt [1#8, 2#8, 3#8] .whole) = .failed s') ∧
    (∃ s', streamRead (5 - 0) (inPay dflt hello (.chunked [.err])) = .err s') ∧
    (∃ s', streamRead (5 - 0) (inPay dflt [] .whole) = .data [] s') :=
  ⟨rfl, rfl, ⟨_, rfl⟩, ⟨_, rfl⟩, ⟨_, rfl⟩, ⟨_, rfl⟩, ⟨_, rfl⟩⟩

theorem test_witness_ObserveModeRefused :
    (inHdr observing [0x81#8] .whole).cfg.failureMode = .observe ∧
    (∃ s', readPart 2 (inHdr observing [0x81#8] .whole) = .failed s') ∧
    (∃ s', readPart (extSize 126#7) (inExt 0x7E#8 observing [0#8] .whole) = .failed s') ∧
    (∃ s', readPart 4 (inKey observing [] .whole) = .failed s') ∧
    (∃ s', streamRead (5 - 0) (inPay observing hello (.chunked [.err])) = .err s') ∧
    (∃ s', streamRead (5 - 0) (inPay observing [] .whole) = .data [] s') :=
  ⟨rfl, ⟨_, rfl⟩, ⟨_, rfl⟩, ⟨_, rfl⟩, ⟨_, rfl⟩, ⟨_, rfl⟩⟩

theorem test_witness_ErrorAndEndAlike :
    (inPay dflt hello .whole).phase ≠ .idle ∧ (inPay dflt hello .whole).refused = false ∧
    HostQuiet (inPay dflt hello .whole) := by
  refine ⟨by decide, rfl, fun rest => ⟨?_, fun f => ?_⟩⟩ <;> (intro h; cases h)

theorem test_witness_DecodeOnEndedStream :
    (idle dflt 0#32 [.offer 1#32 []]).phase = .idle ∧ (idle dflt 0#32 [.offer 1#32 []]).refused = false ∧
    (idle dflt 0#32 [.offer 1#32 []]).cfg.failureMode = .propagate ∧ (idle dflt 0#32 [.offer 1#32 []]).stream = [] ∧
    WholeReads (idle dflt 0#32 [.offer 1#32 []]) ∧
    { idle dflt 0#32 [.offer 1#32 []] with plan := .chunked [.err] }.plan = .chunked (.err :: []) ∧
    { idle dflt 0#32 [.offer 1#32 []] with plan := .chunked [.data 0] }.plan = .chunked (.data 0 :: []) := by decide

theorem test_witness_CommandHeldWhileBusy :
    { inPay dflt hello .whole with host := [.offer 0x68#32 []] }.phase ≠ .idle ∧
    { inPay dflt hello .whole with host := [.offer 0x68#32 []] }.host = .offer 0x68#32 [] :: [] := by decide

/-- WaitLeavesOneStep, with a step that answers a next state; IdleBlockWaits, both clauses. -/
theorem test_witness_waits :
    { inPay dflt hello .whole with host := [.wait] }.host = .wait :: [] ∧
    { inPay dflt hello .whole with host := [.wait] }.refused = false ∧
    (∃ t, step { inPay dflt hello .whole with host := [.wait] } = .next t) ∧
    ((idle dflt 0#32 []).phase = .idle ∧ (idle dflt 0#32 []).refused = false ∧ (idle dflt 0#32 []).host = []) ∧
    (idle dflt 0#32 [.wait, .reset]).host = .wait :: [.reset] :=
  ⟨rfl, rfl, ⟨_, rfl⟩, ⟨rfl, rfl, rfl⟩, rfl⟩

theorem test_witness_HeldUntilStreamAnswers :
    Inv (inPay dflt hello (.chunked [])) ∧ Inv (inPay dflt hello (.chunked [.late])) ∧
    (inPay dflt hello (.chunked [])).phase ≠ .idle ∧ (inPay dflt hello (.chunked [.late])).host = [] :=
  ⟨test_inv_inPay _ _, test_inv_inPay _ _, by decide, rfl⟩

theorem test_witness_ResponseLasts :
    (∃ t, step (idle dflt 0#32 [.wait]) = .next t) ∧ (idle dflt 0#32 [.wait]).phase = .idle ∧
    (∃ t, step (inHdr dflt helloFrame .whole) = .next t ∧ t.phase ≠ .idle) :=
  ⟨⟨_, rfl⟩, rfl, _, rfl, by decide⟩

/-- Every clause: no response; a field that is there; a field that is not, of an error, of an ENCODE and of an unmasked
frame. -/
theorem test_witness_HostReadsResponse :
    (idle dflt 0#32 [.read .status]).rsp = none ∧ (idle dflt 0#32 [.read .status]).refused = false ∧
    (∀ c, ¬ Absent (failRsp c) .status ∧ ¬ Absent (failRsp c) .cmd ∧ Absent (failRsp c) .payload ∧
      Absent (failRsp c) .frame) ∧
    Absent (encodeRsp helloFrame) .opcode ∧ ¬ Absent (encodeRsp helloFrame) .frame ∧
    Absent (frameRsp 1#4 true false 0#32 none []) .maskKey ∧ ¬ Absent (frameRsp 1#4 true false 0#32 none []) .payload := by
  simp [idle, State.reset, Absent, failRsp, encodeRsp, frameRsp]

theorem test_witness_ResetFromAnyPhase :
    { inPay dflt hello .whole with host := [.reset] }.host = .reset :: [] := rfl

theorem test_witness_RefusedMarkSticky :
    { idle dflt 0#32 [.wait] with refused := true }.refused = true ∧
    (∃ r, step (idle dflt 0#32 [.offer 2#32 []]) = .refused r) ∧ (∃ t, step (idle dflt 0#32 [.wait]) = .next t) :=
  ⟨rfl, ⟨_, rfl⟩, ⟨_, rfl⟩⟩

/-- Each refusal of R248 is reached. -/
theorem test_witness_RefusalReasons :
    (∃ left, step (idle dflt 0#32 [.offer 0x80#32 []]) = .refused (.cmdReserved left)) ∧
    (∃ left, step (inHdr observing [] .whole) = .refused (.observeMode left)) ∧
    (∃ left, step (idle max5 0#32 [.offer 0x44#32 (List.replicate 6 0#8)]) = .refused (.lengthUnsupported left)) ∧
    (∃ left, step (inHdr max5 [0x81#8, 0x06#8] .whole) = .refused (.lengthUnsupported left)) ∧
    (∃ left, step (inExt 0x7E#8 max5 [0#8, 6#8] .whole) = .refused (.lengthUnsupported left)) :=
  ⟨⟨_, rfl⟩, ⟨_, rfl⟩, ⟨_, rfl⟩, ⟨_, rfl⟩, ⟨_, rfl⟩⟩

theorem test_witness_NoStateBetweenCommands :
    Inv (idle dflt helloKey [.offer 0x44#32 hello]) ∧ (idle dflt helloKey [.offer 0x44#32 hello]).phase = .idle ∧
    { idle dflt helloKey [.offer 0x44#32 hello] with rsp := some (failRsp 4#3), emitted := [hello], requests := [2, 5] } =
      { idle dflt helloKey [.offer 0x44#32 hello] with rsp := some (failRsp 4#3), emitted := [hello], requests := [2, 5] } ∧
    ∃ t, step (idle dflt helloKey [.offer 0x44#32 hello]) = .next t :=
  ⟨test_inv_idle _ _ _, rfl, rfl, _, rfl⟩

/-- LengthRoundTrip and LengthEncodingMinimal: their range's ends, and a longer encoding of the same length. -/
theorem test_witness_lengths :
    0 < 2 ^ 32 ∧ 4294967295 < 2 ^ 32 ∧ ([0#8, 5#8] : Bytes).length = extSize 126#7 ∧ lenDec 126#7 [0#8, 5#8] = 5 ∧
    (lenEnc 65536).2.length = 8 ∧ (lenEnc 125).2.length = 0 ∧ (lenEnc 126).2.length = 2 ∧ (lenEnc 65535).2.length = 2 := by
  decide

/-- MaskBytewise and MaskIdentities: an index, and a split at a multiple of 4. -/
theorem test_witness_masks : 4 < hello.length ∧ (hello.take 4).length % 4 = 0 := by decide

theorem test_witness_FaultsOnlyOnHostReads :
    Inv (idle dflt 0#32 [.read .status]) ∧ step (idle dflt 0#32 [.read .status]) = .fault .rspNoValue :=
  ⟨test_inv_idle _ _ _, rfl⟩

/-- A state of each phase in which STREAM answers. -/
theorem test_witness_DecodeStepProgress :
    (Inv (inHdr dflt helloFrame .whole) ∧ Answers (inHdr dflt helloFrame .whole)) ∧
    (Inv (inExt 0x7E#8 dflt [0#8] .whole) ∧ Answers (inExt 0x7E#8 dflt [0#8] .whole)) ∧
    (Inv (inKey dflt [] (.chunked [.err])) ∧ Answers (inKey dflt [] (.chunked [.err]))) ∧
    (Inv (inPay dflt hello (.chunked [.data 1])) ∧ Answers (inPay dflt hello (.chunked [.data 1]))) :=
  ⟨⟨test_inv_inHdr _ _ _, .inl rfl⟩, ⟨test_inv_inExt _ _, .inl rfl⟩,
   ⟨test_inv_inKey _ _, .inr ⟨_, _, rfl, by simp⟩⟩, ⟨test_inv_inPay _ _, .inr ⟨_, _, rfl, by simp⟩⟩⟩

/-- Three steps under LOOP, the last of them in D_PAY; one step under SINGLE_SHOT. -/
theorem test_witness_DecodeReadsBounded :
    Inv (inHdr looping (0x81#8 :: 0x05#8 :: hello) (.chunked [.data 1, .data 1, .data 2])) ∧
    (∃ t, RunsTo 3 (inHdr looping (0x81#8 :: 0x05#8 :: hello) (.chunked [.data 1, .data 1, .data 2])) t ∧ t.phase = .dPay) ∧
    Inv (inHdr dflt helloFrame .whole) ∧ (∃ t, RunsTo 1 (inHdr dflt helloFrame .whole) t ∧ t.phase ≠ .idle) :=
  ⟨test_inv_inHdr _ _ _, ⟨_, rfl, rfl⟩, test_inv_inHdr _ _ _, ⟨_, rfl, by decide⟩⟩

/-- A masked frame with an empty payload, in two answers. -/
theorem test_witness_DecodeReportsTheFrame :
    Inv (inHdr dflt [0x8A#8, 0x80#8, 1#8, 2#8, 3#8, 4#8, 9#8] .whole) ∧
    ∃ t r, RunsTo 2 (inHdr dflt [0x8A#8, 0x80#8, 1#8, 2#8, 3#8, 4#8, 9#8] .whole) t ∧ t.phase = .idle ∧
      t.rsp = some r ∧ r.status = 0#3 :=
  ⟨test_inv_inHdr _ _ _, _, _, rfl, rfl, rfl, rfl⟩

/-- V2.5: "Hello", masked and unmasked, each with a byte of the next frame behind it. -/
theorem test_witness_EveryFrameDecodes :
    helloFrame ++ [0x81#8] =
      0x81#8 :: 0x85#8 :: ([] ++ [0x37#8, 0xFA#8, 0x21#8, 0x3D#8] ++ [0x7F#8, 0x9F#8, 0x4D#8, 0x51#8, 0x58#8]) ++ [0x81#8] ∧
    Reports 0x81#8 0x85#8 [] [0x37#8, 0xFA#8, 0x21#8, 0x3D#8] [0x7F#8, 0x9F#8, 0x4D#8, 0x51#8, 0x58#8]
      (frameRsp 1#4 true true 5#32 (some ⟨0x37#8, 0xFA#8, 0x21#8, 0x3D#8⟩) hello) ∧
    Reports 0x81#8 0x05#8 [] [] hello (frameRsp 1#4 true false 5#32 none hello) ∧
    hello.length ≤ max5.payloadMax.toNat := by
  refine ⟨rfl, ⟨rfl, rfl, rfl, fun h => ?_, fun a b c d _ h => ?_⟩, ⟨rfl, rfl, rfl, fun _ => rfl, fun _ _ _ _ h => ?_⟩, by decide⟩
  · exact absurd h (by decide)
  · simp only [List.cons.injEq, and_true] at h
    obtain ⟨rfl, rfl, rfl, rfl⟩ := h
    decide
  · exact absurd h (by decide)

theorem test_witness_EncodeDecodeRoundTrip :
    (∃ v, exec (.encode 1#4 true hello) (idle dflt helloKey []) = .next v ∧ v.emitted = [] ++ [helloFrame]) ∧
    { idle max5 0#32 [.offer 1#32 []] with stream := helloFrame }.phase = .idle ∧
    WholeReads { idle max5 0#32 [.offer 1#32 []] with stream := helloFrame } ∧ hello.length ≤ max5.payloadMax.toNat :=
  ⟨⟨_, rfl, by decide⟩, rfl, rfl, by decide⟩

end Sys2Proof.Tests
end

section
/-! PROOFS. The statements about the block's state (spec/10_state.md). First what HOST's reads, the sequencer's moves and an
accepted command can do to a state; then the invariant, phase by phase; then the obligations. -/

open Sys2Proof.Claims

namespace Sys2Proof.Machine

/-! ## HOST's reads -/

theorem hostRead_next {f : RspField} {s t : State} (h : hostRead f s = .next t) : t = s := by
  unfold hostRead at h
  split at h
  · cases h
  · split at h <;> cases h
    rfl

theorem hostRead_not_refused {f : RspField} {s : State} {q : Refusal} : hostRead f s ≠ .refused q := by
  unfold hostRead
  split
  · simp
  · split <;> simp

/-- A response carries the fields that are not absent from it (R30, R32). -/
theorem Rsp.has_iff_not_absent (r : Rsp) (f : RspField) : r.has f = true ↔ ¬ Absent r f := by
  cases f <;> simp [Rsp.has, Absent, Option.isSome_iff_ne_none]

theorem hostRead_noRsp {f : RspField} {s : State} (h : s.rsp = none) : hostRead f s = .fault .rspNoValue := by
  simp [hostRead, h]

theorem hostRead_present {f : RspField} {s : State} {r : Rsp} (h : s.rsp = some r) (hf : ¬ Absent r f) :
    hostRead f s = .next s := by
  simp [hostRead, h, (r.has_iff_not_absent f).mpr hf]

theorem hostRead_absent {f : RspField} {s : State} {r : Rsp} (h : s.rsp = some r) (hf : Absent r f) :
    hostRead f s = .fault (.fieldAbsent f) := by
  have hn : ¬ r.has f = true := fun hp => (r.has_iff_not_absent f).mp hp hf
  simp [hostRead, h, hn]

/-- An error response carries `status` and `cmd` alone (R30, R197). -/
theorem absent_failRsp (c : BitVec 3) {f : RspField} (hs : f ≠ .status) (hc : f ≠ .cmd) : Absent (failRsp c) f := by
  cases f with
  | status => exact absurd rfl hs
  | cmd => exact absurd rfl hc
  | opcode | final | masked | length | maskKey | payload | frame => rfl

/-! ## An accepted command -/

/-- The rows of a command word: an ENCODE under the name of its row, a DECODE, or a row that is refused (R72). -/
theorem decodeCmd_ok {pmax w : Word} {p : Bytes} {i : Instr} (h : decodeCmd pmax w p = .ok i) :
    (∃ op final, i = encodeRow op final p) ∨ i = .decode ∨ ∀ s, exec i s = refuse .cmdReserved s := by
  unfold decodeCmd at h
  split at h
  · cases h; exact .inr (.inr fun _ => rfl)
  · split at h
    · split at h <;> cases h
      exact .inl ⟨_, _, rfl⟩
    · split at h
      · split at h <;> cases h
        · exact .inr (.inr fun _ => rfl)
        · exact .inr (.inl rfl)
      · split at h <;> cases h <;> exact .inr (.inr fun _ => rfl)

theorem accept_of_ok {w : Word} {p : Bytes} {i : Instr} {s : State} (h : decodeCmd s.cfg.payloadMax w p = .ok i) :
    accept w p s = exec i s := by
  simp [accept, h]

theorem accept_next {w : Word} {p : Bytes} {s t : State} (h : accept w p s = .next t) :
    ∃ i, decodeCmd s.cfg.payloadMax w p = .ok i ∧ exec i s = .next t := by
  unfold accept at h
  split at h
  · exact ⟨_, ‹_›, h⟩
  · cases h

/-- A command that goes on is an ENCODE or an accepted DECODE, the same one in every block of that `PAYLOAD_MAX`. -/
theorem accept_next_uniform {w : Word} {p : Bytes} {s t : State} (h : accept w p s = .next t) :
    (∃ op final, ∀ u : State, u.cfg = s.cfg → accept w p u = runEncode op final p u) ∨
    ∀ u : State, u.cfg = s.cfg → accept w p u = .next (acceptDecode u) := by
  obtain ⟨i, hi, h⟩ := accept_next h
  have hu : ∀ u : State, u.cfg = s.cfg → accept w p u = exec i u := fun u hc => accept_of_ok (by rw [hc]; exact hi)
  obtain ⟨op, final, rfl⟩ | rfl | hr := decodeCmd_ok hi
  · exact .inl ⟨op, final, fun u hc => (hu u hc).trans (exec_encodeRow op final p u)⟩
  · exact .inr hu
  · rw [hr] at h; cases h

/-- What a command that goes on leaves: the ENCODE's or the accepted DECODE's next state. -/
theorem accept_next_cases {w : Word} {p : Bytes} {s t : State} (h : accept w p s = .next t) :
    (∃ op final, runEncode op final p s = .next t) ∨ t = acceptDecode s := by
  obtain ⟨op, final, hu⟩ | hu := accept_next_uniform h
  · exact .inl ⟨op, final, (hu s rfl).symm.trans h⟩
  · exact .inr (Host.Outcome.next.inj (h.symm.trans (hu s rfl)))

theorem runEncode_phase {op : Opcode} {final : Bool} {p : Bytes} {s t : State} (h : runEncode op final p s = .next t) :
    t.phase = s.phase := by
  cases h; rfl

theorem accept_phase {w : Word} {p : Bytes} {s t : State} (h : accept w p s = .next t) :
    t.phase = s.phase ∨ t.phase = .dHdr := by
  obtain ⟨op, final, h⟩ | rfl := accept_next_cases h
  · exact .inl (runEncode_phase h)
  · exact .inr rfl

theorem accept_cfg_mark {w : Word} {p : Bytes} {s t : State} (h : accept w p s = .next t) :
    t.cfg = s.cfg ∧ t.refused = s.refused := by
  obtain ⟨op, final, h⟩ | rfl := accept_next_cases h
  · cases h; exact ⟨rfl, rfl⟩
  · exact ⟨rfl, rfl⟩

/-! ## What no step changes, and what a refusal leaves -/

/-- A step that goes on is a reset, a read, the block's own step or a command, each after some of HOST's moves. -/
theorem step_next {s t : State} (h : step s = .next t) :
    (∃ rest, t = resetBlock { s with host := rest }) ∨
    (∃ rest, t = { s with host := rest }) ∨
    (∃ moves, phaseStep { s with host := moves } = .next t) ∨
    (s.phase = .idle ∧ ∃ w p rest, accept w p { s with host := rest } = .next t) := by
  obtain ⟨rest, -, hs⟩ | ⟨-, -, hs⟩ | ⟨-, f, rest, -, hs⟩ | ⟨-, rest, -, hs⟩ | ⟨-, hi, w, p, rest, -, hs⟩ | ⟨-, -, hs⟩ :=
    step_cases s
  all_goals rw [hs] at h
  · exact .inl ⟨rest, (Host.Outcome.next.inj h).symm⟩
  · cases h
  · exact .inr (.inl ⟨rest, hostRead_next h⟩)
  · exact .inr (.inr (.inl ⟨rest, h⟩))
  · exact .inr (.inr (.inr ⟨hi, w, p, rest, h⟩))
  · exact .inr (.inr (.inl ⟨s.host, h⟩))

theorem step_cfg_mark {s t : State} (h : step s = .next t) : t.cfg = s.cfg ∧ t.refused = s.refused := by
  obtain ⟨rest, rfl⟩ | ⟨rest, rfl⟩ | ⟨moves, h⟩ | ⟨-, w, p, rest, h⟩ := step_next h
  · exact ⟨rfl, rfl⟩
  · exact ⟨rfl, rfl⟩
  · have hb := phaseStep_block h
    exact ⟨hb.cfg, hb.refused⟩
  · obtain ⟨hc, hm⟩ := accept_cfg_mark h
    exact ⟨hc, hm⟩

/-- A refusal that carries a marked state (R33). -/
def LeavesMark (q : Refusal) : Prop :=
  ∃ left, left.refused = true ∧
    (q = .cmdReserved left ∨ q = .lengthUnsupported left ∨ q = .observeMode left ∨ q = .alreadyRefused left)

theorem phaseStep_refused_leavesMark {s : State} {q : Refusal} (h : phaseStep s = .refused q) : LeavesMark q := by
  obtain ⟨-, left, hl, ⟨rfl, -⟩ | ⟨rfl, -⟩⟩ := phaseStep_refused h
  · exact ⟨left, hl, .inr (.inr (.inl rfl))⟩
  · exact ⟨left, hl, .inr (.inl rfl)⟩

theorem accept_refused_leavesMark {w : Word} {p : Bytes} {s : State} {q : Refusal} (h : accept w p s = .refused q) :
    LeavesMark q := by
  obtain ⟨op, final, -, hs⟩ | hs | hs | hs := accept_cases w p s
  all_goals rw [hs] at h; cases h
  · exact ⟨_, rfl, .inl rfl⟩
  · exact ⟨_, rfl, .inr (.inl rfl)⟩

theorem step_refused_leavesMark {s : State} {q : Refusal} (h : step s = .refused q) : LeavesMark q := by
  obtain ⟨rest, -, hs⟩ | ⟨hr, -, hs⟩ | ⟨-, f, rest, -, hs⟩ | ⟨-, rest, -, hs⟩ | ⟨-, -, w, p, rest, -, hs⟩ | ⟨-, -, hs⟩ :=
    step_cases s
  all_goals rw [hs] at h
  · cases h
  · cases h; exact ⟨s, hr, .inr (.inr (.inr rfl))⟩
  · exact absurd h hostRead_not_refused
  · exact phaseStep_refused_leavesMark h
  · exact accept_refused_leavesMark h
  · exact phaseStep_refused_leavesMark h

/-! ## The order of the phases -/

/-- The place of a phase in the order of R24. -/
def Phase.rank : Phase → Nat
  | .idle => 0
  | .dHdr => 1
  | .dExt => 2
  | .dKey => 3
  | .dPay => 4

theorem complete_phase {s t : State} (h : complete s = .next t) : t.phase = .idle := by
  obtain ⟨_, _, _, _, -, -, -, -, ⟨-, _, -, rfl⟩ | ⟨-, rfl⟩⟩ := complete_next h <;> rfl

theorem enterPayload_phase {s t : State} (h : enterPayload s = .next t) : t.phase = .idle ∨ t.phase = .dPay := by
  obtain ⟨_, -, ⟨-, h⟩ | ⟨-, rfl⟩⟩ := enterPayload_next h
  · exact .inl (complete_phase h)
  · exact .inr rfl

theorem setLength_phase {n : Nat} {s t : State} (h : setLength n s = .next t) :
    t.phase = .idle ∨ t.phase = .dKey ∨ t.phase = .dPay := by
  obtain ⟨-, rfl⟩ | ⟨-, h⟩ := afterLength_next (setLength_next h).2
  · exact .inr (.inl rfl)
  · exact (enterPayload_phase h).imp_right .inr

theorem runHeader_phase {op : Opcode} {fin masked : Bool} {len7 : Len7} {s t : State}
    (h : runHeader op fin masked len7 s = .next t) :
    t.phase = .idle ∨ t.phase = .dExt ∨ t.phase = .dKey ∨ t.phase = .dPay := by
  obtain ⟨-, rfl⟩ | ⟨-, h⟩ := runHeader_next h
  · exact .inr (.inl rfl)
  · exact (setLength_phase h).imp_right .inr

theorem raiseError_phase {e : FrameError} {s t : State} (h : raiseError e s = .next t) : t.phase = .idle := by
  rw [raiseError_next h]

/-- A part step stays in its phase, fails to IDLE, or goes where the part it read takes it. -/
theorem partStep_phase {n : Nat} {e : FrameError} {s t : State} {use : Bytes → State → Result}
    (h : partStep n e s use = .next t) : t.phase = .idle ∨ t.phase = s.phase ∨ ∃ b s', use b s' = .next t := by
  obtain hr | ⟨s', -, h⟩ | ⟨b, s', -, -, h⟩ := partStep_next h
  · exact .inr (.inl (readPart_readStep (.inl hr)).phase)
  · exact .inl (raiseError_phase h)
  · exact .inr (.inr ⟨b, s', h⟩)

theorem payloadStep_phase {s t : State} (h : payloadStep s = .next t) : t.phase = .idle ∨ t.phase = s.phase := by
  obtain ⟨_, -, s', hs, ⟨-, rfl⟩ | ⟨-, h⟩ | ⟨_, -, -, ⟨-, h⟩ | ⟨-, rfl⟩⟩⟩ := payloadStep_next h
  · exact .inr hs.phase
  · exact .inl (raiseError_phase h)
  · exact .inl (complete_phase h)
  · exact .inr hs.phase

/-- The block's own step ends in IDLE or does not go back in the order of R24. -/
theorem phaseStep_forward {s t : State} (h : phaseStep s = .next t) :
    t.phase = .idle ∨ (s.phase ≠ .idle ∧ s.phase.rank ≤ t.phase.rank) := by
  match hp : s.phase with
  | .idle => rw [phaseStep_idle hp] at h; cases h; exact .inl hp
  | .dHdr =>
    rw [phaseStep_dHdr hp] at h
    obtain ht | ht | ⟨b, s', h⟩ := partStep_phase h
    · exact .inl ht
    · simp [ht, hp]
    · obtain ht | ht | ht | ht := runHeader_phase h <;> simp [ht, Phase.rank]
  | .dExt =>
    match hl : s.len7 with
    | none => rw [phaseStep_dExt_fault hp hl] at h; cases h
    | some l =>
      rw [phaseStep_dExt hp hl] at h
      obtain ht | ht | ⟨b, s', h⟩ := partStep_phase h
      · exact .inl ht
      · simp [ht, hp]
      · obtain ht | ht | ht := setLength_phase h <;> simp [ht, Phase.rank]
  | .dKey =>
    rw [phaseStep_dKey hp] at h
    obtain ht | ht | ⟨b, s', h⟩ := partStep_phase h
    · exact .inl ht
    · simp [ht, hp]
    · obtain ht | ht := enterPayload_phase h <;> simp [ht, Phase.rank]
  | .dPay =>
    rw [phaseStep_dPay hp] at h
    obtain ht | ht := payloadStep_phase h <;> simp [ht, hp]

/-- A step ends in IDLE, accepts a DECODE there, or does not go back in the order of R24. -/
theorem step_forward {s t : State} (h : step s = .next t) :
    t.phase = .idle ∨ (s.phase = .idle ∧ t.phase = .dHdr) ∨ (s.phase ≠ .idle ∧ s.phase.rank ≤ t.phase.rank) := by
  obtain ⟨rest, rfl⟩ | ⟨rest, rfl⟩ | ⟨moves, h⟩ | ⟨hi, w, p, rest, h⟩ := step_next h
  · exact .inl rfl
  · by_cases hi : s.phase = .idle
    · exact .inl hi
    · exact .inr (.inr ⟨hi, le_rfl⟩)
  · exact (phaseStep_forward h).imp_right .inr
  · exact (accept_phase h).imp (fun ht => ht.trans hi) fun ht => .inl ⟨hi, ht⟩

/-! ## The invariant by phase -/

theorem phaseInv_dHdr {s : State} (h : s.phase = .dHdr) :
    PhaseInv s ↔ RegsEmpty { s with part := [] } ∧ PartUnder 2 s ∧ s.rsp = none := by
  simp [PhaseInv, h]

theorem phaseInv_dExt {s : State} (h : s.phase = .dExt) :
    PhaseInv s ↔ HeaderLatched s ∧ (∃ l, s.len7 = some l ∧ PartUnder (extSize l) s) ∧ s.len = none ∧
      s.key = none ∧ s.buf = [] ∧ s.rsp = none := by
  simp [PhaseInv, h]

theorem phaseInv_dKey {s : State} (h : s.phase = .dKey) :
    PhaseInv s ↔ HeaderLatched s ∧ LenLatched s ∧ s.msk = some true ∧ PartUnder 4 s ∧
      s.key = none ∧ s.buf = [] ∧ s.rsp = none := by
  simp [PhaseInv, h]

theorem phaseInv_dPay {s : State} (h : s.phase = .dPay) :
    PhaseInv s ↔ HeaderLatched s ∧ LenLatched s ∧ (∃ len, s.len = some len ∧ s.buf.length < len.toNat) ∧
      (s.msk = some true ↔ s.key.isSome) ∧ s.part = [] ∧ s.rsp = none := by
  simp [PhaseInv, h]

theorem phaseInv_idle {s : State} (h : s.phase = .idle) : PhaseInv s ↔ RegsEmpty s := by
  simp [PhaseInv, h]

/-- Without a response the invariant is what the phase holds. -/
theorem Inv.ofPhase {s : State} (h : PhaseInv s) (hr : s.rsp = none) : Inv s :=
  ⟨h, fun r hs => by rw [hr] at hs; cases hs⟩

/-! ## The steps of an IDLE block keep the invariant -/

theorem Inv.ofReset (s : State) : Inv (resetBlock s) :=
  Inv.ofPhase ⟨rfl, rfl, rfl, rfl, rfl, rfl, rfl, rfl, rfl⟩ rfl

theorem Inv.ofAcceptDecode (s : State) : Inv (acceptDecode s) :=
  Inv.ofPhase ⟨⟨rfl, rfl, rfl, rfl, rfl, rfl, rfl, rfl, rfl⟩, ⟨by simp, fun _ => rfl⟩, rfl⟩ rfl

theorem Inv.ofEncode {op : Opcode} {final : Bool} {p : Bytes} {s t : State} (h : Inv s) (hi : s.phase = .idle)
    (hs : runEncode op final p s = .next t) : Inv t := by
  have hreg := (phaseInv_idle hi).mp h.inPhase
  cases hs
  refine ⟨(phaseInv_idle (by exact hi)).mpr ?_, fun r hr => ?_⟩
  · exact ⟨hreg.hdr, hreg.opc, hreg.fin, hreg.msk, hreg.len7, hreg.len, hreg.part, hreg.key, hreg.buf⟩
  · cases hr; exact rspOk_encodeRsp _

theorem Inv.ofAccept {w : Word} {p : Bytes} {s t : State} (h : Inv s) (hi : s.phase = .idle)
    (hs : accept w p s = .next t) : Inv t := by
  obtain ⟨op, final, hs⟩ | rfl := accept_next_cases hs
  · exact h.ofEncode hi hs
  · exact Inv.ofAcceptDecode s

/-! ## The block's own step keeps the invariant -/

/-- A part read that stays changes the stream's side and `part` alone, and `part` is still under the part's size. -/
theorem readPart_stay_partUnder {n : Nat} {s t : State} (hp : PartUnder n s) (h : readPart n s = .stay t) :
    PartUnder n t ∧ ∃ p r c q, t = { s with plan := p, stream := r, part := c, requests := q } := by
  obtain ⟨p, rfl⟩ | ⟨hc, p, m, -, hlt, rfl⟩ := readPart_stay hp h
  · exact ⟨hp, _, _, _, _, rfl⟩
  · exact ⟨⟨hlt, fun hs => by simp [hc] at hs⟩, _, _, _, _, rfl⟩

/-- A phase's part step keeps the invariant if a read that stays keeps it and the part read leads to it. -/
theorem Inv.ofPartStep {n : Nat} {e : FrameError} {s t : State} {use : Bytes → State → Result} (hp : PartUnder n s)
    (hstay : ∀ p r c q, PartUnder n { s with plan := p, stream := r, part := c, requests := q } →
      Inv { s with plan := p, stream := r, part := c, requests := q })
    (huse : ∀ b p r q, b.length = n → use b { s with plan := p, stream := r, part := [], requests := q } = .next t →
      Inv t)
    (h : partStep n e s use = .next t) : Inv t := by
  obtain hr | ⟨s', -, h⟩ | ⟨b, s', hr, hb, h⟩ := partStep_next h
  · obtain ⟨hu, p, r, c, q, rfl⟩ := readPart_stay_partUnder hp hr
    exact hstay p r c q hu
  · exact Inv.raised h
  · obtain ⟨-, p, m, -, rfl⟩ := readPart_got hp hr
    exact huse b p _ _ hb h

/-- The header step from a state in which only the header bytes are there. -/
theorem Inv.ofRunHeader {b0 b1 : Byte} {s t : State} (hh : s.hdr = [b0, b1]) (hl : s.len = none) (hk : s.key = none)
    (hb : s.buf = []) (hp : s.part = []) (hr : s.rsp = none)
    (h : runHeader (hdrOpc b0) (hdrFin b0) (hdrMsk b1) (hdrLen7 b1) s = .next t) : Inv t := by
  have hlat : HeaderLatched (latchHeader (hdrOpc b0) (hdrFin b0) (hdrMsk b1) (hdrLen7 b1) s) :=
    ⟨b0, b1, hh, rfl, rfl, rfl, rfl⟩
  obtain ⟨he, rfl⟩ | ⟨-, h⟩ := runHeader_next h
  · refine Inv.ofPhase ⟨hlat, ⟨_, rfl, ?_, fun _ => hp⟩, hl, hk, hb, hr⟩ hr
    simp [hp]; omega
  · have h126 : (hdrLen7 b1).toNat = 126 → (hdrLen7 b1).toNat < 65536 := by omega
    exact Inv.lengthSet hlat rfl (fun _ => rfl) h126 hk hb hp hr h

theorem Inv.ofHdrStep {s t : State} (h : Inv s) (hp : s.phase = .dHdr) (hs : phaseStep s = .next t) : Inv t := by
  obtain ⟨hreg, hu, hr⟩ := (phaseInv_dHdr hp).mp h.inPhase
  rw [phaseStep_dHdr hp] at hs
  refine Inv.ofPartStep hu (fun p r c q hu' => ?_) (fun b p r q hb hs => ?_) hs
  · refine Inv.ofPhase ((phaseInv_dHdr (by exact hp)).mpr ⟨?_, hu', hr⟩) hr
    exact ⟨hreg.hdr, hreg.opc, hreg.fin, hreg.msk, hreg.len7, hreg.len, hreg.part, hreg.key, hreg.buf⟩
  · obtain ⟨b0, b1, rfl⟩ := List.length_eq_two.mp hb
    refine Inv.ofRunHeader ?_ ?_ ?_ ?_ ?_ ?_ hs
    exacts [rfl, hreg.len, hreg.key, hreg.buf, rfl, hr]

/-- What a LEN row declares is in the range of its tier (R117). -/
theorem lenDec_ext16_lt {l : Len7} {ext : Bytes} (hb : ext.length = extSize l) (hl : l.toNat = 126) :
    lenDec l ext < 65536 := by
  have hlt := unBE_lt ext
  have he : extSize l = 2 := by simp [extSize, hl]
  rw [hb, he] at hlt
  rw [lenDec_ext (by omega)]
  exact hlt

theorem Inv.ofExtStep {s t : State} (h : Inv s) (hp : s.phase = .dExt) (hs : phaseStep s = .next t) : Inv t := by
  obtain ⟨hh, ⟨l, hl, hu⟩, hlen, hk, hb, hr⟩ := (phaseInv_dExt hp).mp h.inPhase
  rw [phaseStep_dExt hp hl] at hs
  refine Inv.ofPartStep hu (fun p r c q hu' => ?_) (fun b p r q hb' hs => ?_) hs
  · exact Inv.ofPhase ((phaseInv_dExt (by exact hp)).mpr ⟨hh, ⟨l, hl, hu'⟩, hlen, hk, hb, hr⟩) hr
  · refine Inv.lengthSet (l := l) ?_ ?_ (fun hi => lenDec_inline hi b) (lenDec_ext16_lt hb') ?_ ?_ ?_ ?_ hs
    exacts [hh, hl, hk, hb, rfl, hr]

theorem Inv.ofKeyStep {s t : State} (h : Inv s) (hp : s.phase = .dKey) (hs : phaseStep s = .next t) : Inv t := by
  obtain ⟨hh, hl, hm, hu, hk, hb, hr⟩ := (phaseInv_dKey hp).mp h.inPhase
  rw [phaseStep_dKey hp] at hs
  refine Inv.ofPartStep hu (fun p r c q hu' => ?_) (fun b p r q hb' hs => ?_) hs
  · exact Inv.ofPhase ((phaseInv_dKey (by exact hp)).mpr ⟨hh, hl, hm, hu', hk, hb, hr⟩) hr
  · refine Inv.enteredPayload ?_ ?_ ?_ ?_ ?_ ?_ hs
    exacts [hh, hl, by simp [hm], hb, rfl, hr]

theorem Inv.ofPayStep {s t : State} (h : Inv s) (hp : s.phase = .dPay) (hs : phaseStep s = .next t) : Inv t := by
  obtain ⟨hh, hl, ⟨len, hlen, hlt⟩, hk, hpart, hr⟩ := (phaseInv_dPay hp).mp h.inPhase
  rw [phaseStep_dPay hp] at hs
  obtain ⟨len', hlen', s', -, ⟨hr', rfl⟩ | ⟨-, hs⟩ | ⟨b, -, hr', hs⟩⟩ := payloadStep_next hs
  · obtain ⟨-, ⟨-, rfl⟩ | ⟨c, -, rfl⟩⟩ := streamRead_held hr'
    · exact h
    · exact Inv.ofPhase ((phaseInv_dPay (by exact hp)).mpr ⟨hh, hl, ⟨len, hlen, hlt⟩, hk, hpart, hr⟩) hr
  · exact Inv.raised hs
  · obtain rfl : len' = len := Option.some.inj (hlen'.symm.trans hlen)
    obtain ⟨-, p, m, hm, rfl, rfl⟩ := streamRead_data hr'
    obtain ⟨hall, hs⟩ | ⟨hmore, rfl⟩ := hs
    · refine Inv.completed (fun l hl' => ?_) hs
      obtain rfl : len' = l := Option.some.inj (hlen.symm.trans hl')
      simpa using hall
    · refine Inv.ofPhase ((phaseInv_dPay (by exact hp)).mpr ⟨hh, hl, ⟨len', hlen, ?_⟩, hk, hpart, hr⟩) hr
      have htake : (s.stream.take m).length ≤ m := List.length_take_le m s.stream
      simp only [List.length_append] at hmore ⊢
      omega

theorem Inv.ofPhaseStep {s t : State} (h : Inv s) (hs : phaseStep s = .next t) : Inv t := by
  match hp : s.phase with
  | .idle => rw [phaseStep_idle hp] at hs; cases hs; exact h
  | .dHdr => exact h.ofHdrStep hp hs
  | .dExt => exact h.ofExtStep hp hs
  | .dKey => exact h.ofKeyStep hp hs
  | .dPay => exact h.ofPayStep hp hs

/-! ## Header fields -/

/-- The top bit of a byte. -/
theorem byte_bit7 (b : Byte) : b.getLsbD 7 = true ↔ 128 ≤ b.toNat := by
  have h : b.msb = b.getLsbD 7 := BitVec.msb_eq_getLsbD_last b
  rw [← h, BitVec.msb_eq_decide]
  simp

/-- The row of an OPCODE stands in the table at its number (R78). -/
theorem frameRow_mem (op : Opcode) : ∃ row ∈ frameRows, row.1 = op ∧
    ∀ fin rsv masked len7, frameRow op fin rsv masked len7 = row.2 fin rsv masked len7 := by
  refine ⟨frameRows[op.toNat]'op.isLt, List.getElem_mem _, ?_⟩
  obtain ⟨n, hn⟩ := op
  match n, hn with
  | 0, _ | 1, _ | 2, _ | 3, _ | 4, _ | 5, _ | 6, _ | 7, _ => exact ⟨rfl, fun _ _ _ _ => rfl⟩
  | 8, _ | 9, _ | 10, _ | 11, _ | 12, _ | 13, _ | 14, _ | 15, _ => exact ⟨rfl, fun _ _ _ _ => rfl⟩
  | n + 16, h => exact absurd h (by omega)

/-! ## The obligations -/

/-- Settles O46: by HOST's next move, and for the block's own step by its phase. -/
theorem stepKeepsInv : Obligations.StepKeepsInv := by
  intro s t hinv h
  obtain ⟨rest, rfl⟩ | ⟨rest, rfl⟩ | ⟨moves, h⟩ | ⟨hi, w, p, rest, h⟩ := step_next h
  · exact Inv.ofReset _
  · exact hinv.withHost rest
  · exact (hinv.withHost moves).ofPhaseStep h
  · exact (hinv.withHost rest).ofAccept hi h

/-- Settles O5: each field is a slice of its byte, and the row stands in the table at the number of the OPCODE. -/
theorem headerFieldsExtracted : Obligations.HeaderFieldsExtracted := by
  intro b0 b1
  refine ⟨?_, ?_, byte_bit7 b0, byte_bit7 b1, ?_, ?_⟩
  · simp [hdrOpc]
  · simp [hdrRsv, Nat.shiftRight_eq_div_pow]
  · simp [hdrLen7]
  · obtain ⟨row, hmem, hop, hrow⟩ := frameRow_mem (hdrOpc b0)
    exact ⟨row, hmem, hop, hrow _ _ _ _⟩

/-- Settles O30: a step ends in IDLE, accepts a DECODE, or does not go back in the order of the phases. -/
theorem phaseMovesForward : Obligations.PhaseMovesForward := by
  intro s t h
  obtain ht | ⟨hs, ht⟩ | ⟨hs, hle⟩ := step_forward h
  · simp [ht]
  · simp [hs, ht]
  · refine ⟨fun hp => absurd hp hs, fun hp => ?_, fun hp => ?_, fun hp => ?_⟩
    all_goals rw [hp] at hle; cases ht : t.phase <;> simp [ht, Phase.rank] at hle ⊢

/-- Settles O31: a marked block is refused with and without the offer, and an unmarked one takes its own step, which does
not look at HOST's moves. -/
theorem commandHeldWhileBusy : Obligations.CommandHeldWhileBusy := by
  intro s w payload rest hb hh
  by_cases hr : s.refused = true
  · rw [step_refused hr (by simp [hh]), step_refused (s := { s with host := [] }) hr (by simp)]
    rfl
  · replace hr : s.refused = false := by simpa using hr
    rw [step_held hr hh hb, step_quiet (s := { s with host := [] }) hr rfl]
    exact phaseStep_rehost s.host { s with host := [] }

/-- Settles O36, by HOST's next move. -/
theorem refusedMarkSticky : Obligations.RefusedMarkSticky := fun _ =>
  ⟨fun _ h => (step_cfg_mark h).2, step_refused, fun _ h => step_refused_leavesMark h⟩

/-- Settles O38, by HOST's next move. -/
theorem parametersFixed : Obligations.ParametersFixed := fun _ _ h => (step_cfg_mark h).1

/-- Settles O39: the offered word is the same command in both blocks, and it reads neither the response nor the records. -/
theorem noStateBetweenCommands : Obligations.NoStateBetweenCommands := by
  intro s s' t _ hi hs' ⟨w, p, rest, hh⟩ h
  obtain ⟨r, e, q, rfl⟩ : ∃ r e q, s' = { s with rsp := r, emitted := e, requests := q } := ⟨_, _, _, hs'⟩
  have hr : s.refused = false := by
    by_contra hr
    rw [step_refused (by simpa using hr) (by simp [hh])] at h
    cases h
  rw [step_offer hr hh hi] at h
  rw [step_offer (s := { s with rsp := r, emitted := e, requests := q }) hr hh hi]
  obtain ⟨op, final, hu⟩ | hu := accept_next_uniform h
  all_goals
    rw [hu _ rfl] at h
    cases h
    refine ⟨_, hu _ rfl, rfl, fun F hF => ?_, rfl⟩
  · obtain rfl : [encodedFrame op final p (nextKey s)] = F := List.append_cancel_left hF
    rfl
  · obtain rfl : [] = F := List.append_cancel_left ((List.append_nil _).trans hF)
    simp

/-- Settles O34: the read goes on just where the field is not absent. -/
theorem hostReadsResponse : Obligations.HostReadsResponse := by
  intro s f rest hr hh
  rw [step_read hr hh]
  refine ⟨fun h => hostRead_noRsp h, fun r h hf => hostRead_present h hf, fun r h hf => hostRead_absent h hf,
    fun c h hs hc => hostRead_absent h (absent_failRsp c hs hc), fun op fin len payload h hf => ?_⟩
  subst hf
  exact hostRead_absent h rfl

/-- Settles O45: power-on leaves what a reset leaves. -/
theorem resetMeetsInv : Obligations.ResetMeetsInv := ⟨Inv.ofReset State.reset, rfl, rfl⟩

end Sys2Proof.Machine
end

section
/-! PROOFS. The statements about the receive stream (spec/20_memory.md). First what STREAM's planned answers are and what a
command leaves of the stream; then the obligations. -/

namespace Sys2Proof.Machine

/-! ## STREAM's planned answers -/

/-- A planned answer of `k` bytes: the front of `S`, as far as the request, the plan and `S` go (R54). -/
theorem streamRead_plannedData {n k : Nat} {s : State} {c : List StreamMove} (hn : 1 ≤ n)
    (h : s.plan = .chunked (.data k :: c)) :
    streamRead n s = .data (s.stream.take (min k n))
      { s with plan := .chunked c, stream := s.stream.drop (min k n), requests := s.requests ++ [n] } := by
  simp [streamRead, h, answerData, Nat.ne_of_gt hn]

/-- A planned error consumes nothing (R53). -/
theorem streamRead_plannedErr {n : Nat} {s : State} {c : List StreamMove} (hn : 1 ≤ n)
    (h : s.plan = .chunked (.err :: c)) :
    streamRead n s = .err { s with plan := .chunked c, requests := s.requests ++ [n] } := by
  simp [streamRead, h, Nat.ne_of_gt hn]

/-! ## Steps that leave the stream alone -/

theorem runEncode_stream {op : Opcode} {final : Bool} {p : Bytes} {s t : State} (h : runEncode op final p s = .next t) :
    t.stream = s.stream ∧ t.plan = s.plan ∧ t.requests = s.requests := by
  cases h; exact ⟨rfl, rfl, rfl⟩

/-- An accepted command makes no request (R57, R181). -/
theorem accept_stream {w : Word} {p : Bytes} {s t : State} (h : accept w p s = .next t) :
    t.stream = s.stream ∧ t.plan = s.plan ∧ t.requests = s.requests := by
  obtain ⟨op, final, h⟩ | rfl := accept_next_cases h
  · exact runEncode_stream h
  · exact ⟨rfl, rfl, rfl⟩

/-- A step that leaves the stream and the record of requests alone consumes the empty front of `S`. -/
theorem consumes_nothing {s t : State} (hs : t.stream = s.stream) (hq : t.requests = s.requests) :
    ∃ c, s.stream = c ++ t.stream ∧
      ((t.requests = s.requests ∧ c = []) ∨ ∃ n, 1 ≤ n ∧ c.length ≤ n ∧ t.requests = s.requests ++ [n]) :=
  ⟨[], hs.symm, .inl ⟨hq, rfl⟩⟩

/-! ## The obligations -/

/-- Settles O24: only the block's own step reads the stream, and it consumes what answers one request. -/
theorem streamConsumedInOrder : Obligations.StreamConsumedInOrder := by
  intro s t h
  obtain ⟨rest, rfl⟩ | ⟨rest, rfl⟩ | ⟨moves, h⟩ | ⟨-, w, p, rest, h⟩ := step_next h
  · exact consumes_nothing rfl rfl
  · exact consumes_nothing rfl rfl
  · exact (phaseStep_block h).consumed
  · obtain ⟨hs, -, hq⟩ := accept_stream h
    exact consumes_nothing hs hq

/-- Settles O25: ENCODE touches the RNG and the emitted frames alone, and a busy block accepts no command. -/
theorem directionsShareNothing : Obligations.DirectionsShareNothing := by
  refine ⟨fun s t op final payload h => runEncode_stream h, fun s t hb h => ?_⟩
  obtain ⟨rest, rfl⟩ | ⟨rest, rfl⟩ | ⟨moves, h⟩ | ⟨hi, -⟩ := step_next h
  · exact ⟨rfl, rfl, rfl⟩
  · exact ⟨rfl, rfl, rfl⟩
  · have hs := phaseStep_block h
    exact ⟨hs.emitted, hs.keys, hs.draws⟩
  · exact absurd hi hb

/-- Settles O21, by the kind of the answer. -/
theorem streamReadAnswer : Obligations.StreamReadAnswer := by
  refine fun n s hn => ⟨fun b s' h => ?_, fun s' h => ?_, fun s' h => ?_, fun h => ?_⟩
  · obtain ⟨-, p, m, hm, rfl, rfl⟩ := streamRead_data h
    exact ⟨(List.length_take_le m s.stream).trans hm, List.take_append_drop m s.stream, rfl⟩
  · obtain ⟨-, p, rfl⟩ := streamRead_err h
    rfl
  · obtain ⟨-, ⟨-, rfl⟩ | ⟨c, -, rfl⟩⟩ := streamRead_held h <;> rfl
  · exact absurd (streamRead_noRequest h) (Nat.ne_of_gt hn)

/-- Settles O22: the plan that names the answer gives it. -/
theorem streamAnswersAdmitted : Obligations.StreamAnswersAdmitted := by
  refine fun n s c hn => ⟨fun m hm _ => ?_, ?_, fun hw => ?_⟩
  · have h := streamRead_plannedData (s := { s with plan := .chunked (.data m :: c) }) hn rfl
    rw [Nat.min_eq_left hm] at h
    exact ⟨_, h, rfl⟩
  · exact ⟨_, streamRead_plannedErr hn rfl, rfl⟩
  · exact ⟨_, streamRead_whole hn hw, rfl⟩

end Sys2Proof.Machine
end

section
/-! PROOFS. The statements about the encodings (spec/30_encoding.md): the decoder and the encoder against each other. First
how a word and a header byte are put together again from their fields; then the rows of an ENCODE word and of a header;
then the fields of a command word as numbers; then the obligations. -/

namespace Sys2Proof

/-! ## Words put together from their fields -/

/-- A bit of a word is its slice of width 1. -/
theorem ofBool_getLsbD_eq_extract {n : Nat} (x : BitVec n) (k : Nat) :
    BitVec.ofBool (x.getLsbD k) = x.extractLsb' k 1 := by
  ext i hi
  obtain rfl : i = 0 := by omega
  simp

theorem cmdReserved_append_cmdLow (w : Word) : cmdReserved w ++ cmdLow w = w :=
  (BitVec.extractLsb'_append_extractLsb'_eq_extractLsb' rfl).trans BitVec.extractLsb'_eq_self

theorem cmdReserved_append_fields (w : Word) : cmdReserved w ++ cmdFields w ++ cmdOf w = w := by
  have h : cmdReserved w ++ cmdFields w = w.extractLsb' 2 30 :=
    BitVec.extractLsb'_append_extractLsb'_eq_extractLsb' rfl
  rw [h]
  exact (BitVec.extractLsb'_append_extractLsb'_eq_extractLsb' rfl).trans BitVec.extractLsb'_eq_self

theorem cmdFin_append_cmdOp (w : Word) : BitVec.ofBool (cmdFin w) ++ cmdOp w = cmdFields w := by
  rw [cmdFin, ofBool_getLsbD_eq_extract]
  exact BitVec.extractLsb'_append_extractLsb'_eq_extractLsb' rfl

theorem cmdWord_of_fields (w : Word) : cmdWord (cmdReserved w) (cmdFin w) (cmdOp w) (cmdOf w) = w := by
  have h : cmdReserved w ++ BitVec.ofBool (cmdFin w) ++ cmdOp w = cmdReserved w ++ cmdFields w := by
    rw [BitVec.append_assoc, cmdFin_append_cmdOp]; rfl
  rw [cmdWord, h]
  exact cmdReserved_append_fields w

theorem headerPart_of_fields (b0 b1 : Byte) :
    headerPart (hdrOpc b0) (hdrFin b0) (hdrRsv b0) (hdrMsk b1) (hdrLen7 b1) = .header b0 b1 := by
  have h : BitVec.ofBool (hdrFin b0) ++ hdrRsv b0 = b0.extractLsb' 4 4 := by
    rw [hdrFin, ofBool_getLsbD_eq_extract]
    exact BitVec.extractLsb'_append_extractLsb'_eq_extractLsb' rfl
  have h0 : BitVec.ofBool (hdrFin b0) ++ hdrRsv b0 ++ hdrOpc b0 = b0 := by
    rw [h]
    exact (BitVec.extractLsb'_append_extractLsb'_eq_extractLsb' rfl).trans BitVec.extractLsb'_eq_self
  have h1 : BitVec.ofBool (hdrMsk b1) ++ hdrLen7 b1 = b1 := by
    rw [hdrMsk, ofBool_getLsbD_eq_extract]
    exact (BitVec.extractLsb'_append_extractLsb'_eq_extractLsb' rfl).trans BitVec.extractLsb'_eq_self
  rw [headerPart, h0, h1]

/-! ## What the decoder gives, with its words -/

/-- An instruction that is well formed, is named by its own row (log 10), and has the words `p`. -/
structure NamesPart (pmax : Word) (i : Instr) (p : Part) : Prop where
  wf : i.wf pmax = true
  named : i.canon = i
  words : encode i = p

/-- The rows of an ENCODE word: the four pseudo-instructions of R90, and ENCODE. -/
theorem encodeRow_cases (op : Opcode) (final : Bool) (p : Bytes) :
    (op = 1#4 ∧ final = true ∧ encodeRow op final p = .text p) ∨
    (op = 2#4 ∧ final = true ∧ encodeRow op final p = .bin p) ∨
    (op = 8#4 ∧ final = true ∧ encodeRow op final p = .close p) ∨
    (op = 10#4 ∧ final = true ∧ p = [] ∧ encodeRow op final p = .pong) ∨
    encodeRow op final p = .encode op final p := by
  unfold encodeRow
  split_ifs with h1 h2 h3 h4 <;> simp_all

theorem encodeRow_namesPart {pmax : Word} {p : Bytes} (op : Opcode) (final : Bool) (h : payloadFits pmax p = true) :
    NamesPart pmax (encodeRow op final p) (.command (cmdWord 0#25 final op 0#2) p) := by
  obtain ⟨rfl, rfl, hr⟩ | ⟨rfl, rfl, hr⟩ | ⟨rfl, rfl, hr⟩ | ⟨rfl, rfl, rfl, hr⟩ | hr := encodeRow_cases op final p
  · rw [hr]; exact ⟨h, rfl, rfl⟩
  · rw [hr]; exact ⟨h, rfl, rfl⟩
  · rw [hr]; exact ⟨h, rfl, rfl⟩
  · rw [hr]; exact ⟨rfl, rfl, rfl⟩
  · rw [hr]; exact ⟨h, hr, rfl⟩

theorem frameRow_namesPart (pmax : Word) (op : Opcode) (fin : Bool) (rsv : BitVec 3) (masked : Bool) (len7 : Len7) :
    NamesPart pmax (frameRow op fin rsv masked len7) (headerPart op fin rsv masked len7) := by
  obtain ⟨n, hn⟩ := op
  match n, hn with
  | 0, _ | 1, _ | 2, _ | 3, _ | 4, _ | 5, _ | 6, _ | 7, _ => exact ⟨rfl, rfl, rfl⟩
  | 8, _ | 9, _ | 10, _ | 11, _ | 12, _ | 13, _ | 14, _ | 15, _ => exact ⟨rfl, rfl, rfl⟩
  | n + 16, h => exact absurd h (by omega)

/-- A command word with `w[31:7] = 0` is put together from its other fields. -/
theorem cmdWord_of_unreserved {w : Word} (h : cmdReserved w = 0#25) :
    cmdWord 0#25 (cmdFin w) (cmdOp w) (cmdOf w) = w ∧ 0#25 ++ cmdFields w ++ cmdOf w = w := by
  rw [← h]
  exact ⟨cmdWord_of_fields w, cmdReserved_append_fields w⟩

theorem cmdOf_eq_three {w : Word} (h0 : cmdOf w ≠ 0b00#2) (h1 : cmdOf w ≠ 0b01#2) (h2 : cmdOf w ≠ 0b10#2) :
    cmdOf w = 0b11#2 := by
  revert h0 h1 h2
  generalize cmdOf w = c
  revert c
  decide

theorem decodeCmd_namesPart {pmax w : Word} {p : Bytes} {i : Instr} (h : decodeCmd pmax w p = .ok i) :
    NamesPart pmax i (.command w p) := by
  unfold decodeCmd at h
  by_cases hr : cmdReserved w = 0#25
  · rw [if_neg (not_not.mpr hr)] at h
    obtain ⟨hw, hf⟩ := cmdWord_of_unreserved hr
    split at h
    · rename_i hc
      rw [hc] at hw
      split at h <;> cases h
      have hn := encodeRow_namesPart (cmdOp w) (cmdFin w) (p := p) (pmax := pmax) ‹_›
      rwa [hw] at hn
    · split at h
      · rename_i hc
        rw [hc] at hf
        split at h <;> cases h
        · exact ⟨by simpa [Instr.wf] using ‹_›, rfl, congrArg (Part.command · p) hf⟩
        · rename_i hd
          obtain ⟨h0, rfl⟩ : cmdFields w = 0#5 ∧ p = [] := by simpa [not_or] using hd
          rw [h0] at hf
          exact ⟨rfl, rfl, congrArg (Part.command · []) hf⟩
      · split at h <;> cases h
        · rename_i hc
          rw [hc] at hf
          exact ⟨rfl, rfl, congrArg (Part.command · p) hf⟩
        · rw [cmdOf_eq_three ‹_› ‹_› ‹_›] at hf
          exact ⟨rfl, rfl, congrArg (Part.command · p) hf⟩
  · rw [if_pos hr] at h
    cases h
    exact ⟨by simpa [Instr.wf] using hr, rfl, congrArg (Part.command · p) (cmdReserved_append_cmdLow w)⟩

theorem decodeLength_namesPart {pmax : Word} {len7 : Len7} {ext : Bytes} {i : Instr} (h : decodeLength len7 ext = .ok i) :
    NamesPart pmax i (.extension len7 ext) := by
  unfold decodeLength at h
  split at h
  · cases h
  · rename_i hlen
    replace hlen : ext.length = extSize len7 := not_not.mp hlen
    obtain ⟨hl, h0⟩ | ⟨hl, h0⟩ | ⟨hl, h0⟩ := extSize_cases len7
    · rw [if_pos hl] at h
      cases h
      obtain rfl : ext = [] := List.length_eq_zero_iff.mp (hlen.trans h0)
      exact ⟨by simpa [Instr.wf] using hl, rfl, rfl⟩
    · obtain rfl : len7 = 126#7 := BitVec.eq_of_toNat_eq hl
      cases h
      exact ⟨decide_eq_true hlen, rfl, rfl⟩
    · obtain rfl : len7 = 127#7 := BitVec.eq_of_toNat_eq hl
      cases h
      exact ⟨decide_eq_true hlen, rfl, rfl⟩

theorem decodeMask_namesPart {pmax : Word} {masked : Bool} {key : Bytes} {i : Instr}
    (h : decodeMask masked key = .ok i) : NamesPart pmax i (.maskKey masked key) := by
  unfold decodeMask at h
  split at h <;> cases h <;> exact ⟨rfl, rfl, rfl⟩

/-! ## The fields of a command word as numbers -/

theorem cmdReserved_eq_zero_iff (w : Word) : cmdReserved w = 0#25 ↔ w.toNat < 128 := by
  have hw := w.isLt
  have hr : (cmdReserved w).toNat = w.toNat / 128 % 2 ^ 25 := by simp [cmdReserved, Nat.shiftRight_eq_div_pow]
  rw [← BitVec.toNat_inj, hr, BitVec.toNat_ofNat]
  omega

theorem cmdOf_eq_iff (w : Word) (c : BitVec 2) : cmdOf w = c ↔ w.toNat % 4 = c.toNat := by
  rw [← BitVec.toNat_inj]
  simp [cmdOf]

theorem cmdOp_eq (w : Word) : cmdOp w = BitVec.ofNat 4 (w.toNat / 4) := by
  apply BitVec.eq_of_toNat_eq
  simp [cmdOp, Nat.shiftRight_eq_div_pow]

theorem cmdFields_eq_zero_iff (w : Word) : cmdFields w = 0#5 ↔ w.toNat / 4 % 32 = 0 := by
  rw [← BitVec.toNat_inj]
  simp [cmdFields, Nat.shiftRight_eq_div_pow]

theorem cmdFin_eq {w : Word} (h : w.toNat < 128) : cmdFin w = decide (64 ≤ w.toNat) := by
  rw [cmdFin, BitVec.getLsbD, Nat.testBit_eq_decide_div_mod_eq, decide_eq_decide]
  omega

/-! ## The decoder on a command word, by its number (R72) -/

theorem decodeCmd_high {w : Word} (h : 128 ≤ w.toNat) (pmax : Word) (p : Bytes) :
    decodeCmd pmax w p = .ok (.reservedHighBits (cmdReserved w) (cmdLow w) p) := by
  rw [decodeCmd, if_pos (by rw [Ne, cmdReserved_eq_zero_iff]; omega)]

/-- With `w[31:7] = 0` the two low bits say which command it is. -/
theorem decodeCmd_low {w : Word} (h : w.toNat < 128) (pmax : Word) (p : Bytes) :
    decodeCmd pmax w p =
      if w.toNat % 4 = 0 then
        if payloadFits pmax p then .ok (encodeRow (BitVec.ofNat 4 (w.toNat / 4)) (decide (64 ≤ w.toNat)) p)
        else .reject .lengthUnsupported
      else if w.toNat % 4 = 1 then
        if w.toNat ≠ 1 ∨ p ≠ [] then .ok (.reservedDecodeFields (cmdFields w) p) else .ok .decode
      else if w.toNat % 4 = 2 then .ok (.reservedCmd2 (cmdFields w) p)
      else .ok (.reservedCmd3 (cmdFields w) p) := by
  have hr : cmdReserved w = 0#25 := (cmdReserved_eq_zero_iff w).mpr h
  have hd : w.toNat % 4 = 1 → (cmdFields w ≠ 0#5 ↔ w.toNat ≠ 1) := by
    rw [Ne, cmdFields_eq_zero_iff]; omega
  rw [decodeCmd, if_neg (not_not.mpr hr), ← cmdOp_eq, ← cmdFin_eq h]
  simp only [cmdOf_eq_iff, BitVec.toNat_ofNat, Nat.reducePow, Nat.reduceMod]
  by_cases h1 : w.toNat % 4 = 1
  · simp only [hd h1]
  · simp only [if_neg h1]

/-! ## The key of a draw -/

/-- The key bytes are the draw in wire order (R52). -/
theorem keyOfWord_bytes (w : Word) : (keyOfWord w).bytes = beBytes 4 w.toNat := by
  simp [keyOfWord, Key.bytes, beBytes, BitVec.extractLsb', Nat.shiftRight_eq_div_pow]

end Sys2Proof

namespace Sys2Proof.Machine

/-! ## The obligations -/

/-- Settles O1: by the row, one round trip for each. -/
theorem decodeOfEncode : Obligations.DecodeOfEncode := by
  intro pmax i
  cases i with
  | encode op final p => exact Laws.RoundTrip.encode op final p pmax
  | decode => exact Laws.RoundTrip.decode pmax
  | reservedCmd2 f p => exact Laws.RoundTrip.reservedCmd2 f p pmax
  | reservedCmd3 f p => exact Laws.RoundTrip.reservedCmd3 f p pmax
  | reservedDecodeFields f p => exact Laws.RoundTrip.reservedDecodeFields f p pmax
  | reservedHighBits h l p => exact Laws.RoundTrip.reservedHighBits h l p pmax
  | frameCont f r m l => exact Laws.RoundTrip.frameCont f r m l pmax
  | frameText f r m l => exact Laws.RoundTrip.frameText f r m l pmax
  | frameBin f r m l => exact Laws.RoundTrip.frameBin f r m l pmax
  | frameClose f r m l => exact Laws.RoundTrip.frameClose f r m l pmax
  | framePing f r m l => exact Laws.RoundTrip.framePing f r m l pmax
  | framePong f r m l => exact Laws.RoundTrip.framePong f r m l pmax
  | frameRsvd3 f r m l => exact Laws.RoundTrip.frameRsvd3 f r m l pmax
  | frameRsvd4 f r m l => exact Laws.RoundTrip.frameRsvd4 f r m l pmax
  | frameRsvd5 f r m l => exact Laws.RoundTrip.frameRsvd5 f r m l pmax
  | frameRsvd6 f r m l => exact Laws.RoundTrip.frameRsvd6 f r m l pmax
  | frameRsvd7 f r m l => exact Laws.RoundTrip.frameRsvd7 f r m l pmax
  | frameRsvdB f r m l => exact Laws.RoundTrip.frameRsvdB f r m l pmax
  | frameRsvdC f r m l => exact Laws.RoundTrip.frameRsvdC f r m l pmax
  | frameRsvdD f r m l => exact Laws.RoundTrip.frameRsvdD f r m l pmax
  | frameRsvdE f r m l => exact Laws.RoundTrip.frameRsvdE f r m l pmax
  | frameRsvdF f r m l => exact Laws.RoundTrip.frameRsvdF f r m l pmax
  | lenInline l => exact Laws.RoundTrip.lenInline l pmax
  | lenExt16 e => exact Laws.RoundTrip.lenExt16 e pmax
  | lenExt64 e => exact Laws.RoundTrip.lenExt64 e pmax
  | maskOff => exact Laws.RoundTrip.maskOff pmax
  | maskOn k => exact Laws.RoundTrip.maskOn k pmax
  | pong => exact Laws.RoundTrip.pong pmax
  | text p => exact Laws.RoundTrip.text p pmax
  | bin p => exact Laws.RoundTrip.bin p pmax
  | close p => exact Laws.RoundTrip.close p pmax

/-- Settles O2: by the kind of part. -/
theorem encodeOfDecode : Obligations.EncodeOfDecode := by
  intro pmax part i h
  have hn : NamesPart pmax i part := by
    cases part with
    | command w p => exact decodeCmd_namesPart h
    | header b0 b1 =>
      cases h
      exact headerPart_of_fields b0 b1 ▸ frameRow_namesPart pmax _ _ _ _ _
    | extension len7 ext => exact decodeLength_namesPart h
    | maskKey masked key => exact decodeMask_namesPart h
  exact ⟨hn.wf, hn.named, hn.words⟩

/-- Settles O4: by the number of the word, as the decoder reads it. -/
theorem commandWordClassified : Obligations.CommandWordClassified := by
  intro s w p rest hi hr hh
  rw [step_offer hr hh hi]
  refine ⟨fun h => ?_, fun h h0 hp => ?_, fun h h0 hp => ?_, fun h1 hp => ?_, fun h h1 hp => ?_, fun h h2 => ?_⟩
  · exact accept_of_ok (decodeCmd_high h _ p)
  all_goals have hd := decodeCmd_low (w := w) (by omega) s.cfg.payloadMax p
  · rw [if_pos h0, if_neg (by simpa [payloadFits] using hp)] at hd
    simp [accept, hd]
  · rw [if_pos h0, if_pos (by simpa [payloadFits] using hp)] at hd
    exact (accept_of_ok (s := { s with host := rest }) hd).trans (exec_encodeRow _ _ _ _)
  · rw [if_neg (by omega), if_pos (by omega), if_neg (by simp [h1, hp])] at hd
    exact accept_of_ok (s := { s with host := rest }) hd
  · rw [if_neg (by omega), if_pos h1, if_pos hp] at hd
    exact accept_of_ok (s := { s with host := rest }) hd
  · rw [if_neg (by omega), if_neg (by omega)] at hd
    split at hd <;> exact accept_of_ok (s := { s with host := rest }) hd

/-- Settles O3: the decoder is run on each word. -/
theorem specWordsDecode : Obligations.SpecWordsDecode := by
  unfold Obligations.SpecWordsDecode
  decide

/-- Settles O13: the rows run the ENCODE they expand to; the pong frame has no extension and no payload, and its key is
the draw in wire order. -/
theorem pseudoRowsRunAsEncode : Obligations.PseudoRowsRunAsEncode := by
  intro s p
  refine ⟨⟨⟨_, rfl, rfl, ?_⟩, rfl, rfl⟩, ⟨⟨_, rfl, rfl⟩, rfl, rfl⟩, ⟨⟨_, rfl, rfl⟩, rfl, rfl⟩, ⟨⟨_, rfl, rfl⟩, rfl, rfl⟩⟩
  rw [← keyOfWord_bytes]
  rfl

/-- Settles O15: each row is a refusal. -/
theorem reservedRowsRefused : Obligations.ReservedRowsRefused := fun _ _ _ _ _ => ⟨rfl, rfl, rfl, rfl⟩

end Sys2Proof.Machine
end

section
/-! PROOFS. The RSV bits (spec/30_encoding.md R77): two states alike but for the RSV bits of one header byte 0 take like
steps. First the relations that a step keeps; then the operations from the stream read up to the step; then the
obligation.

The byte can stand in `S`, in `part` or in `hdr`. Only the read of the two header bytes moves it, so every other operation
is given it in `hdr`, where nothing reads it (`HdrAlike`). -/

open Sys2Proof.Machine Sys2Proof.Claims

namespace Sys2Proof.Machine

/-! ## States and results that are alike -/

/-- Two states alike but for byte 0 of the header in `hdr`. -/
def HdrAlike (b0 c0 : Byte) (s s' : State) : Prop :=
  ∃ h, s' = { s with hdr := h } ∧ (h = s.hdr ∨ ∃ b1, s.hdr = [b0, b1] ∧ h = [c0, b1])

/-- If the first result is a next state, so is the second, and the two are related. -/
def Follows (R : State → State → Prop) (r r' : Result) : Prop := ∀ t, r = .next t → ∃ t', r' = .next t' ∧ R t t'

/-- The bytes of a part read in two states alike: the same, or those of a header with the one byte 0 and the other. -/
def BytesAlike (b0 c0 : Byte) (t : State) (b b' : Bytes) : Prop :=
  b' = b ∨ (t.phase = .dHdr ∧ ∃ bs, b = b0 :: bs ∧ b' = c0 :: bs)

/-- Answers to one request in two states alike: of the same kind, and with data the byte 0 is either not in it or the first
of it. -/
inductive ReadAlike (b0 c0 : Byte) : ReadResult → ReadResult → Prop
  | held {t t' : State} (h : AlikeBut b0 c0 t t') : ReadAlike b0 c0 (.held t) (.held t')
  | err {t t' : State} (h : AlikeBut b0 c0 t t') : ReadAlike b0 c0 (.err t) (.err t')
  | noRequest : ReadAlike b0 c0 .noRequest .noRequest
  | same {b : Bytes} {t t' : State} (h : AlikeBut b0 c0 t t') (hx : b ≠ [] → t'.stream = t.stream) :
      ReadAlike b0 c0 (.data b t) (.data b t')
  | front {bs : Bytes} {t t' : State} (hd : t.phase = .dHdr) (hp : t.part = []) (h : HdrAlike b0 c0 t t') :
      ReadAlike b0 c0 (.data (b0 :: bs) t) (.data (c0 :: bs) t')

/-- Part reads in two states alike: of the same kind, and the part that has arrived is no longer in `S` or `part`. -/
inductive PartAlike (b0 c0 : Byte) : PartResult → PartResult → Prop
  | stay {t t' : State} (h : AlikeBut b0 c0 t t') : PartAlike b0 c0 (.stay t) (.stay t')
  | failed {t t' : State} (h : AlikeBut b0 c0 t t') : PartAlike b0 c0 (.failed t) (.failed t')
  | noRequest : PartAlike b0 c0 .noRequest .noRequest
  | got {b b' : Bytes} {t t' : State} (hb : BytesAlike b0 c0 t b b') (h : HdrAlike b0 c0 t t') :
      PartAlike b0 c0 (.got b t) (.got b' t')

variable {b0 c0 : Byte} {s s' : State}

theorem Follows.next {R : State → State → Prop} {t t' : State} (h : R t t') : Follows R (.next t) (.next t') :=
  fun _ ht => ⟨t', rfl, Host.Outcome.next.inj ht ▸ h⟩

theorem Follows.fault {R : State → State → Prop} {f : Fault} {r : Result} : Follows R (.fault f) r := fun _ ht => nomatch ht

theorem Follows.refused {R : State → State → Prop} {q : Refusal} {r : Result} : Follows R (.refused q) r :=
  fun _ ht => nomatch ht

theorem Follows.mono {R Q : State → State → Prop} {r r' : Result} (h : Follows R r r') (hq : ∀ t t', R t t' → Q t t') :
    Follows Q r r' := fun t ht =>
  let ⟨t', hr, ha⟩ := h t ht
  ⟨t', hr, hq t t' ha⟩

theorem HdrAlike.alike (h : HdrAlike b0 c0 s s') : AlikeBut b0 c0 s s' := by
  obtain ⟨h, rfl, hh⟩ := h
  exact ⟨rfl, hh, .inl rfl, .inl rfl⟩

end Sys2Proof.Machine

namespace Sys2Proof.Claims

variable {b0 c0 : Byte} {s s' : State}

theorem AlikeBut.plan (h : AlikeBut b0 c0 s s') : s'.plan = s.plan := by rw [h.others]
theorem AlikeBut.requests (h : AlikeBut b0 c0 s s') : s'.requests = s.requests := by rw [h.others]
theorem AlikeBut.cfg (h : AlikeBut b0 c0 s s') : s'.cfg = s.cfg := by rw [h.others]
theorem AlikeBut.phase (h : AlikeBut b0 c0 s s') : s'.phase = s.phase := by rw [h.others]
theorem AlikeBut.rsp (h : AlikeBut b0 c0 s s') : s'.rsp = s.rsp := by rw [h.others]
theorem AlikeBut.refused (h : AlikeBut b0 c0 s s') : s'.refused = s.refused := by rw [h.others]
theorem AlikeBut.host (h : AlikeBut b0 c0 s s') : s'.host = s.host := by rw [h.others]
theorem AlikeBut.len7 (h : AlikeBut b0 c0 s s') : s'.len7 = s.len7 := by rw [h.others]
theorem AlikeBut.len (h : AlikeBut b0 c0 s s') : s'.len = s.len := by rw [h.others]
theorem AlikeBut.buf (h : AlikeBut b0 c0 s s') : s'.buf = s.buf := by rw [h.others]

/-- The second state is the first one with its own header bytes, `part` and stream. -/
theorem AlikeBut.form (h : AlikeBut b0 c0 s s') : ∃ hdr part stream,
    s' = { s with hdr := hdr, part := part, stream := stream } ∧
    (hdr = s.hdr ∨ ∃ b1, s.hdr = [b0, b1] ∧ hdr = [c0, b1]) ∧
    (part = s.part ∨ (s.phase = .dHdr ∧ s.cfg.hdrRead = .loop ∧ s.part = [b0] ∧ part = [c0])) ∧
    (stream = s.stream ∨
      ((s.phase = .idle ∨ (s.phase = .dHdr ∧ s.part = [])) ∧ ∃ rest, s.stream = b0 :: rest ∧ stream = c0 :: rest)) :=
  ⟨_, _, _, h.others, h.hdr, h.part, h.stream⟩

theorem AlikeBut.toHdrAlike (h : AlikeBut b0 c0 s s') (hp : s'.part = s.part) (hx : s'.stream = s.stream) :
    HdrAlike b0 c0 s s' := by
  obtain ⟨hdr, part, stream, rfl, hh, -, -⟩ := h.form
  obtain rfl : part = s.part := hp
  obtain rfl : stream = s.stream := hx
  exact ⟨hdr, rfl, hh⟩

theorem AlikeBut.withHost (h : AlikeBut b0 c0 s s') (moves : List HostMove) :
    AlikeBut b0 c0 { s with host := moves } { s' with host := moves } := by
  obtain ⟨hdr, part, stream, rfl, hh, hp, hx⟩ := h.form
  exact ⟨rfl, hh, hp, hx⟩

theorem AlikeBut.withPlan (h : AlikeBut b0 c0 s s') (plan : StreamPlan) (requests : List Nat) :
    AlikeBut b0 c0 { s with plan := plan, requests := requests } { s' with plan := plan, requests := requests } := by
  obtain ⟨hdr, part, stream, rfl, hh, hp, hx⟩ := h.form
  exact ⟨rfl, hh, hp, hx⟩

/-- When the registers are dropped in IDLE or before the header, the byte can stand in `S` alone. -/
theorem AlikeBut.dropped (h : AlikeBut b0 c0 s s') {phase : Phase} (hp : phase = .idle ∨ phase = .dHdr) (rsp : Option Rsp) :
    AlikeBut b0 c0 { dropDecode s with rsp := rsp, phase := phase } { dropDecode s' with rsp := rsp, phase := phase } := by
  obtain ⟨hdr, part, stream, rfl, -, -, hx⟩ := h.form
  exact ⟨rfl, .inl rfl, .inl rfl, hx.imp_right fun ⟨_, hs⟩ => ⟨hp.imp_right fun hd => ⟨hd, rfl⟩, hs⟩⟩

theorem AlikeBut.part_length (h : AlikeBut b0 c0 s s') : s'.part.length = s.part.length := by
  obtain hp | ⟨-, -, hp, hp'⟩ := h.part
  · rw [hp]
  · rw [hp, hp']; rfl

end Sys2Proof.Claims

namespace Sys2Proof.Machine

variable {b0 c0 : Byte} {s s' : State}

/-! ## The stream read and the part read -/

theorem answerData_alike (h : AlikeBut b0 c0 s s') (hb : s.phase ≠ .idle) (n k : Nat) :
    ReadAlike b0 c0 (answerData n k s) (answerData n k s') := by
  obtain ⟨hdr, part, stream, rfl, hh, hp, rfl | ⟨hi | ⟨hd, hpart⟩, rest, hs, rfl⟩⟩ := h.form
  · exact .same ⟨rfl, hh, hp, .inl rfl⟩ fun _ => rfl
  · exact absurd hi hb
  · obtain rfl : part = s.part := hp.resolve_right fun ⟨_, _, h1, _⟩ => by simp [hpart] at h1
    unfold answerData
    rw [hs]
    cases min k n with
    | zero => exact .same ⟨rfl, hh, .inl rfl, .inr ⟨.inr ⟨hd, hpart⟩, rest, rfl, rfl⟩⟩ fun hne => absurd rfl hne
    | succ m => exact .front hd hpart ⟨hdr, rfl, hh⟩

theorem streamRead_alike (h : AlikeBut b0 c0 s s') (hb : s.phase ≠ .idle) (n : Nat) :
    ReadAlike b0 c0 (streamRead n s) (streamRead n s') := by
  unfold streamRead
  rw [h.plan, h.requests]
  split
  · exact .noRequest
  · split
    · exact answerData_alike h hb n n
    · exact .held h
    · exact .held (h.withPlan _ _)
    · exact .err (h.withPlan _ _)
    · rename_i k c _
      exact answerData_alike (h.withPlan (.chunked c) s.requests) hb n k

theorem readPartOnce_alike (h : AlikeBut b0 c0 s s') (hb : s.phase ≠ .idle) (hc : s.cfg.hdrRead = .singleShot) (n : Nat) :
    PartAlike b0 c0 (readPartOnce n s) (readPartOnce n s') := by
  have hr := streamRead_alike h hb n
  unfold readPartOnce
  generalize hs : streamRead n s = r at hr ⊢
  generalize streamRead n s' = r' at hr ⊢
  cases hr with
  | held h => exact .stay h
  | err h => exact .failed h
  | noRequest => exact .noRequest
  | @same b t t' h hx =>
    simp only
    split
    · exact .failed h
    · rename_i hlen
      have hne : b ≠ [] := by
        rintro rfl
        exact hlen (streamRead_data hs).1
      have hct : t.cfg.hdrRead ≠ .loop := by simp [(ReadStep.ofData hs).cfg, hc]
      exact .got (.inl rfl) (h.toHdrAlike (h.part.resolve_right fun ⟨_, hl, _⟩ => hct hl) (hx hne))
  | front hd hp h =>
    simp only [List.length_cons]
    split
    · exact .failed h.alike
    · exact .got (.inr ⟨hd, _, rfl, rfl⟩) h

theorem readPartLoop_alike (h : AlikeBut b0 c0 s s') (hb : s.phase ≠ .idle) (hc : s.cfg.hdrRead = .loop) {n : Nat}
    (hn : s.phase = .dHdr → n = 2) : PartAlike b0 c0 (readPartLoop n s) (readPartLoop n s') := by
  have hr := streamRead_alike h hb (n - s.part.length)
  unfold readPartLoop
  rw [h.part_length]
  generalize hs : streamRead (n - s.part.length) s = r at hr ⊢
  generalize streamRead (n - s.part.length) s' = r' at hr ⊢
  cases hr with
  | held h => exact .stay h
  | err h => exact .failed h
  | noRequest => exact .noRequest
  | @same b t t' h hx =>
    match b with
    | [] => exact .failed h
    | x :: xs =>
      obtain ⟨hdr, part, stream, rfl, hh, hp, -⟩ := h.form
      obtain rfl : stream = t.stream := hx (by simp)
      obtain rfl | ⟨hd, -, hpart, rfl⟩ := hp
      · simp only
        split
        · exact .stay ⟨rfl, hh, .inl rfl, .inl rfl⟩
        · exact .got (.inl rfl) ⟨hdr, rfl, hh⟩
      · have h2 := hn ((ReadStep.ofData hs).phase.symm.trans hd)
        simp only [hpart]
        rw [if_neg (by simp; omega), if_neg (by simp; omega)]
        exact .got (.inr ⟨hd, _, rfl, rfl⟩) ⟨hdr, rfl, hh⟩
  | @front bs t t' hd hp h =>
    obtain ⟨hdr, rfl, hh⟩ := h
    have h2 := hn ((ReadStep.ofData hs).phase.symm.trans hd)
    simp only [hp, List.nil_append, List.length_cons]
    split
    · obtain rfl : bs = [] := List.length_eq_zero_iff.mp (by omega)
      have hct : t.cfg.hdrRead = .loop := by rw [(ReadStep.ofData hs).cfg, hc]
      exact .stay ⟨rfl, hh, .inr ⟨hd, hct, rfl, rfl⟩, .inl rfl⟩
    · exact .got (.inr ⟨hd, _, rfl, rfl⟩) ⟨hdr, rfl, hh⟩

theorem readPart_alike (h : AlikeBut b0 c0 s s') (hb : s.phase ≠ .idle) {n : Nat} (hn : s.phase = .dHdr → n = 2) :
    PartAlike b0 c0 (readPart n s) (readPart n s') := by
  unfold readPart
  rw [h.cfg]
  split
  · exact readPartOnce_alike h hb ‹_› n
  · exact readPartLoop_alike h hb ‹_› hn

/-! ## The sequencer's moves -/

theorem readReg_follows {α : Type} {R : State → State → Prop} (r : DecReg) (v : Option α) {k k' : α → Result}
    (hk : ∀ a, Follows R (k a) (k' a)) : Follows R (readReg r v k) (readReg r v k') := by
  cases v with
  | none => exact .fault
  | some a => exact hk a

theorem complete_follows (h : HdrAlike b0 c0 s s') : Follows (HdrAlike b0 c0) (complete s) (complete s') := by
  obtain ⟨hdr, rfl, -⟩ := h
  exact fun t ht => ⟨t, ht, t.hdr, rfl, .inl rfl⟩

theorem enterPayload_follows (h : HdrAlike b0 c0 s s') :
    Follows (HdrAlike b0 c0) (enterPayload s) (enterPayload s') := by
  obtain ⟨hdr, rfl, hh⟩ := h
  refine readReg_follows _ _ fun len => ?_
  split
  · exact complete_follows ⟨hdr, rfl, hh⟩
  · exact .next ⟨hdr, rfl, hh⟩

theorem afterLength_follows (h : HdrAlike b0 c0 s s') :
    Follows (HdrAlike b0 c0) (afterLength s) (afterLength s') := by
  obtain ⟨hdr, rfl, hh⟩ := h
  refine readReg_follows _ _ fun masked => ?_
  split
  · exact .next ⟨hdr, rfl, hh⟩
  · exact enterPayload_follows ⟨hdr, rfl, hh⟩

theorem setLength_follows (h : HdrAlike b0 c0 s s') (n : Nat) :
    Follows (HdrAlike b0 c0) (setLength n s) (setLength n s') := by
  obtain ⟨hdr, rfl, hh⟩ := h
  unfold setLength
  simp only
  split
  · exact afterLength_follows ⟨hdr, rfl, hh⟩
  · exact .refused

theorem runHeader_follows (h : HdrAlike b0 c0 s s') (op : Opcode) (fin masked : Bool) (len7 : Len7) :
    Follows (HdrAlike b0 c0) (runHeader op fin masked len7 s) (runHeader op fin masked len7 s') := by
  obtain ⟨hdr, rfl, hh⟩ := h
  unfold runHeader
  simp only
  split
  · exact setLength_follows (s := latchHeader op fin masked len7 s) ⟨hdr, rfl, hh⟩ _
  · exact .next ⟨hdr, rfl, hh⟩

theorem raiseError_follows (h : AlikeBut b0 c0 s s') (e : FrameError) :
    Follows (AlikeBut b0 c0) (raiseError e s) (raiseError e s') := by
  unfold raiseError
  rw [h.cfg]
  split
  · exact .next (h.dropped (.inl rfl) _)
  · exact .refused

/-! ## The block's own step -/

theorem partStep_follows (h : AlikeBut b0 c0 s s') (hb : s.phase ≠ .idle) {n : Nat} (hn : s.phase = .dHdr → n = 2)
    (e : FrameError) {use : Bytes → State → Result}
    (hu : ∀ b b' t t', t.phase = s.phase → b.length = n → BytesAlike b0 c0 t b b' → HdrAlike b0 c0 t t' →
      Follows (HdrAlike b0 c0) (use b t) (use b' t')) :
    Follows (AlikeBut b0 c0) (partStep n e s use) (partStep n e s' use) := by
  have hr := readPart_alike h hb hn
  unfold partStep
  generalize hs : readPart n s = r at hr ⊢
  generalize readPart n s' = r' at hr ⊢
  cases hr with
  | stay h => exact .next h
  | failed h => exact raiseError_follows h e
  | noRequest => exact .fault
  | @got b b' t t' hbb h =>
    have hl : b'.length = b.length := by
      obtain rfl | ⟨-, bs, rfl, rfl⟩ := hbb <;> rfl
    have hp : t.phase = s.phase := (readPart_readStep (.inr (.inr ⟨b, hs⟩))).phase
    simp only [hl]
    split
    · exact (hu b b' t t' hp ‹_› hbb h).mono fun _ _ => HdrAlike.alike
    · exact .fault

/-- The fields that the block keeps of header byte 0 are those outside the RSV bits (R25). -/
theorem hdrFields_masked (b : Byte) : hdrOpc (b &&& 0x8F#8) = hdrOpc b ∧ hdrFin (b &&& 0x8F#8) = hdrFin b := by
  constructor
  · have : (0x8F#8).extractLsb' 0 4 = BitVec.allOnes 4 := by decide
    rw [hdrOpc, BitVec.extractLsb'_and, this, BitVec.and_allOnes, hdrOpc]
  · simp [hdrFin]

theorem headerStep_follows (hm : b0 &&& 0x8F#8 = c0 &&& 0x8F#8) {b b' : Bytes} {t t' : State} (hl : b.length = 2)
    (hb : BytesAlike b0 c0 t b b') (h : HdrAlike b0 c0 t t') :
    Follows (HdrAlike b0 c0)
      (runHeader (hdrOpc (b.getD 0 0#8)) (hdrFin (b.getD 0 0#8)) (hdrMsk (b.getD 1 0#8)) (hdrLen7 (b.getD 1 0#8))
        { t with hdr := b })
      (runHeader (hdrOpc (b'.getD 0 0#8)) (hdrFin (b'.getD 0 0#8)) (hdrMsk (b'.getD 1 0#8)) (hdrLen7 (b'.getD 1 0#8))
        { t' with hdr := b' }) := by
  obtain ⟨hdr, rfl, -⟩ := h
  obtain rfl | ⟨-, bs, rfl, rfl⟩ := hb
  · exact runHeader_follows ⟨b', rfl, .inl rfl⟩ _ _ _ _
  · obtain ⟨b1, rfl⟩ : ∃ b1, bs = [b1] := List.length_eq_one_iff.mp (by simpa using hl)
    have ho : hdrOpc c0 = hdrOpc b0 := by rw [← (hdrFields_masked c0).1, ← hm, (hdrFields_masked b0).1]
    have hf : hdrFin c0 = hdrFin b0 := by rw [← (hdrFields_masked c0).2, ← hm, (hdrFields_masked b0).2]
    simp only [List.getD_cons_zero, List.getD_cons_succ, ho, hf]
    exact runHeader_follows ⟨[c0, b1], rfl, .inr ⟨b1, rfl, rfl⟩⟩ _ _ _ _

theorem payloadStep_follows (h : AlikeBut b0 c0 s s') (hp : s.phase = .dPay) :
    Follows (AlikeBut b0 c0) (payloadStep s) (payloadStep s') := by
  unfold payloadStep
  rw [h.len]
  refine readReg_follows _ _ fun len => ?_
  have hr := streamRead_alike h (by simp [hp]) (len.toNat - s.buf.length)
  rw [h.buf]
  generalize hs : streamRead (len.toNat - s.buf.length) s = r at hr ⊢
  generalize streamRead (len.toNat - s.buf.length) s' = r' at hr ⊢
  cases hr with
  | held h => exact .next h
  | err h => exact raiseError_follows h _
  | noRequest => exact .fault
  | @same b t t' h hx =>
    match b with
    | [] => exact raiseError_follows h _
    | x :: xs =>
      have hd : t.phase ≠ .dHdr := by simp [(ReadStep.ofData hs).phase, hp]
      obtain ⟨hdr, rfl, hh⟩ := h.toHdrAlike (h.part.resolve_right fun ⟨hd', _⟩ => hd hd') (hx (by simp))
      simp only [afterPayload]
      split
      · exact (complete_follows (s := { t with buf := t.buf ++ x :: xs }) ⟨hdr, rfl, hh⟩).mono fun _ _ => HdrAlike.alike
      · exact .next ⟨rfl, hh, .inl rfl, .inl rfl⟩
  | front hd => exact absurd ((ReadStep.ofData hs).phase.symm.trans hd) (by simp [hp])

/-- The block's own step in two states alike, by its phase. -/
theorem phaseStep_follows (hm : b0 &&& 0x8F#8 = c0 &&& 0x8F#8) (h : AlikeBut b0 c0 s s') :
    Follows (AlikeBut b0 c0) (phaseStep s) (phaseStep s') := by
  have hp' := h.phase
  match hp : s.phase with
  | .idle =>
    rw [phaseStep_idle hp, phaseStep_idle (hp'.trans hp)]
    exact .next h
  | .dHdr =>
    rw [phaseStep_dHdr hp, phaseStep_dHdr (hp'.trans hp)]
    exact partStep_follows h (by simp [hp]) (fun _ => rfl) _ fun b b' t t' _ hl hb ht => headerStep_follows hm hl hb ht
  | .dExt =>
    match hl : s.len7 with
    | none => rw [phaseStep_dExt_fault hp hl]; exact .fault
    | some l =>
      rw [phaseStep_dExt hp hl, phaseStep_dExt (hp'.trans hp) (h.len7.trans hl)]
      refine partStep_follows h (by simp [hp]) (by simp [hp]) _ fun b b' t t' htp _ hb ht => ?_
      obtain rfl := hb.resolve_right fun ⟨hd, _⟩ => by simp [htp, hp] at hd
      exact setLength_follows ht _
  | .dKey =>
    rw [phaseStep_dKey hp, phaseStep_dKey (hp'.trans hp)]
    refine partStep_follows h (by simp [hp]) (by simp [hp]) _ fun b b' t t' htp _ hb ht => ?_
    obtain rfl := hb.resolve_right fun ⟨hd, _⟩ => by simp [htp, hp] at hd
    obtain ⟨hdr, rfl, hh⟩ := ht
    exact enterPayload_follows ⟨hdr, rfl, hh⟩
  | .dPay =>
    rw [phaseStep_dPay hp, phaseStep_dPay (hp'.trans hp)]
    exact payloadStep_follows h hp

/-! ## HOST's moves -/

theorem hostRead_follows (h : AlikeBut b0 c0 s s') (f : RspField) :
    Follows (AlikeBut b0 c0) (hostRead f s) (hostRead f s') := by
  unfold hostRead
  rw [h.rsp]
  split
  · exact .fault
  · split
    · exact .next h
    · exact .fault

theorem runEncode_follows (h : AlikeBut b0 c0 s s') (op : Opcode) (final : Bool) (p : Bytes) :
    Follows (AlikeBut b0 c0) (runEncode op final p s) (runEncode op final p s') := by
  obtain ⟨hdr, part, stream, rfl, hh, hp, hx⟩ := h.form
  exact .next ⟨rfl, hh, hp, hx⟩

theorem accept_follows (h : AlikeBut b0 c0 s s') (w : Word) (p : Bytes) :
    Follows (AlikeBut b0 c0) (accept w p s) (accept w p s') := by
  intro t ht
  obtain ⟨op, final, hu⟩ | hu := accept_next_uniform ht
  all_goals rw [hu s rfl] at ht; rw [hu s' h.cfg]
  · exact runEncode_follows h op final p t ht
  · exact Follows.next (h.dropped (.inr rfl) none) t ht

theorem step_follows (hm : b0 &&& 0x8F#8 = c0 &&& 0x8F#8) (h : AlikeBut b0 c0 s s') :
    Follows (AlikeBut b0 c0) (step s) (step s') := by
  obtain ⟨rest, hh, hs⟩ | ⟨-, -, hs⟩ | ⟨hr, f, rest, hh, hs⟩ | ⟨hr, rest, hh, hs⟩ | ⟨hr, hi, w, p, rest, hh, hs⟩ |
    ⟨hr, hh, hs⟩ := step_cases s
  all_goals rw [hs]
  · rw [step_reset (h.host.trans hh)]
    exact .next ((h.withHost rest).dropped (.inl rfl) none)
  · exact .refused
  · rw [step_read (h.refused.trans hr) (h.host.trans hh)]
    exact hostRead_follows (h.withHost rest) f
  · rw [step_wait (h.refused.trans hr) (h.host.trans hh)]
    exact phaseStep_follows hm (h.withHost rest)
  · rw [step_offer (h.refused.trans hr) (h.host.trans hh) (h.phase.trans hi)]
    exact accept_follows (h.withHost rest) w p
  · have hs' : step s' = phaseStep s' := by
      obtain hh | ⟨hb, w, p, rest, hh⟩ := hh
      · exact step_quiet (h.refused.trans hr) (h.host.trans hh)
      · exact step_held (h.refused.trans hr) (h.host.trans hh) (h.phase ▸ hb)
    rw [hs']
    exact phaseStep_follows hm h

/-! ## The obligation -/

/-- ENCODE writes header byte 0 with RSV = 0 (R77, R153). -/
theorem hdrRsv_encByte0 (op : Opcode) (final : Bool) : hdrRsv (encByte0 op final) = 0#3 := by
  revert op final
  decide

/-- Settles O19: byte 0 of an emitted frame by its fields; the steps by HOST's next move and the block's phase. -/
theorem rsvBitsIgnored : Obligations.RsvBitsIgnored := by
  refine ⟨fun op final p s t h => ?_, fun b0 c0 s s' t hm h hs => step_follows hm h t hs⟩
  cases h
  refine ⟨encByte0 op final, _, rfl, ?_⟩
  obtain ⟨-, hrsv, -⟩ := headerFieldsExtracted (encByte0 op final) 0#8
  rw [← hrsv, hdrRsv_encByte0]
  rfl

end Sys2Proof.Machine
end

section
/-! PROOFS. The statements about the length multiplexer (spec/40_length_mux.md). First the big-endian sequences and
`LenEnc` by its tiers; then what a declared length does to a DECODE; then the obligations. -/

open Sys2Proof.Claims

namespace Sys2Proof

/-! ## Big-endian sequences -/

/-- A field with `k` bytes more than the value needs begins with `k` zero bytes (R10). -/
theorem beBytes_pad {n v : Nat} (h : v < 256 ^ n) (k : Nat) :
    beBytes (n + k) v = List.replicate k 0#8 ++ beBytes n v := by
  induction k with
  | zero => rfl
  | succ k ih =>
    have h0 : v / 256 ^ (n + k) = 0 :=
      Nat.div_eq_of_lt (h.trans_le (Nat.pow_le_pow_right (by decide) (Nat.le_add_right n k)))
    rw [← Nat.add_assoc, beBytes, h0, ih]
    rfl

theorem unBE_beBytes_of_lt {n v : Nat} (h : v < 256 ^ n) : unBE (beBytes n v) = v := by
  rw [unBE_beBytes, Nat.mod_eq_of_lt h]

end Sys2Proof

namespace Sys2Proof.Machine

/-! ## `LenEnc` -/

theorem lenEnc_inline {n : Nat} (h : n < 126) : lenEnc n = (BitVec.ofNat 7 n, []) := if_pos h

theorem lenEnc_ext16 {n : Nat} (hl : 126 ≤ n) (h : n < 65536) : lenEnc n = (126#7, beBytes 2 n) := by
  rw [lenEnc, if_neg (by omega), if_pos h]

theorem lenEnc_ext64 {n : Nat} (h : 65536 ≤ n) : lenEnc n = (127#7, beBytes 8 n) := by
  rw [lenEnc, if_neg (by omega), if_neg (by omega)]

/-- The tiers of R112. -/
theorem lenEnc_tiers (n : Nat) : n < 126 ∨ (126 ≤ n ∧ n < 65536) ∨ 65536 ≤ n := by omega

/-- The extension `LenEnc` writes has the bytes of the first tier that the length fits (R111, R116). -/
theorem lenEnc_ext_length (n : Nat) :
    (lenEnc n).2.length = if n < 126 then 0 else if n < 65536 then 2 else 8 := by
  unfold lenEnc
  split
  · rfl
  · split <;> exact beBytes_length _ _

theorem extSize_lenEnc (n : Nat) : extSize (lenEnc n).1 = (lenEnc n).2.length := by
  obtain h | ⟨hl, h⟩ | h := lenEnc_tiers n
  · have hn : (BitVec.ofNat 7 n).toNat ≤ 125 := by rw [BitVec.toNat_ofNat]; omega
    rw [lenEnc_inline h]
    exact if_pos hn
  · rw [lenEnc_ext16 hl h]; rfl
  · rw [lenEnc_ext64 h]; rfl

/-- The 8-byte extension holds every length below `2 ^ 64`. -/
theorem lenDec_lenEnc {n : Nat} (hn : n < 2 ^ 64) : lenDec (lenEnc n).1 (lenEnc n).2 = n := by
  obtain h | ⟨hl, h⟩ | h := lenEnc_tiers n
  · have hv : (BitVec.ofNat 7 n).toNat = n := by rw [BitVec.toNat_ofNat]; omega
    rw [lenEnc_inline h]
    exact (lenDec_inline (l := BitVec.ofNat 7 n) (by omega) []).trans hv
  · rw [lenEnc_ext16 hl h]
    exact (lenDec_ext (l := 126#7) (by decide) _).trans (unBE_beBytes_of_lt (by omega))
  · rw [lenEnc_ext64 h]
    exact (lenDec_ext (l := 127#7) (by decide) _).trans (unBE_beBytes_of_lt (by omega))

/-- No code with its extension is shorter than `LenEnc`'s of the length it declares (R116): a shorter tier declares no
length that needs a longer one. -/
theorem lenEnc_lenDec_ext_length_le {c : Len7} {ext : Bytes} (h : ext.length = extSize c) :
    (lenEnc (lenDec c ext)).2.length ≤ ext.length := by
  rw [lenEnc_ext_length]
  obtain ⟨hc, h0⟩ | ⟨hc, h2⟩ | ⟨-, h8⟩ := extSize_cases c
  · rw [lenDec_inline hc, if_pos (by omega)]
    exact Nat.zero_le _
  · have := lenDec_ext16_lt h hc
    split_ifs <;> omega
  · split_ifs <;> omega

/-- A frame is two header bytes, the extension, four key bytes and the payload (R114, R150). -/
theorem encodedFrame_length (op : Opcode) (final : Bool) (payload : Bytes) (draw : Word) :
    (encodedFrame op final payload draw).length = payload.length + (lenEnc payload.length).2.length + 6 := by
  simp only [encodedFrame, Key.bytes, List.length_append, List.length_cons, List.length_nil, maskBytes_length]
  omega

/-! ## A declared length -/

theorem enterPayload_empty {s : State} (h : s.len = some 0#32) : enterPayload s = complete s := by
  rw [enterPayload, h]
  rfl

theorem enterPayload_nonempty {s : State} {len : Word} (h : s.len = some len) (h0 : len ≠ 0#32) :
    enterPayload s = .next { s with phase := .dPay } := by
  rw [enterPayload, h, readReg_some, if_neg h0]

theorem afterLength_masked {s : State} (h : s.msk = some true) : afterLength s = .next { s with phase := .dKey } := by
  rw [afterLength, h]
  rfl

theorem afterLength_unmasked {s : State} (h : s.msk = some false) : afterLength s = enterPayload s := by
  rw [afterLength, h]
  rfl

/-- The completed DECODE of an empty unmasked frame (R186, R194). -/
theorem complete_empty_unmasked {s : State} {op : Opcode} {fin : Bool} (hop : s.opc = some op) (hfin : s.fin = some fin)
    (hm : s.msk = some false) (hl : s.len = some 0#32) (hb : s.buf = []) :
    complete s = .next (ended (frameRsp op fin false 0#32 none []) s) := by
  rw [complete_unmasked hop hfin hm hl, hb]
  rfl

/-- A supported length fits the register `L`, so that only an empty payload is stored as 0. -/
theorem ofNat_supported_ne_zero {n : Nat} {pmax : Word} (h : n ≤ pmax.toNat) (h0 : n ≠ 0) :
    BitVec.ofNat 32 n ≠ 0#32 := by
  intro hz
  have hv := congrArg BitVec.toNat hz
  have := pmax.isLt
  simp only [BitVec.toNat_ofNat] at hv
  omega

theorem setLength_masked {n : Nat} {s : State} (hm : s.msk = some true) (h : n ≤ s.cfg.payloadMax.toNat) :
    setLength n s = .next { s with len := some (BitVec.ofNat 32 n), phase := .dKey } :=
  (setLength_supported h).trans (afterLength_masked hm)

theorem setLength_unmasked {n : Nat} {s : State} (hm : s.msk = some false) (h : n ≤ s.cfg.payloadMax.toNat) :
    setLength n s = enterPayload { s with len := some (BitVec.ofNat 32 n) } :=
  (setLength_supported h).trans (afterLength_unmasked hm)

theorem setLength_unmasked_nonempty {n : Nat} {s : State} (hm : s.msk = some false) (h : n ≤ s.cfg.payloadMax.toNat)
    (h0 : n ≠ 0) : setLength n s = .next { s with len := some (BitVec.ofNat 32 n), phase := .dPay } :=
  (setLength_unmasked hm h).trans (enterPayload_nonempty rfl (ofNat_supported_ne_zero h h0))

theorem setLength_unmasked_zero {s : State} {op : Opcode} {fin : Bool} (hm : s.msk = some false) (hop : s.opc = some op)
    (hfin : s.fin = some fin) (hb : s.buf = []) :
    setLength 0 s = .next (ended (frameRsp op fin false 0#32 none []) s) := by
  rw [setLength_unmasked hm (Nat.zero_le _), enterPayload_empty rfl]
  exact complete_empty_unmasked hop hfin hm rfl hb

/-! ## The LEN rows -/

theorem exec_lenInline {l : Len7} (h : l.toNat ≤ 125) (s : State) : exec (.lenInline l) s = setLength l.toNat s :=
  congrArg (setLength · s) (lenDec_inline h [])

theorem exec_lenExt16 (ext : Bytes) (s : State) : exec (.lenExt16 ext) s = setLength (unBE ext) s :=
  congrArg (setLength · s) (lenDec_ext (by decide) ext)

theorem exec_lenExt64 (ext : Bytes) (s : State) : exec (.lenExt64 ext) s = setLength (unBE ext) s :=
  congrArg (setLength · s) (lenDec_ext (by decide) ext)

/-! ## The obligations -/

/-- Settles O40, by the tier of the length. -/
theorem lengthRoundTrip : Obligations.LengthRoundTrip := fun n hn =>
  ⟨extSize_lenEnc n, lenDec_lenEnc (by omega)⟩

/-- Settles O41: the size of the extension gives the tier; the long form of a length is its 8 bytes, four of them
padding. -/
theorem lengthEncodingMinimal : Obligations.LengthEncodingMinimal := by
  intro n hn
  have hsize := lenEnc_ext_length n
  refine ⟨fun c ext he hd => ?_, fun h8 => ?_, ?_, ?_, beBytes 8 n, beBytes_length 8 n, ?_⟩
  · exact hd ▸ lenEnc_lenDec_ext_length_le he
  · have hl : 65536 ≤ n := by split_ifs at hsize <;> omega
    rw [lenEnc_ext64 hl, beBytes_pad (n := 4) (by omega) 4]
    rfl
  · split_ifs at hsize <;> omega
  · split_ifs at hsize <;> omega
  · rw [lenDec_ext (by decide), unBE_beBytes_of_lt (by omega)]

/-- Settles O10: the frame is 6 bytes and the extension longer than its payload. -/
theorem encodedFrameSize : Obligations.EncodedFrameSize := by
  intro op final payload s t h
  cases h
  have hsize := lenEnc_ext_length payload.length
  refine ⟨_, rfl, fun h => ?_, fun hl h => ?_, fun h => ?_⟩
  all_goals
    rw [encodedFrame_length]
    split_ifs at hsize <;> omega

/-- Settles O17: each LEN row declares a length, and the rest is what setting that length does. -/
theorem lengthRowsResult : Obligations.LengthRowsResult := by
  intro s masked hm i n hi
  have hexec : exec i s = setLength n s := by
    obtain ⟨l, rfl, hl, rfl⟩ | ⟨a, b, rfl, rfl⟩ | ⟨a, b, c, d, e, f, g, h, rfl, rfl⟩ := hi
    · exact exec_lenInline hl s
    · rw [exec_lenExt16]
      simp [unBE]
    · rw [exec_lenExt64]
      simp [unBE, Nat.add_assoc]
  rw [hexec]
  refine ⟨setLength_unsupported, ?_, ?_, ?_⟩
  · rintro h rfl
    exact setLength_masked hm h
  · rintro h rfl h0
    exact setLength_unmasked_nonempty hm h h0
  · rintro op fin rfl rfl hop hfin hb
    exact setLength_unmasked_zero hm hop hfin hb

end Sys2Proof.Machine
end

section
/-! PROOFS. The statements about the mask engine (spec/41_mask_engine.md). First the key byte at an index; then the
engine as a map over the payload with its indices, from which the obligations follow. -/

namespace Sys2Proof.Machine

/-! ## The key byte -/

theorem keyByte_eq_getD_bytes (k : Key) (i : Nat) : keyByte k i = k.bytes.getD (i % 4) 0#8 := by
  have hr : i % 4 < 4 := Nat.mod_lt i (by decide)
  rw [← keyByte_mod]
  interval_cases i % 4 <;> rfl

@[simp] theorem keyByte_const (c : Byte) (i : Nat) : keyByte ⟨c, c, c, c⟩ i = c := by
  unfold keyByte
  split <;> rfl

/-- Byte `i` of the rotated key (R134), for every index and not only the first four. -/
theorem keyByte_rotKey (k : Key) (r i : Nat) : keyByte (rotKey k r) i = keyByte k (i + r) := by
  have hr : i % 4 < 4 := Nat.mod_lt i (by decide)
  have hk : keyByte k (i + r) = keyByte k (i % 4 + r) := by
    rw [← keyByte_mod, ← Nat.mod_add_mod, keyByte_mod]
  rw [← keyByte_mod _ i, hk]
  interval_cases i % 4
  · exact congrArg (keyByte k) (Nat.zero_add r).symm
  all_goals rfl

@[simp] theorem rotKey_zero (k : Key) : rotKey k 0 = k := rfl

/-! ## The mask engine -/

/-- The engine XORs each byte with the key byte of its index (R130). -/
theorem maskFrom_eq_mapIdx (k : Key) (i : Nat) (d : Bytes) :
    maskFrom k i d = d.mapIdx fun j b => b ^^^ keyByte k (i + j) := by
  induction d generalizing i with
  | nil => rfl
  | cons b bs ih => simp only [maskFrom, ih, List.mapIdx_cons, Nat.add_zero, Nat.add_assoc, Nat.add_comm 1]

theorem maskBytes_eq_mapIdx (k : Key) (d : Bytes) : maskBytes k d = d.mapIdx fun j b => b ^^^ keyByte k j := by
  simp only [maskBytes, maskFrom_eq_mapIdx, Nat.zero_add]

theorem maskBytes_const (c : Byte) (d : Bytes) : maskBytes ⟨c, c, c, c⟩ d = d.map (· ^^^ c) := by
  refine List.ext_getElem (by simp) fun i _ _ => ?_
  simp only [maskBytes_eq_mapIdx, keyByte_const, List.getElem_mapIdx, List.getElem_map]

/-- Starting at index `i` is starting at index 0 with the key rotated by `i mod 4` (R134). -/
theorem maskFrom_eq_maskBytes_rotKey (k : Key) (i : Nat) (d : Bytes) :
    maskFrom k i d = maskBytes (rotKey k (i % 4)) d := by
  have hkey (j : Nat) : keyByte (rotKey k (i % 4)) j = keyByte k (i + j) := by
    rw [keyByte_rotKey, ← keyByte_mod, Nat.add_mod_mod, keyByte_mod, Nat.add_comm]
  simp only [maskFrom_eq_mapIdx, maskBytes_eq_mapIdx, hkey]

/-- Splitting the data anywhere rotates the key for the second part (R134). -/
theorem maskBytes_append (k : Key) (a b : Bytes) :
    maskBytes k (a ++ b) = maskBytes k a ++ maskBytes (rotKey k (a.length % 4)) b := by
  rw [← maskFrom_eq_maskBytes_rotKey, maskBytes, maskFrom_append, Nat.zero_add, ← maskBytes]

/-! ## The obligations -/

/-- Settles O42: the engine is a map with indices, so each output byte is the input byte of that index XOR its key byte. -/
theorem maskBytewise : Obligations.MaskBytewise := by
  intro k d
  refine ⟨maskBytes_length k d, fun i hi => ?_⟩
  rw [← keyByte_eq_getD_bytes, List.getD_eq_getElem _ _ hi, List.getD_eq_getElem _ _ (by simpa using hi)]
  simp only [maskBytes_eq_mapIdx, List.getElem_mapIdx]

/-- Settles O43: both passes XOR a byte with the same key byte, which cancels. -/
theorem maskInvolutive : Obligations.MaskInvolutive := by
  intro k d
  have hcancel (b c : Byte) : b ^^^ c ^^^ c = b := by rw [BitVec.xor_assoc, BitVec.xor_self, BitVec.xor_zero]
  refine List.ext_getElem (by simp) fun i _ _ => ?_
  simp only [maskBytes_eq_mapIdx, List.getElem_mapIdx, hcancel]

/-- Settles O44: a key of four equal bytes XORs that byte everywhere, and a split at a multiple of 4 rotates the key by
0. -/
theorem maskIdentities : Obligations.MaskIdentities := by
  intro k a b
  refine ⟨?_, ?_, fun h => ?_, maskBytes_append k a b⟩
  · simp [maskBytes_const]
  · have hones (x : Byte) : x ^^^ 0xFF#8 = ~~~x := BitVec.xor_allOnes
    simp only [maskBytes_const, hones]
  · rw [maskBytes_append, h, rotKey_zero]

end Sys2Proof.Machine
end

section
/-! PROOFS. The statements about ENCODE (spec/42_encode.md). First the draw and the frame ENCODE builds from it; then
what a DECODE under `WholeReads` does with a frame, one lemma for each phase from the last to the first; then the
obligations. -/

open Sys2Proof.Claims

namespace Sys2Proof

/-! ## Big-endian sequences written out -/

theorem beBytes_two (v : Nat) : beBytes 2 v = [BitVec.ofNat 8 (v / 2 ^ 8), BitVec.ofNat 8 v] := by
  simp [beBytes]

theorem beBytes_four (v : Nat) : beBytes 4 v =
    [BitVec.ofNat 8 (v / 2 ^ 24), BitVec.ofNat 8 (v / 2 ^ 16), BitVec.ofNat 8 (v / 2 ^ 8), BitVec.ofNat 8 v] := by
  simp [beBytes]

end Sys2Proof

namespace Sys2Proof.Machine

/-! ## The draw -/

/-- A free value is one of `KEY_DRAW` (R152). -/
theorem keyAllowed_freeKey (d : KeyDraw) (n : Nat) : keyAllowed d (freeKey d n) = true := by
  cases d with
  | any32 => rfl
  | srcRange =>
    have hlt := (Config.freeSrcKey n).isLt
    have hn : (freeKey .srcRange n).toNat = (Config.freeSrcKey n).val + 1 := by
      rw [freeKey, BitVec.toNat_ofNat]
      omega
    simp only [keyAllowed, hn, Bool.and_eq_true, decide_eq_true_eq]
    omega

/-- The draw used is a given one that was not passed over, or a free value (R152). -/
theorem keyAllowed_nextKey (s : State) : keyAllowed s.cfg.keyDraw (nextKey s) = true := by
  have hhead := List.head?_dropWhile_not (fun k => !keyAllowed s.cfg.keyDraw k) s.keys
  unfold nextKey
  split
  · rename_i k ks hk
    rw [hk] at hhead
    simpa using hhead
  · exact keyAllowed_freeKey _ _

/-- Under `SRC_RANGE` a draw is not 0, and its first byte in wire order has its top bit 0 (R52, R152). -/
theorem keyAllowed_srcRange {k : Word} (h : keyAllowed .srcRange k = true) :
    k ≠ 0#32 ∧ (keyOfWord k).k0.toNat ≤ 0x7F := by
  simp only [keyAllowed, Bool.and_eq_true, decide_eq_true_eq] at h
  obtain ⟨hpos, hle⟩ := h
  refine ⟨fun h0 => ?_, ?_⟩
  · simp [h0] at hpos
  · simp only [keyOfWord, BitVec.extractLsb'_toNat, Nat.shiftRight_eq_div_pow]
    omega

/-- An allowed draw is not passed over. -/
theorem dropWhile_keys_of_allowed {s : State} {k : Word} {ks : List Word} (hk : s.keys = k :: ks)
    (h : keyAllowed s.cfg.keyDraw k = true) : s.keys.dropWhile (fun k => !keyAllowed s.cfg.keyDraw k) = k :: ks := by
  rw [hk]
  exact List.dropWhile_cons_of_neg (by simp [h])

/-! ## The frame ENCODE builds -/

/-- Byte 0 is FIN and the OPCODE, as a number (R153, R155). -/
theorem encByte0_toNat (op : Opcode) (final : Bool) :
    (encByte0 op final).toNat = (if final then 128 else 0) + op.toNat := by
  revert op final
  decide

/-- Byte 1 is MASK = 1 and the length code, as a number (R154, R156). -/
theorem encByte1_toNat (c : Len7) : (encByte1 c).toNat = 128 + c.toNat := by
  have hc : c.toNat < 2 ^ 7 := c.isLt
  have hor : 128 ||| c.toNat = 128 + c.toNat := (Nat.two_pow_add_eq_or_of_lt hc 1).symm
  rw [encByte1, BitVec.toNat_or, BitVec.toNat_setWidth_of_le (by decide), ← hor]
  rfl

/-- The header reads back as the operands (R74, R161). -/
theorem header_of_encBytes (op : Opcode) (final : Bool) (c : Len7) :
    hdrOpc (encByte0 op final) = op ∧ hdrFin (encByte0 op final) = final ∧
      hdrMsk (encByte1 c) = true ∧ hdrLen7 (encByte1 c) = c := by
  have hop := op.isLt
  have hc := c.isLt
  obtain ⟨hopc, -, hfin, hmsk, hlen, -⟩ := headerFieldsExtracted (encByte0 op final) (encByte1 c)
  rw [encByte0_toNat] at hopc hfin
  rw [encByte1_toNat] at hmsk hlen
  refine ⟨BitVec.eq_of_toNat_eq ?_, ?_, hmsk.mpr (by omega), BitVec.eq_of_toNat_eq ?_⟩
  · rw [hopc]; split <;> omega
  · rw [Bool.eq_iff_iff, hfin]
    cases final with
    | false => simp; omega
    | true => simp
  · omega

/-- The frame by its parts (R75, R150). -/
theorem encodedFrame_eq (op : Opcode) (final : Bool) (payload : Bytes) (draw : Word) :
    encodedFrame op final payload draw =
      encByte0 op final :: encByte1 (lenEnc payload.length).1 ::
        ((lenEnc payload.length).2 ++ (keyOfWord draw).bytes ++ maskBytes (keyOfWord draw) payload) := rfl

/-! ## Runs that end a DECODE -/

/-- From the outcome `o` at most `n` more steps lead to IDLE, with the response `r` and `rest` left of `S`. -/
def EndsWith (n : Nat) (r : Rsp) (rest : Bytes) (o : Result) : Prop :=
  ∃ m s t, o = .next s ∧ m ≤ n ∧ RunsTo m s t ∧ t.phase = .idle ∧ t.rsp = some r ∧ t.stream = rest

theorem EndsWith.ended (r : Rsp) (s : State) : EndsWith 0 r s.stream (.next (ended r s)) :=
  ⟨0, _, _, rfl, le_rfl, rfl, rfl, rfl, rfl⟩

theorem EndsWith.mono {n n' : Nat} {r : Rsp} {rest : Bytes} {o : Result} (h : EndsWith n r rest o) (hn : n ≤ n') :
    EndsWith n' r rest o := by
  obtain ⟨m, s, t, ho, hm, hend⟩ := h
  exact ⟨m, s, t, ho, hm.trans hn, hend⟩

theorem runsTo_succ {n : Nat} {s s' t : State} (hs : step s = .next s') (h : RunsTo n s' t) : RunsTo (n + 1) s t := by
  simp only [RunsTo, Host.Core.run]
  rw [show core.step s = .next s' from hs]
  exact h

theorem EndsWith.step {n : Nat} {r : Rsp} {rest : Bytes} {s : State} (h : EndsWith n r rest (step s)) :
    EndsWith (n + 1) r rest (.next s) := by
  obtain ⟨m, s', t, hs, hm, hrun, hend⟩ := h
  exact ⟨m + 1, s, t, rfl, by omega, runsTo_succ hs hrun, hend⟩

/-! ## A DECODE under `WholeReads` -/

/-- An unmarked state that HOST leaves alone and STREAM answers whole, before the first byte of a part of a frame. -/
structure BeforePart (s : State) : Prop where
  unmarked : s.refused = false
  alone : s.host = []
  whole : WholeReads s
  part : s.part = []
  buf : s.buf = []

/-- The header has been read, with these fields; MASK says whether a key follows (R88). -/
structure HeaderRead (op : Opcode) (fin : Bool) (key : Option Key) (s : State) : Prop extends BeforePart s where
  opc : s.opc = some op
  fin : s.fin = some fin
  msk : s.msk = some key.isSome

/-- The key bytes of a frame: four, or none when it is not masked (R75, R88). -/
def keyPart : Option Key → Bytes
  | none => []
  | some k => k.bytes

/-- The response to a frame with these fields, key and payload bytes (R186, R192, R193). -/
def frameReport (op : Opcode) (fin : Bool) (key : Option Key) (data : Bytes) : Rsp :=
  frameRsp op fin key.isSome (BitVec.ofNat 32 data.length) key
    (match key with
      | none => data
      | some k => maskBytes k data)

section
variable {s : State} {op : Opcode} {fin : Bool} {key : Option Key} {ext data rest : Bytes}

theorem BeforePart.step (h : BeforePart s) : step s = phaseStep s := step_quiet h.unmarked h.alone

/-- What reading a part changes, the header registers not being among it. -/
theorem HeaderRead.advance (h : HeaderRead op fin key s) (phase : Phase) (len : Option Word) (k : Option Key)
    (stream : Bytes) (requests : List Nat) :
    HeaderRead op fin key { s with phase := phase, len := len, key := k, stream := stream, requests := requests } :=
  ⟨⟨h.unmarked, h.alone, h.whole, h.part, h.buf⟩, h.opc, h.fin, h.msk⟩

/-- Under `WholeReads` the bytes `S` begins with come in one answer (R55). -/
theorem streamRead_front {b : Bytes} (hw : WholeReads s) (hb : b ≠ []) (hx : s.stream = b ++ rest) :
    streamRead b.length s = .data b { s with stream := rest, requests := s.requests ++ [b.length] } := by
  rw [streamRead_whole (List.length_pos_iff.mpr hb) hw, hx, List.take_left, List.drop_left]

/-- Under `WholeReads` SINGLE_SHOT and LOOP both read a part in one answer (R187, R196). -/
theorem readPart_front {b : Bytes} (h : BeforePart s) (hb : b ≠ []) (hx : s.stream = b ++ rest) :
    readPart b.length s = .got b { s with stream := rest, requests := s.requests ++ [b.length] } := by
  have hread := streamRead_front h.whole hb hx
  cases hc : s.cfg.hdrRead with
  | singleShot => simp [readPart, hc, readPartOnce, hread]
  | loop =>
    obtain ⟨x, xs, rfl⟩ := List.exists_cons_of_ne_nil hb
    simp only [readPart, hc, readPartLoop, h.part, List.length_nil, Nat.sub_zero, hread, List.nil_append, lt_irrefl,
      if_false]

theorem partStep_front {n : Nat} {b : Bytes} (h : BeforePart s) (hb : b ≠ []) (hn : b.length = n)
    (hx : s.stream = b ++ rest) (e : FrameError) (use : Bytes → State → Result) :
    partStep n e s use = use b { s with stream := rest, requests := s.requests ++ [n] } := by
  subst hn
  simp [partStep, readPart_front h hb hx]

/-- Under `WholeReads` the payload comes in one answer, which completes the frame (R185). -/
theorem payloadStep_front {len : Word} (h : BeforePart s) (hl : s.len = some len) (hlen : len.toNat = data.length)
    (h0 : data ≠ []) (hx : s.stream = data ++ rest) :
    payloadStep s = complete { s with stream := rest, requests := s.requests ++ [data.length], buf := data } := by
  have hread := streamRead_front h.whole h0 hx
  obtain ⟨x, xs, rfl⟩ := List.exists_cons_of_ne_nil h0
  simp only [payloadStep, hl, readReg_some, hlen, h.buf, List.length_nil, Nat.sub_zero, hread, List.nil_append,
    afterPayload, if_true]

/-! ### The phases, from the last to the first, for masked and unmasked frames -/

/-- A frame whose payload is in `buf` is reported (R186). -/
theorem complete_ends (hop : s.opc = some op) (hfin : s.fin = some fin) (hm : s.msk = some key.isSome)
    (hk : s.key = key) (hl : s.len = some (BitVec.ofNat 32 s.buf.length)) :
    EndsWith 0 (frameReport op fin key s.buf) s.stream (complete s) := by
  cases key with
  | none =>
    rw [complete_unmasked hop hfin hm hl]
    exact EndsWith.ended _ _
  | some k =>
    rw [complete_masked hop hfin hm hl hk]
    exact EndsWith.ended _ _

theorem HeaderRead.dPay (h : HeaderRead op fin key s) (hp : s.phase = .dPay) (hk : s.key = key)
    (hl : s.len = some (BitVec.ofNat 32 data.length)) (hd : data.length < 2 ^ 32) (h0 : data ≠ [])
    (hx : s.stream = data ++ rest) : EndsWith 1 (frameReport op fin key data) rest (.next s) := by
  have hlen : (BitVec.ofNat 32 data.length).toNat = data.length := by rw [BitVec.toNat_ofNat, Nat.mod_eq_of_lt hd]
  refine EndsWith.step ?_
  rw [h.step, phaseStep_dPay hp, payloadStep_front h.toBeforePart hl hlen h0 hx]
  exact complete_ends h.opc h.fin h.msk hk hl

theorem HeaderRead.enterPayload (h : HeaderRead op fin key s) (hk : s.key = key)
    (hl : s.len = some (BitVec.ofNat 32 data.length)) (hd : data.length < 2 ^ 32) (hx : s.stream = data ++ rest) :
    EndsWith 1 (frameReport op fin key data) rest (enterPayload s) := by
  by_cases h0 : data = []
  · subst h0
    obtain rfl : s.stream = rest := hx
    have hends := complete_ends h.opc h.fin h.msk hk (by rw [h.buf]; exact hl)
    rw [h.buf] at hends
    rw [enterPayload_empty hl]
    exact hends.mono (Nat.zero_le 1)
  · have hne : BitVec.ofNat 32 data.length ≠ 0#32 :=
      ofNat_supported_ne_zero (pmax := BitVec.allOnes 32) (Nat.le_pred_of_lt hd) (mt List.length_eq_zero_iff.mp h0)
    rw [enterPayload_nonempty hl hne]
    exact HeaderRead.dPay (h.advance _ _ _ _ _) rfl hk hl hd h0 hx

/-- Only a masked frame has a key to read (R184). -/
theorem HeaderRead.dKey {k : Key} (h : HeaderRead op fin (some k) s) (hp : s.phase = .dKey)
    (hl : s.len = some (BitVec.ofNat 32 data.length)) (hd : data.length < 2 ^ 32)
    (hx : s.stream = k.bytes ++ (data ++ rest)) : EndsWith 2 (frameReport op fin (some k) data) rest (.next s) := by
  refine EndsWith.step ?_
  rw [h.step, phaseStep_dKey hp, partStep_front (n := 4) h.toBeforePart (List.cons_ne_nil _ _) rfl hx]
  exact HeaderRead.enterPayload (h.advance _ _ _ _ _) rfl hl hd rfl

theorem HeaderRead.setLength (h : HeaderRead op fin key s) (hk : s.key = none)
    (hd : data.length ≤ s.cfg.payloadMax.toNat) (hx : s.stream = keyPart key ++ (data ++ rest)) :
    EndsWith 2 (frameReport op fin key data) rest (setLength data.length s) := by
  have hlt : data.length < 2 ^ 32 := hd.trans_lt s.cfg.payloadMax.isLt
  cases key with
  | none =>
    rw [setLength_unmasked h.msk hd]
    exact EndsWith.mono (HeaderRead.enterPayload (h.advance _ _ _ _ _) hk rfl hlt hx) (Nat.le_succ 1)
  | some k =>
    rw [setLength_masked h.msk hd]
    exact HeaderRead.dKey (h.advance _ _ _ _ _) rfl rfl hlt hx

theorem HeaderRead.dExt {len7 : Len7} (h : HeaderRead op fin key s) (hp : s.phase = .dExt) (h7 : s.len7 = some len7)
    (hk : s.key = none) (he : ext.length = extSize len7) (h0 : ext ≠ []) (hlen : lenDec len7 ext = data.length)
    (hd : data.length ≤ s.cfg.payloadMax.toNat) (hx : s.stream = ext ++ (keyPart key ++ (data ++ rest))) :
    EndsWith 3 (frameReport op fin key data) rest (.next s) := by
  refine EndsWith.step ?_
  rw [h.step, phaseStep_dExt hp h7, partStep_front h.toBeforePart h0 he hx, hlen]
  exact HeaderRead.setLength (h.advance _ _ _ _ _) hk hd rfl

/-- A header that announces no extension goes on to the length at once (R182). -/
theorem BeforePart.runHeader {masked : Bool} {len7 : Len7} (h : BeforePart s) (hk : s.key = none)
    (hm : masked = key.isSome) (he : ext.length = extSize len7) (hlen : lenDec len7 ext = data.length)
    (hd : data.length ≤ s.cfg.payloadMax.toNat) (hx : s.stream = ext ++ (keyPart key ++ (data ++ rest))) :
    EndsWith 3 (frameReport op fin key data) rest (runHeader op fin masked len7 s) := by
  have hlat : HeaderRead op fin key (latchHeader op fin masked len7 s) :=
    ⟨⟨h.unmarked, h.alone, h.whole, h.part, h.buf⟩, rfl, rfl, congrArg some hm⟩
  cases ext with
  | nil =>
    have hl0 : extSize len7 = 0 := he.symm
    rw [Machine.runHeader, if_pos hl0, hlen]
    exact (hlat.setLength hk hd hx).mono (Nat.le_succ 2)
  | cons x xs =>
    rw [Machine.runHeader, if_neg (he ▸ Nat.succ_ne_zero _)]
    exact HeaderRead.dExt (hlat.advance _ _ _ _ _) rfl rfl hk he (List.cons_ne_nil _ _) hlen hd hx

theorem BeforePart.dHdr {b0 b1 : Byte} (h : BeforePart s) (hp : s.phase = .dHdr) (hk : s.key = none)
    (hm : hdrMsk b1 = key.isSome) (he : ext.length = extSize (hdrLen7 b1)) (hlen : lenDec (hdrLen7 b1) ext = data.length)
    (hd : data.length ≤ s.cfg.payloadMax.toNat)
    (hx : s.stream = [b0, b1] ++ (ext ++ (keyPart key ++ (data ++ rest)))) :
    EndsWith 4 (frameReport (hdrOpc b0) (hdrFin b0) key data) rest (.next s) := by
  refine EndsWith.step ?_
  rw [h.step, phaseStep_dHdr hp, partStep_front (n := 2) h (List.cons_ne_nil _ _) rfl hx]
  exact BeforePart.runHeader ⟨h.unmarked, h.alone, h.whole, h.part, h.buf⟩ hk hm he hlen hd rfl

/-- A DECODE that an IDLE block is offered reports the frame `S` begins with, in at most 5 steps (R180, R198). -/
theorem offeredDecode_ends {b0 b1 : Byte} (hi : s.phase = .idle) (hr : s.refused = false)
    (hh : s.host = [.offer 1#32 []]) (hw : WholeReads s) (hm : hdrMsk b1 = key.isSome)
    (he : ext.length = extSize (hdrLen7 b1)) (hlen : lenDec (hdrLen7 b1) ext = data.length)
    (hd : data.length ≤ s.cfg.payloadMax.toNat)
    (hx : s.stream = [b0, b1] ++ (ext ++ (keyPart key ++ (data ++ rest)))) :
    EndsWith 5 (frameReport (hdrOpc b0) (hdrFin b0) key data) rest (.next s) := by
  have hs : Machine.step s = .next (acceptDecode { s with host := [] }) := step_offer hr hh hi
  refine EndsWith.step ?_
  rw [hs]
  exact BeforePart.dHdr ⟨hr, rfl, hw, rfl, rfl⟩ rfl rfl hm he hlen hd hx

end

/-! ## ENCODE and the DECODE of its frame -/

/-- The frame an ENCODE emits and its response (R150, R158). -/
theorem encode_emits {op : Opcode} {final : Bool} {payload F : Bytes} {s t : State}
    (h : exec (.encode op final payload) s = .next t) (hF : t.emitted = s.emitted ++ [F]) :
    F = encodedFrame op final payload (nextKey s) ∧ t.rsp = some (encodeRsp F) := by
  cases h
  obtain rfl : encodedFrame op final payload (nextKey s) = F := List.singleton_inj.mp (List.append_cancel_left hF)
  exact ⟨rfl, rfl⟩

/-- The report of the emitted frame: the second masking takes back the first (R133, R161). -/
theorem frameReport_masked (op : Opcode) (final : Bool) (k : Key) (payload : Bytes) :
    frameReport op final (some k) (maskBytes k payload) =
      frameRsp op final true (BitVec.ofNat 32 payload.length) (some k) payload := by
  simp [frameReport, maskInvolutive k payload]

/-! ## The obligations -/

/-- Settles O52: the header of the emitted frame reads back as the operands, `LenDec` takes back `LenEnc`, and the DECODE
of that frame takes back the masking. -/
theorem encodeDecodeRoundTrip : Obligations.EncodeDecodeRoundTrip := by
  intro u v s op final payload F henc hF hi hr hh hw hx hp
  obtain ⟨rfl, -⟩ := encode_emits henc hF
  obtain ⟨hopc, hfin, hmsk, hlen7⟩ := header_of_encBytes op final (lenEnc payload.length).1
  have hdec := lenDec_lenEnc (n := payload.length) (by omega)
  have hends := offeredDecode_ends (b0 := encByte0 op final) (b1 := encByte1 (lenEnc payload.length).1)
    (key := some (keyOfWord (nextKey u))) (ext := (lenEnc payload.length).2)
    (data := maskBytes (keyOfWord (nextKey u)) payload) (rest := []) hi hr hh hw hmsk
    (by rw [hlen7, extSize_lenEnc]) (by rw [hlen7, hdec, maskBytes_length]) (by rwa [maskBytes_length])
    (by simp [hx, encodedFrame_eq, keyPart])
  rw [hopc, hfin, frameReport_masked] at hends
  obtain ⟨n, _, t, hs, -, hrun, hidle, hrsp, hrest⟩ := hends
  cases hs
  exact ⟨n, t, hrun, hidle, hrest, hrsp⟩

/-- Settles O9: the header bytes as numbers, the extension by the tier of the length, the key as the big-endian draw, and
the body byte by byte as the mask engine gives it. -/
theorem encodeResult : Obligations.EncodeResult := by
  intro op final payload s hn
  obtain ⟨hlen, hbyte⟩ := maskBytewise (keyOfWord (nextKey s)) payload
  have hkey : (keyOfWord (nextKey s)).bytes = _ := (keyOfWord_bytes (nextKey s)).trans (beBytes_four _)
  refine ⟨encByte0 op final, encByte1 (lenEnc payload.length).1, (lenEnc payload.length).2,
    maskBytes (keyOfWord (nextKey s)) payload, ?_, encByte0_toNat op final, fun h => ?_, fun hl h => ?_, fun h => ?_,
    hlen, ?_⟩
  · rw [← hkey]
    rfl
  · rw [lenEnc_inline h, encByte1_toNat, BitVec.toNat_ofNat]
    exact ⟨by omega, rfl⟩
  · rw [lenEnc_ext16 hl h, encByte1_toNat]
    exact ⟨rfl, beBytes_two _⟩
  · rw [lenEnc_ext64 h, encByte1_toNat, beBytes_pad (n := 4) hn 4, beBytes_four]
    exact ⟨rfl, rfl⟩
  · rw [← hkey]
    exact hbyte

/-- Settles O12: a given draw is passed over until one is allowed, and every free value is allowed. -/
theorem keyDrawAllowed : Obligations.KeyDrawAllowed := by
  intro s
  have hallowed := keyAllowed_nextKey s
  refine ⟨hallowed, fun hd => keyAllowed_srcRange (hd ▸ hallowed), fun k ks hk h => ?_⟩
  have hdrop := dropWhile_keys_of_allowed hk h
  exact ⟨by rw [nextKey, hdrop], by rw [drawn_keys, hdrop]; rfl⟩

/-- Settles O11: frame and response are `encodedFrame` of the operands and the draw. -/
theorem encodeIgnoresState : Obligations.EncodeIgnoresState := by
  intro op final payload s s' t t' F hk h h' hF
  obtain ⟨rfl, hr⟩ := encode_emits h hF
  cases h'
  rw [hr, hk]
  exact ⟨rfl, rfl⟩

end Sys2Proof.Machine
end

section
/-! PROOFS. The statements about DECODE (spec/43_decode.md). First what each kind of answer makes of a part read and of
the payload step, and which row a part runs; then the rows of a frame, particular answers and placed words; then the bytes
of the frame that a DECODE in progress has consumed, which every step accounts for; then the obligations. -/

open Sys2Proof.Claims

namespace Sys2Proof.Machine

section
variable {n : Nat} {s s' : State} {b : Bytes}

/-! ## A part read by the answer it gets -/

/-- The size of the request a part read makes (R187, R196). -/
def partRequest (n : Nat) (s : State) : Nat := if s.cfg.hdrRead = .loop then n - s.part.length else n

theorem partRequest_singleShot (hc : s.cfg.hdrRead = .singleShot) : partRequest n s = n := by
  simp [partRequest, hc]

theorem partRequest_loop (hc : s.cfg.hdrRead = .loop) : partRequest n s = n - s.part.length := if_pos hc

theorem partRequest_pos (h : PartUnder n s) : 1 ≤ partRequest n s := by
  obtain ⟨hlt, -⟩ := h
  unfold partRequest
  split <;> omega

theorem readPart_singleShot (hc : s.cfg.hdrRead = .singleShot) : readPart n s = readPartOnce n s := by
  rw [readPart, hc]

theorem readPart_loop (hc : s.cfg.hdrRead = .loop) : readPart n s = readPartLoop n s := by
  rw [readPart, hc]

theorem readPart_of_held (h : streamRead (partRequest n s) s = .held s') : readPart n s = .stay s' := by
  cases hc : s.cfg.hdrRead with
  | singleShot => rw [partRequest_singleShot hc] at h; rw [readPart_singleShot hc, readPartOnce, h]
  | loop => rw [partRequest_loop hc] at h; rw [readPart_loop hc, readPartLoop, h]

theorem readPart_of_err (h : streamRead (partRequest n s) s = .err s') : readPart n s = .failed s' := by
  cases hc : s.cfg.hdrRead with
  | singleShot => rw [partRequest_singleShot hc] at h; rw [readPart_singleShot hc, readPartOnce, h]
  | loop => rw [partRequest_loop hc] at h; rw [readPart_loop hc, readPartLoop, h]

theorem readPart_of_noRequest (h : streamRead (partRequest n s) s = .noRequest) : readPart n s = .noRequest := by
  cases hc : s.cfg.hdrRead with
  | singleShot => rw [partRequest_singleShot hc] at h; rw [readPart_singleShot hc, readPartOnce, h]
  | loop => rw [partRequest_loop hc] at h; rw [readPart_loop hc, readPartLoop, h]

/-- Under SINGLE_SHOT no bytes are fewer than were asked for. -/
theorem readPart_of_noBytes (h : streamRead (partRequest n s) s = .data [] s') : readPart n s = .failed s' := by
  cases hc : s.cfg.hdrRead with
  | singleShot =>
    rw [partRequest_singleShot hc] at h
    have hpos : ([] : Bytes).length < n := (streamRead_data h).1
    simp only [readPart_singleShot hc, readPartOnce, h, if_pos hpos]
  | loop => rw [partRequest_loop hc] at h; rw [readPart_loop hc, readPartLoop, h]

theorem readPart_singleShot_data (hc : s.cfg.hdrRead = .singleShot) (h : streamRead n s = .data b s') :
    readPart n s = if b.length < n then .failed s' else .got b s' := by
  rw [readPart_singleShot hc, readPartOnce, h]

theorem readPart_loop_data (hc : s.cfg.hdrRead = .loop) (h : streamRead (n - s.part.length) s = .data b s')
    (hb : b ≠ []) :
    readPart n s = if (s.part ++ b).length < n then .stay { s' with part := s.part ++ b }
      else .got (s.part ++ b) { s' with part := [] } := by
  have hp : s'.part = s.part := by
    obtain ⟨-, p, m, -, -, rfl⟩ := streamRead_data h
    rfl
  obtain ⟨x, xs, rfl⟩ := List.exists_cons_of_ne_nil hb
  rw [readPart_loop hc, readPartLoop, h, ← hp]

/-- A part that comes whole in the first answer arrives under SINGLE_SHOT and under LOOP. -/
theorem readPart_of_whole_answer (hp : s.part = []) (hb : b ≠ []) (h : streamRead b.length s = .data b s') :
    readPart b.length s = .got b s' := by
  cases hc : s.cfg.hdrRead with
  | singleShot => rw [readPart_singleShot_data hc h, if_neg (lt_irrefl _)]
  | loop =>
    rw [readPart_loop_data hc (by rwa [hp]) hb, hp, List.nil_append, if_neg (lt_irrefl _)]
    obtain ⟨-, p, m, -, -, rfl⟩ := streamRead_data h
    rw [← hp]

/-- The bytes of a part that stays collected, with those still in `S`, are the ones that were there. -/
theorem readPart_stay_bytes (hp : PartUnder n s) (h : readPart n s = .stay s') :
    s'.part ++ s'.stream = s.part ++ s.stream := by
  obtain ⟨p, rfl⟩ | ⟨-, p, m, -, -, rfl⟩ := readPart_stay hp h
  · rfl
  · simp

/-- The part that has arrived, with the bytes still in `S`, is what was collected and in `S`. -/
theorem readPart_got_bytes (hp : PartUnder n s) (h : readPart n s = .got b s') :
    b ++ s'.stream = s.part ++ s.stream := by
  obtain ⟨-, p, m, rfl, rfl⟩ := readPart_got hp h
  simp

/-! ## A part step and the payload step by the answer -/

theorem partStep_of_stay {e : FrameError} {use : Bytes → State → Result} (h : readPart n s = .stay s') :
    partStep n e s use = .next s' := by
  rw [partStep, h]

theorem partStep_of_failed {e : FrameError} {use : Bytes → State → Result} (h : readPart n s = .failed s') :
    partStep n e s use = raiseError e s' := by
  rw [partStep, h]

/-- Under PROPAGATE a failed part read ends the DECODE with the status of its error (R197). -/
theorem partStep_fails {e : FrameError} {use : Bytes → State → Result} (hm : s.cfg.failureMode = .propagate)
    (h : readPart n s = .failed s') : partStep n e s use = .next (ended (failRsp (errorCode e)) s') := by
  have hc : s'.cfg = s.cfg := (readPart_readStep (.inr (.inl h))).cfg
  rw [partStep_of_failed h]
  exact raiseError_propagate (hc ▸ hm)

theorem partStep_of_got {e : FrameError} {use : Bytes → State → Result} (h : readPart n s = .got b s')
    (hb : b.length = n) : partStep n e s use = use b s' := by
  simp only [partStep, h, if_pos hb]

theorem payloadStep_of_held {len : Word} (hl : s.len = some len)
    (h : streamRead (len.toNat - s.buf.length) s = .held s') : payloadStep s = .next s' := by
  simp only [payloadStep, hl, readReg_some, h]

theorem payloadStep_noLength (hl : s.len = none) : payloadStep s = .fault (.regNoValue .len) := by
  rw [payloadStep, hl, readReg]

theorem payloadStep_of_noRequest {len : Word} (hl : s.len = some len)
    (h : streamRead (len.toNat - s.buf.length) s = .noRequest) : payloadStep s = .fault .emptyRequest := by
  simp only [payloadStep, hl, readReg_some, h]

theorem payloadStep_of_failed {len : Word} (hl : s.len = some len)
    (h : streamRead (len.toNat - s.buf.length) s = .err s' ∨ streamRead (len.toNat - s.buf.length) s = .data [] s') :
    payloadStep s = raiseError .payload s' := by
  obtain h | h := h <;> simp only [payloadStep, hl, readReg_some, h]

theorem payloadStep_of_data {len : Word} (hl : s.len = some len)
    (h : streamRead (len.toNat - s.buf.length) s = .data b s') (hb : b ≠ []) :
    payloadStep s = afterPayload len { s' with buf := s'.buf ++ b } := by
  obtain ⟨x, xs, rfl⟩ := List.exists_cons_of_ne_nil hb
  simp only [payloadStep, hl, readReg_some, h]

/-! ## The row that a part runs -/

theorem phaseStep_runs_header {b0 b1 : Byte} (hp : s.phase = .dHdr) (h : readPart 2 s = .got [b0, b1] s') :
    phaseStep s = exec (decodeHeader b0 b1) { s' with hdr := [b0, b1] } := by
  rw [phaseStep_dHdr hp, partStep_of_got h rfl]
  exact (exec_decodeHeader b0 b1 _).symm

theorem phaseStep_runs_extension {len7 : Len7} {ext : Bytes} {i : Instr} (hp : s.phase = .dExt)
    (hl : s.len7 = some len7) (h : readPart (extSize len7) s = .got ext s') (hi : decodeLength len7 ext = .ok i) :
    phaseStep s = exec i s' := by
  obtain ⟨hlen, hexec⟩ := exec_decodeLength hi s'
  rw [phaseStep_dExt hp hl, partStep_of_got h hlen, hexec]

theorem phaseStep_runs_key {a b c d : Byte} (hp : s.phase = .dKey) (h : readPart 4 s = .got [a, b, c, d] s') :
    phaseStep s = exec (.maskOn ⟨a, b, c, d⟩) s' := by
  rw [phaseStep_dKey hp, partStep_of_got h rfl]
  rfl

/-! ## A step that STREAM does not answer -/

/-- A DECODE whose requests are not answered keeps what it holds (R201). -/
theorem phaseStep_of_held (hinv : Inv s) (hb : s.phase ≠ .idle) (h : ∀ n, 1 ≤ n → streamRead n s = .held s') :
    phaseStep s = .next s' := by
  match hp : s.phase with
  | .idle => exact absurd hp hb
  | .dHdr =>
    obtain ⟨-, hu, -⟩ := (phaseInv_dHdr hp).mp hinv.inPhase
    rw [phaseStep_dHdr hp, partStep_of_stay (readPart_of_held (h _ (partRequest_pos hu)))]
  | .dExt =>
    obtain ⟨-, ⟨l, hl, hu⟩, -⟩ := (phaseInv_dExt hp).mp hinv.inPhase
    rw [phaseStep_dExt hp hl, partStep_of_stay (readPart_of_held (h _ (partRequest_pos hu)))]
  | .dKey =>
    obtain ⟨-, -, -, hu, -⟩ := (phaseInv_dKey hp).mp hinv.inPhase
    rw [phaseStep_dKey hp, partStep_of_stay (readPart_of_held (h _ (partRequest_pos hu)))]
  | .dPay =>
    obtain ⟨-, -, ⟨len, hl, hlt⟩, -⟩ := (phaseInv_dPay hp).mp hinv.inPhase
    rw [phaseStep_dPay hp, payloadStep_of_held hl (h _ (by omega))]

theorem streamRead_usedUp (hn : 1 ≤ n) (h : s.plan = .chunked []) : streamRead n s = .held s := by
  simp [streamRead, h, Nat.ne_of_gt hn]

theorem streamRead_late {c : List StreamMove} (hn : 1 ≤ n) (h : s.plan = .chunked (.late :: c)) :
    streamRead n s = .held { s with plan := .chunked c } := by
  simp [streamRead, h, Nat.ne_of_gt hn]

end

/-! ## An error and the end of the stream -/

/-- The state with an error as STREAM's next answer. -/
def withError (c : List StreamMove) (s : State) : State := { s with plan := .chunked (.err :: c) }

/-- The state with no bytes as STREAM's next answer. -/
def withEnd (c : List StreamMove) (s : State) : State := { s with plan := .chunked (.data 0 :: c) }

section
variable {s : State} (c : List StreamMove)

/-- Both answers meet the same requests and leave the same state. -/
theorem streamRead_error_end (n : Nat) (s : State) :
    (streamRead n (withError c s) = .noRequest ∧ streamRead n (withEnd c s) = .noRequest) ∨
    ∃ s', streamRead n (withError c s) = .err s' ∧ streamRead n (withEnd c s) = .data [] s' := by
  cases n with
  | zero => exact .inl ⟨rfl, rfl⟩
  | succ n =>
    have hpos : 1 ≤ n + 1 := Nat.succ_pos n
    have hend := streamRead_plannedData (s := withEnd c s) hpos rfl
    rw [Nat.zero_min] at hend
    exact .inr ⟨_, streamRead_plannedErr (s := withError c s) hpos rfl, hend⟩

theorem readPart_error_end (n : Nat) (s : State) : readPart n (withError c s) = readPart n (withEnd c s) := by
  obtain ⟨he, hd⟩ | ⟨s', he, hd⟩ := streamRead_error_end c (partRequest n s) s
  · rw [readPart_of_noRequest (s := withError c s) he, readPart_of_noRequest (s := withEnd c s) hd]
  · rw [readPart_of_err (s := withError c s) he, readPart_of_noBytes (s := withEnd c s) hd]

theorem partStep_error_end (n : Nat) (e : FrameError) (s : State) (use : Bytes → State → Result) :
    partStep n e (withError c s) use = partStep n e (withEnd c s) use := by
  rw [partStep, readPart_error_end, ← partStep]

theorem payloadStep_error_end {len : Word} (hl : s.len = some len) :
    payloadStep (withError c s) = payloadStep (withEnd c s) := by
  obtain ⟨he, hd⟩ | ⟨s', he, hd⟩ := streamRead_error_end c (len.toNat - s.buf.length) s
  · rw [payloadStep_of_noRequest (s := withError c s) hl he, payloadStep_of_noRequest (s := withEnd c s) hl hd]
  · rw [payloadStep_of_failed (s := withError c s) hl (.inl he), payloadStep_of_failed (s := withEnd c s) hl (.inr hd)]

theorem phaseStep_error_end (hb : s.phase ≠ .idle) : phaseStep (withError c s) = phaseStep (withEnd c s) := by
  match hp : s.phase with
  | .idle => exact absurd hp hb
  | .dHdr => rw [phaseStep_dHdr (s := withError c s) hp, phaseStep_dHdr (s := withEnd c s) hp, partStep_error_end]
  | .dExt =>
    match hl : s.len7 with
    | none =>
      rw [phaseStep_dExt_fault (s := withError c s) hp hl, phaseStep_dExt_fault (s := withEnd c s) hp hl]
    | some l =>
      rw [phaseStep_dExt (s := withError c s) hp hl, phaseStep_dExt (s := withEnd c s) hp hl, partStep_error_end]
  | .dKey => rw [phaseStep_dKey (s := withError c s) hp, phaseStep_dKey (s := withEnd c s) hp, partStep_error_end]
  | .dPay =>
    rw [phaseStep_dPay (s := withError c s) hp, phaseStep_dPay (s := withEnd c s) hp]
    match hl : s.len with
    | none => rw [payloadStep_noLength (s := withError c s) hl, payloadStep_noLength (s := withEnd c s) hl]
    | some len => exact payloadStep_error_end c hl

/-- HOST makes no move, offers a command, or waits. -/
theorem HostQuiet.cases (h : HostQuiet s) : HostWaits s ∨ ∃ rest, s.host = .wait :: rest := by
  match hh : s.host with
  | [] => exact .inl (.inl hh)
  | .offer w p :: rest => exact .inl (.inr ⟨w, p, rest, hh⟩)
  | .wait :: rest => exact .inr ⟨rest, rfl⟩
  | .reset :: rest => exact absurd hh (h rest).1
  | .read f :: rest => exact absurd hh ((h rest).2 f)

end

/-! ## The rows of a frame -/

section
variable {op : Opcode} {fin masked : Bool} {len7 : Len7} {s : State}

/-- The table's rows are the FRAME rows of their OPCODEs (R78). -/
theorem frameRows_eq_map : frameRows = (frameRows.map Prod.fst).map fun op => (op, frameRow op) := rfl

theorem exec_of_frameRows {row : Opcode × (Bool → BitVec 3 → Bool → Len7 → Instr)} (h : row ∈ frameRows)
    (rsv : BitVec 3) : exec (row.2 fin rsv masked len7) s = runHeader row.1 fin masked len7 s := by
  rw [frameRows_eq_map] at h
  obtain ⟨op, -, rfl⟩ := List.mem_map.mp h
  exact exec_frameRow op fin rsv masked len7 s

theorem runHeader_inline (h : len7.toNat ≤ 125) :
    runHeader op fin masked len7 s = setLength len7.toNat (latchHeader op fin masked len7 s) := by
  rw [runHeader, extSize, if_pos h, if_pos rfl, lenDec_inline h]

theorem runHeader_extended (h : 126 ≤ len7.toNat) (s : State) :
    runHeader op fin masked len7 s = .next { latchHeader op fin masked len7 s with phase := .dExt } := by
  rw [runHeader, if_neg]
  obtain ⟨hl, -⟩ | ⟨-, he⟩ | ⟨-, he⟩ := extSize_cases len7 <;> omega

/-- The completed DECODE of an empty masked frame: there is nothing to unmask (R186, R189). -/
theorem complete_empty_masked {key : Key} (hop : s.opc = some op) (hfin : s.fin = some fin) (hm : s.msk = some true)
    (hl : s.len = some 0#32) (hk : s.key = some key) (hb : s.buf = []) :
    complete s = .next (ended (frameRsp op fin true 0#32 (some key) []) s) := by
  rw [complete_masked hop hfin hm hl hk, hb]
  rfl

end

/-! ## Particular answers -/

/-- A stream that has ended, or whose next answer is no bytes or an error (R202). -/
def StreamEnded (s : State) : Prop :=
  (WholeReads s ∧ s.stream = []) ∨ ∃ c, s.plan = .chunked (.data 0 :: c) ∨ s.plan = .chunked (.err :: c)

theorem StreamEnded.read {n : Nat} {s : State} (h : StreamEnded s) (hn : 1 ≤ n) :
    ∃ s', (streamRead n s = .err s' ∨ streamRead n s = .data [] s') ∧ s'.stream = s.stream := by
  obtain ⟨hw, hx⟩ | ⟨c, h | h⟩ := h
  · have hread := streamRead_whole hn hw
    rw [hx, List.take_nil, List.drop_nil] at hread
    exact ⟨_, .inr hread, hx.symm⟩
  · have hread := streamRead_plannedData hn h
    rw [Nat.zero_min] at hread
    exact ⟨_, .inr hread, rfl⟩
  · exact ⟨_, .inl (streamRead_plannedErr hn h), rfl⟩

/-- The first header read on an ended stream fails, and consumes nothing (R202). -/
theorem StreamEnded.step_dHdr {s : State} (h : StreamEnded s) (hp : s.phase = .dHdr) (hpart : s.part = [])
    (hr : s.refused = false) (hh : s.host = []) (hm : s.cfg.failureMode = .propagate) :
    ∃ s', step s = .next (ended (failRsp 1#3) s') ∧ s'.stream = s.stream := by
  have hreq : partRequest 2 s = 2 := by simp [partRequest, hpart]
  obtain ⟨s', hread, hx⟩ := h.read (n := partRequest 2 s) (by omega)
  have hfail : readPart 2 s = .failed s' := hread.elim readPart_of_err readPart_of_noBytes
  refine ⟨s', ?_, hx⟩
  rw [step_quiet hr hh, phaseStep_dHdr hp]
  exact partStep_fails hm hfail

/-- A planned answer of at least one byte, where `S` is not empty. -/
theorem streamRead_answers {n m : Nat} {s : State} {plan' : StreamPlan} (hn : 1 ≤ n) (hne : s.stream ≠ [])
    (h : (s.plan = .whole ∧ plan' = .whole ∧ m = min n s.stream.length) ∨
      ∃ k c, s.plan = .chunked (.data k :: c) ∧ plan' = .chunked c ∧ 0 < k ∧ m = min k (min n s.stream.length)) :
    streamRead n s = .data (s.stream.take m)
        { s with stream := s.stream.drop m, plan := plan', requests := s.requests ++ [n] } ∧
      0 < m ∧ m ≤ s.stream.length := by
  have hpos : 0 < s.stream.length := List.length_pos_iff.mpr hne
  obtain ⟨hw, rfl, rfl⟩ | ⟨k, c, hc, rfl, hk, rfl⟩ := h
  · refine ⟨?_, by omega, by omega⟩
    rw [← List.take_eq_take_min, ← List.drop_eq_drop_min, streamRead_whole hn hw, ← hw]
  · refine ⟨?_, by omega, by omega⟩
    rw [← Nat.min_assoc, ← List.take_eq_take_min, ← List.drop_eq_drop_min]
    exact streamRead_plannedData hn hc

/-! ## The report of a frame -/

/-- A response that reports a frame is its `frameReport`, with the key that its key bytes are. -/
theorem reports_frameReport {b0 b1 : Byte} {ext kb data : Bytes} {r : Rsp} (h : Reports b0 b1 ext kb data r) :
    ∃ key, hdrMsk b1 = key.isSome ∧ kb = keyPart key ∧ r = frameReport (hdrOpc b0) (hdrFin b0) key data := by
  have hkey := h.keyLen
  cases hm : hdrMsk b1 with
  | false =>
    rw [hm] at hkey
    exact ⟨none, rfl, List.length_eq_zero_iff.mp hkey, h.unmasked hm⟩
  | true =>
    rw [hm] at hkey
    obtain ⟨a, b, c, d, rfl⟩ := List.length_eq_four.mp hkey
    exact ⟨some ⟨a, b, c, d⟩, rfl, rfl, h.masked a b c d hm rfl⟩

/-! ## Placed words -/

/-- The state in D_EXT with these two header bytes. -/
def atExtension (b0 b1 : Byte) (s : State) : State :=
  { latchHeader (hdrOpc b0) (hdrFin b0) (hdrMsk b1) (hdrLen7 b1) s with phase := .dExt, hdr := [b0, b1] }

section
variable {s : State} {nbits w : Nat} {p : Part}

theorem decodeTableWord_eq_some {i : Instr} (h : decodeTableWord nbits w = some i) :
    ∃ p, tablePart nbits w = some p ∧ decode Config.default.payloadMax p = .ok i := by
  unfold decodeTableWord at h
  split at h
  · rename_i p hp
    refine ⟨p, hp, ?_⟩
    cases hd : decode Config.default.payloadMax p with
    | ok j => rw [hd] at h; cases h; rfl
    | reject r => rw [hd] at h; cases h
  · cases h

/-- What a word of the opcode table gives the decoder, and where it is placed: a command with HOST, a part of a frame in
the stream of a DECODE (log 9). -/
theorem withFetchWord_cases (s : State) (h : tablePart nbits w = some p) :
    (nbits = 32 ∧ p = .command (BitVec.ofNat 32 w) [] ∧
      s.withFetchWord nbits w = { s with phase := .idle, host := .offer (BitVec.ofNat 32 w) [] :: s.host }) ∨
    (nbits = 16 ∧ ∃ b0 b1, p = .header b0 b1 ∧ s.withFetchWord nbits w = withStreamPart [b0, b1] s) ∨
    (nbits = 16 ∧ ∃ b0 b1 ext, ext ≠ [] ∧ ext.length = extSize (hdrLen7 b1) ∧ p = .extension (hdrLen7 b1) ext ∧
      s.withFetchWord nbits w = atExtension b0 b1 (withStreamPart ext s)) := by
  have hplace : s.withFetchWord nbits w = placePart (BitVec.ofNat 16 w) p s := by rw [State.withFetchWord, h]
  rw [hplace]
  unfold tablePart at h
  split_ifs at h with _ h32 h16
  · cases h
    exact .inl ⟨h32, rfl, rfl⟩
  · simp only at h
    split_ifs at h with h0
    · cases h
      exact .inr (.inl ⟨h16, _, _, rfl, rfl⟩)
    · cases h
      exact .inr (.inr ⟨h16, _, _, _, by simpa using h0, List.length_replicate, rfl, rfl⟩)

/-- Without a payload `PAYLOAD_MAX` refuses no command word (R72). -/
theorem decodeCmd_noPayload (pmax pmax' w : Word) : decodeCmd pmax w [] = decodeCmd pmax' w [] := rfl

/-- Bytes put before `S`, with an answer that serves them, come whole. -/
theorem readPart_placed {n : Nat} {b : Bytes} (hp : s.part = []) (hn : b.length = n) (hb : b ≠ []) :
    readPart n { s with stream := b ++ s.stream, plan := servedPlan b.length s.plan } =
      .got b { s with requests := s.requests ++ [n] } := by
  subst hn
  have hn : 1 ≤ b.length := List.length_pos_iff.mpr hb
  refine readPart_of_whole_answer hp hb ?_
  cases s.plan with
  | whole =>
    rw [streamRead_whole hn rfl]
    simp [servedPlan]
  | chunked c =>
    rw [streamRead_plannedData hn rfl]
    simp

end

/-! ## The bytes a DECODE in progress has consumed -/

theorem keyPart_keyOf {b : Bytes} (h : b.length = 4) : keyPart (some (keyOf b)) = b := by
  obtain ⟨_, _, _, _, rfl⟩ := List.length_eq_four.mp h
  rfl

/-- `frameReport` reports the frame whose parts have the sizes its header gives. -/
theorem reports_of_sizes {b0 b1 : Byte} {ext data : Bytes} {key : Option Key} (hm : hdrMsk b1 = key.isSome)
    (he : ext.length = extSize (hdrLen7 b1)) (hd : data.length = lenDec (hdrLen7 b1) ext) :
    Reports b0 b1 ext (keyPart key) data (frameReport (hdrOpc b0) (hdrFin b0) key data) := by
  refine ⟨he, ?_, hd, fun h => ?_, fun a b c d h hk => ?_⟩
  all_goals cases key
  · rw [hm]; rfl
  · rw [hm]; rfl
  · rfl
  · simp [hm] at h
  · simp [hm] at h
  · cases hk; rfl

/-- `S` began with a frame that the response reports, and `rest` is what followed it. -/
def FrameReported (S rest : Bytes) (r : Rsp) : Prop :=
  ∃ b0 b1 ext kb data, S = b0 :: b1 :: (ext ++ kb ++ data) ++ rest ∧ Reports b0 b1 ext kb data r

/-- The length has been read, and `ext` are the bytes of its extension. -/
def LengthRead (ext : Bytes) (s : State) : Prop :=
  ∃ l len, s.len7 = some l ∧ ext.length = extSize l ∧ s.len = some len ∧ len.toNat = lenDec l ext

/-- The bytes consumed since the DECODE had `S` before it are in the block's registers, but for the extension, of which
only the length is kept; a DECODE that has completed has reported them. -/
def Accounted (S : Bytes) (s : State) : Prop :=
  match s.phase with
  | .idle => ∀ r, s.rsp = some r → r.status = 0#3 → FrameReported S s.stream r
  | .dHdr => S = s.part ++ s.stream
  | .dExt => S = s.hdr ++ (s.part ++ s.stream)
  | .dKey => ∃ ext, LengthRead ext s ∧ S = s.hdr ++ (ext ++ (s.part ++ s.stream))
  | .dPay => ∃ ext, LengthRead ext s ∧ S = s.hdr ++ (ext ++ (keyPart s.key ++ (s.buf ++ s.stream)))

section
variable {S ext : Bytes} {s t : State}

theorem accounted_idle (h : s.phase = .idle) :
    Accounted S s ↔ ∀ r, s.rsp = some r → r.status = 0#3 → FrameReported S s.stream r := by
  simp [Accounted, h]

theorem accounted_dHdr (h : s.phase = .dHdr) : Accounted S s ↔ S = s.part ++ s.stream := by
  simp [Accounted, h]

theorem accounted_dExt (h : s.phase = .dExt) : Accounted S s ↔ S = s.hdr ++ (s.part ++ s.stream) := by
  simp [Accounted, h]

theorem accounted_dKey (h : s.phase = .dKey) :
    Accounted S s ↔ ∃ ext, LengthRead ext s ∧ S = s.hdr ++ (ext ++ (s.part ++ s.stream)) := by
  simp [Accounted, h]

theorem accounted_dPay (h : s.phase = .dPay) :
    Accounted S s ↔ ∃ ext, LengthRead ext s ∧ S = s.hdr ++ (ext ++ (keyPart s.key ++ (s.buf ++ s.stream))) := by
  simp [Accounted, h]

/-- An error has a status of its own (R230). -/
theorem raiseError_accounted {e : FrameError} (h : raiseError e s = .next t) : Accounted S t := by
  rw [raiseError_next h, accounted_idle rfl]
  rintro r hr h0
  cases hr
  cases e <;> cases h0

theorem complete_accounted (hh : HeaderLatched s) (hl : LengthRead ext s) (hk : s.msk = some s.key.isSome)
    (hall : ∀ len, s.len = some len → s.buf.length = len.toNat)
    (hx : S = s.hdr ++ (ext ++ (keyPart s.key ++ (s.buf ++ s.stream)))) (h : complete s = .next t) : Accounted S t := by
  obtain ⟨b0, b1, hhdr, hop, hfin, hm, h7⟩ := hh
  obtain ⟨l, len, hl7, he, hlen, hdec⟩ := hl
  obtain rfl : hdrLen7 b1 = l := Option.some.inj (h7.symm.trans hl7)
  have hdata := hall len hlen
  have hends := complete_ends hop hfin hk rfl (by rw [hlen, hdata, BitVec.ofNat_toNat, BitVec.setWidth_eq])
  obtain ⟨m, s', t', hs', hm0, hrun, hidle, hrsp, hrest⟩ := hends
  obtain rfl : m = 0 := Nat.le_zero.mp hm0
  cases hrun
  cases hs'.symm.trans h
  refine (accounted_idle hidle).mpr fun r hr _ => ?_
  cases hrsp.symm.trans hr
  refine ⟨b0, b1, ext, keyPart s.key, s.buf, by simp [hx, hhdr, hrest], reports_of_sizes ?_ he (hdata.trans hdec)⟩
  exact Option.some.inj (hm.symm.trans hk)

theorem enterPayload_accounted (hh : HeaderLatched s) (hl : LengthRead ext s) (hk : s.msk = some s.key.isSome)
    (hb : s.buf = []) (hx : S = s.hdr ++ (ext ++ (keyPart s.key ++ s.stream))) (h : enterPayload s = .next t) :
    Accounted S t := by
  have hx' : S = s.hdr ++ (ext ++ (keyPart s.key ++ (s.buf ++ s.stream))) := by rw [hb]; exact hx
  obtain ⟨len, hlen, ⟨rfl, h⟩ | ⟨-, rfl⟩⟩ := enterPayload_next h
  · refine complete_accounted hh hl hk (fun len hl' => ?_) hx' h
    cases hlen.symm.trans hl'
    rw [hb]; rfl
  · exact (accounted_dPay rfl).mpr ⟨ext, hl, hx'⟩

theorem setLength_accounted {l : Len7} (hh : HeaderLatched s) (h7 : s.len7 = some l) (he : ext.length = extSize l)
    (hk : s.key = none) (hb : s.buf = []) (hp : s.part = []) (hx : S = s.hdr ++ (ext ++ s.stream))
    (h : setLength (lenDec l ext) s = .next t) : Accounted S t := by
  obtain ⟨hle, h⟩ := setLength_next h
  have hlt := s.cfg.payloadMax.isLt
  have hl : LengthRead ext { s with len := some (BitVec.ofNat 32 (lenDec l ext)) } :=
    ⟨l, _, h7, he, rfl, by rw [BitVec.toNat_ofNat]; omega⟩
  obtain ⟨-, rfl⟩ | ⟨hm, h⟩ := afterLength_next h
  · exact (accounted_dKey rfl).mpr ⟨ext, hl, by rw [hp]; exact hx⟩
  · refine enterPayload_accounted (ext := ext) ?_ hl ?_ ?_ ?_ h
    exacts [hh, by rw [hk]; exact hm, hb, by rw [hk]; exact hx]

theorem runHeader_accounted {b0 b1 : Byte} (hh : s.hdr = [b0, b1]) (hk : s.key = none) (hb : s.buf = [])
    (hp : s.part = []) (hx : S = s.hdr ++ s.stream)
    (h : runHeader (hdrOpc b0) (hdrFin b0) (hdrMsk b1) (hdrLen7 b1) s = .next t) : Accounted S t := by
  obtain ⟨-, rfl⟩ | ⟨h0, h⟩ := runHeader_next h
  · exact (accounted_dExt rfl).mpr (by rw [latchHeader_part, hp]; exact hx)
  · have hin : (hdrLen7 b1).toNat ≤ 125 := by
      obtain ⟨hl, -⟩ | ⟨-, he⟩ | ⟨-, he⟩ := extSize_cases (hdrLen7 b1) <;> omega
    rw [← lenDec_inline hin []] at h
    exact setLength_accounted (ext := []) (s := latchHeader (hdrOpc b0) (hdrFin b0) (hdrMsk b1) (hdrLen7 b1) s)
      ⟨b0, b1, hh, rfl, rfl, rfl, rfl⟩ rfl h0.symm hk hb hp hx h

/-- A part step accounts for the bytes if a read that stays and the use of the part read do. -/
theorem partStep_accounted {n : Nat} {e : FrameError} {use : Bytes → State → Result} (hu : PartUnder n s)
    (hstay : ∀ p r c q, c ++ r = s.part ++ s.stream →
      Accounted S { s with plan := p, stream := r, part := c, requests := q })
    (huse : ∀ b p r q, b.length = n → b ++ r = s.part ++ s.stream →
      use b { s with plan := p, stream := r, part := [], requests := q } = .next t → Accounted S t)
    (h : partStep n e s use = .next t) : Accounted S t := by
  obtain hr | ⟨s', -, h⟩ | ⟨b, s', hr, hb, h⟩ := partStep_next h
  · have hbytes := readPart_stay_bytes hu hr
    obtain ⟨-, p, r, c, q, rfl⟩ := readPart_stay_partUnder hu hr
    exact hstay p r c q hbytes
  · exact raiseError_accounted h
  · have hbytes := readPart_got_bytes hu hr
    obtain ⟨-, p, m, -, rfl⟩ := readPart_got hu hr
    exact huse b p _ _ hb hbytes h

theorem hdrStep_accounted (hinv : Inv s) (hp : s.phase = .dHdr) (hx : S = s.part ++ s.stream)
    (h : phaseStep s = .next t) : Accounted S t := by
  obtain ⟨hreg, hu, -⟩ := (phaseInv_dHdr hp).mp hinv.inPhase
  rw [phaseStep_dHdr hp] at h
  refine partStep_accounted hu (fun p r c q hbytes => ?_) (fun b p r q hb hbytes h => ?_) h
  · exact (accounted_dHdr (by exact hp)).mpr (hx.trans hbytes.symm)
  · obtain ⟨b0, b1, rfl⟩ := List.length_eq_two.mp hb
    refine runHeader_accounted ?_ ?_ ?_ ?_ ?_ h
    exacts [rfl, hreg.key, hreg.buf, rfl, hx.trans hbytes.symm]

theorem extStep_accounted (hinv : Inv s) (hp : s.phase = .dExt) (hx : S = s.hdr ++ (s.part ++ s.stream))
    (h : phaseStep s = .next t) : Accounted S t := by
  obtain ⟨hh, ⟨l, hl, hu⟩, -, hk, hb, -⟩ := (phaseInv_dExt hp).mp hinv.inPhase
  rw [phaseStep_dExt hp hl] at h
  refine partStep_accounted hu (fun p r c q hbytes => ?_) (fun ext p r q he hbytes h => ?_) h
  · exact (accounted_dExt (by exact hp)).mpr (by rw [hbytes]; exact hx)
  · refine setLength_accounted (l := l) ?_ ?_ he ?_ ?_ ?_ ?_ h
    exacts [hh, hl, hk, hb, rfl, by rw [hbytes]; exact hx]

theorem keyStep_accounted (hinv : Inv s) (hp : s.phase = .dKey) (hl : LengthRead ext s)
    (hx : S = s.hdr ++ (ext ++ (s.part ++ s.stream))) (h : phaseStep s = .next t) : Accounted S t := by
  obtain ⟨hh, -, hm, hu, -, hb, -⟩ := (phaseInv_dKey hp).mp hinv.inPhase
  rw [phaseStep_dKey hp] at h
  refine partStep_accounted hu (fun p r c q hbytes => ?_) (fun kb p r q hkb hbytes h => ?_) h
  · exact (accounted_dKey (by exact hp)).mpr ⟨ext, hl, by rw [hbytes]; exact hx⟩
  · refine enterPayload_accounted (ext := ext) ?_ ?_ ?_ ?_ ?_ h
    exacts [hh, hl, hm, hb, by rw [keyPart_keyOf hkb, hbytes]; exact hx]

theorem payStep_accounted (hinv : Inv s) (hp : s.phase = .dPay) (hl : LengthRead ext s)
    (hx : S = s.hdr ++ (ext ++ (keyPart s.key ++ (s.buf ++ s.stream)))) (h : phaseStep s = .next t) :
    Accounted S t := by
  obtain ⟨hh, -, -, hk, -, -⟩ := (phaseInv_dPay hp).mp hinv.inPhase
  rw [phaseStep_dPay hp] at h
  obtain ⟨len, hlen, s', -, ⟨hread, rfl⟩ | ⟨-, h⟩ | ⟨b, -, hread, h⟩⟩ := payloadStep_next h
  · obtain ⟨-, ⟨-, rfl⟩ | ⟨c, -, rfl⟩⟩ := streamRead_held hread
    · exact (accounted_dPay hp).mpr ⟨ext, hl, hx⟩
    · exact (accounted_dPay (by exact hp)).mpr ⟨ext, hl, hx⟩
  · exact raiseError_accounted h
  · obtain ⟨-, p, m, -, rfl, rfl⟩ := streamRead_data hread
    have hbytes : (s.buf ++ s.stream.take m) ++ s.stream.drop m = s.buf ++ s.stream := by simp
    obtain ⟨hall, h⟩ | ⟨-, rfl⟩ := h
    · have hmk : s.msk = some s.key.isSome := by
        obtain ⟨_, b1, -, -, -, hm, -⟩ := hh
        rw [hm, Option.some_inj] at hk ⊢
        exact Bool.eq_iff_iff.mpr hk
      have hlast : ∀ len', s.len = some len' → (s.buf ++ s.stream.take m).length = len'.toNat := by
        intro len' hlen'
        cases hlen.symm.trans hlen'
        simpa using hall
      refine complete_accounted (ext := ext) ?_ ?_ ?_ ?_ ?_ h
      exacts [hh, hl, hmk, hlast, by rw [hbytes]; exact hx]
    · exact (accounted_dPay (by exact hp)).mpr ⟨ext, hl, by rw [hbytes]; exact hx⟩

/-- The block's own step accounts for the bytes it consumes. -/
theorem phaseStep_accounted (hinv : Inv s) (ha : Accounted S s) (h : phaseStep s = .next t) : Accounted S t := by
  match hp : s.phase with
  | .idle => rw [phaseStep_idle hp] at h; cases h; exact ha
  | .dHdr => exact hdrStep_accounted hinv hp ((accounted_dHdr hp).mp ha) h
  | .dExt => exact extStep_accounted hinv hp ((accounted_dExt hp).mp ha) h
  | .dKey =>
    obtain ⟨ext, hl, hx⟩ := (accounted_dKey hp).mp ha
    exact keyStep_accounted hinv hp hl hx h
  | .dPay =>
    obtain ⟨ext, hl, hx⟩ := (accounted_dPay hp).mp ha
    exact payStep_accounted hinv hp hl hx h

end

/-! ## Runs -/

/-- What every step keeps holds at the end of every run. -/
theorem runsTo_keeps {P : State → Prop} (hstep : ∀ s t, P s → step s = .next t → P t) {n : Nat} {s t : State}
    (hs : P s) (h : RunsTo n s t) : P t := by
  induction n generalizing s with
  | zero => cases h; exact hs
  | succ n ih =>
    simp only [RunsTo, Host.Core.run] at h
    split at h
    · rename_i s' hs'
      exact ih (hstep s s' hs hs') h
    · cases h
    · cases h

/-- A block that HOST leaves alone, in or after a DECODE that had `S` before it. -/
structure DecodeRun (S : Bytes) (s : State) : Prop where
  inv : Inv s
  unmarked : s.refused = false
  alone : s.host = []
  accounted : Accounted S s

theorem DecodeRun.step {S : Bytes} {s t : State} (h : DecodeRun S s) (hs : step s = .next t) : DecodeRun S t := by
  rw [step_quiet h.unmarked h.alone] at hs
  have hb := phaseStep_block hs
  exact ⟨h.inv.ofPhaseStep hs, hb.refused.trans h.unmarked, hb.host.trans h.alone,
    phaseStep_accounted h.inv h.accounted hs⟩

/-! ## The obligations -/

/-- Settles O28: HOST leaves the block its own step, in which both answers make a read fail. -/
theorem errorAndEndAlike : Obligations.ErrorAndEndAlike := by
  intro s c hb hr hq
  obtain hw | ⟨rest, hh⟩ := hq.cases
  · exact (step_waits (s := withError c s) hr hb hw).trans
      ((phaseStep_error_end c hb).trans (step_waits (s := withEnd c s) hr hb hw).symm)
  · exact (step_wait (s := withError c s) hr hh).trans
      ((phaseStep_error_end (s := { s with host := rest }) c hb).trans (step_wait (s := withEnd c s) hr hh).symm)

/-- Settles O32: a step without an answer leaves what a read without an answer leaves. -/
theorem heldUntilStreamAnswers : Obligations.HeldUntilStreamAnswers := by
  intro s hinv hb hr hw
  rw [step_waits hr hb hw]
  exact ⟨fun h => phaseStep_of_held hinv hb fun n hn => streamRead_usedUp hn h,
    fun c h => phaseStep_of_held hinv hb fun n hn => streamRead_late hn h⟩

/-- Settles O23, by the mode and the answer. -/
theorem headerPartRead : Obligations.HeaderPartRead := by
  refine fun n s s' => ⟨fun hc b h => ?_, fun hc b h => ?_, readPart_of_err⟩
  · rw [readPart_singleShot_data hc h]
    exact ⟨fun hb => if_pos hb, fun hb => if_neg (Nat.not_lt.mpr hb)⟩
  · refine ⟨?_, fun hb hlt => ?_, fun hb hle => ?_⟩
    · rintro rfl
      exact readPart_of_noBytes (by rwa [partRequest_loop hc])
    · rw [readPart_loop_data hc h hb, if_pos (by simpa using hlt)]
    · rw [readPart_loop_data hc h hb, if_neg (by simpa using hle)]

/-- Settles O7: the part read is decoded and its row run. -/
theorem stepRunsFramePart : Obligations.StepRunsFramePart := by
  intro s s' hr hw
  refine ⟨fun b0 b1 hp h => ?_, fun len7 ext i hp hl h hi => ?_, fun a b c d hp h => ?_⟩
  · rw [step_waits hr (by simp [hp]) hw]
    exact phaseStep_runs_header hp h
  · rw [step_waits hr (by simp [hp]) hw]
    exact phaseStep_runs_extension hp hl h hi
  · rw [step_waits hr (by simp [hp]) hw]
    exact phaseStep_runs_key hp h

/-- Settles O26: a failed read raises the error of its phase, whose code is the status. -/
theorem failedReadReported : Obligations.FailedReadReported := by
  intro s s' hr hw hm
  refine ⟨fun hp h => ?_, fun len7 hp hl h => ?_, fun hp h => ?_, fun len hp hl h => ?_⟩
  all_goals rw [step_waits hr (by simp [hp]) hw]
  · rw [phaseStep_dHdr hp]
    exact partStep_fails hm h
  · rw [phaseStep_dExt hp hl]
    exact partStep_fails hm h
  · rw [phaseStep_dKey hp]
    exact partStep_fails hm h
  · have hc : s'.cfg = s.cfg := h.elim (fun h => (ReadStep.ofErr h).cfg) fun h => (ReadStep.ofData h).cfg
    rw [phaseStep_dPay hp, payloadStep_of_failed hl h]
    exact raiseError_propagate (hc ▸ hm)

/-- Settles O14: an offered word 1 without a payload is DECODE's. -/
theorem decodeAccepted : Obligations.DecodeAccepted := fun _ => ⟨rfl, fun _ hi hr hh => step_offer hr hh hi⟩

/-- Settles O16: every row runs the header step of its OPCODE, which sets an inline length or goes to D_EXT. -/
theorem frameRowsResult : Obligations.FrameRowsResult := by
  intro row hrow fin rsv masked len7 s
  rw [exec_of_frameRows hrow]
  refine ⟨fun h => runHeader_extended h s, fun h hn => ?_, fun h hn hm => ?_, fun h hn hm h0 => ?_, fun h0 hm hb => ?_⟩
  · rw [runHeader_inline h]
    exact setLength_unsupported hn
  · rw [runHeader_inline h, hm]
    exact setLength_masked rfl hn
  · rw [runHeader_inline h, hm]
    exact setLength_unmasked_nonempty rfl hn h0
  · rw [runHeader_inline (by omega), h0, hm]
    exact setLength_unmasked_zero (s := latchHeader row.1 fin false len7 s) rfl rfl rfl hb

/-- Settles O18: each row enters the payload, MASK_ON with its key stored. -/
theorem maskRowsResult : Obligations.MaskRowsResult := by
  intro s len key hl
  refine ⟨fun h0 => enterPayload_nonempty (s := { s with key := some key }) hl h0,
    fun h0 => enterPayload_nonempty hl h0, ?_⟩
  rintro op fin rfl hop hfin hb
  refine ⟨fun hm => ?_, fun hm => ?_⟩
  · exact (enterPayload_empty (s := { s with key := some key }) hl).trans
      (complete_empty_masked (s := { s with key := some key }) hop hfin hm hl rfl hb)
  · exact (enterPayload_empty hl).trans (complete_empty_unmasked hop hfin hm hl hb)

/-- Settles O29: the read of the first step after the DECODE is accepted fails, and consumes nothing. -/
theorem decodeOnEndedStream : Obligations.DecodeOnEndedStream := by
  intro s hi hr hm hh hend
  have haccept : step s = .next (acceptDecode { s with host := [] }) := step_offer hr hh hi
  obtain ⟨s', hfail, hx⟩ := StreamEnded.step_dHdr (s := acceptDecode { s with host := [] }) hend rfl rfl hr rfl hm
  exact ⟨_, runsTo_succ haccept (runsTo_succ hfail rfl), rfl, rfl, hx⟩

/-- Settles O8: an IDLE block takes the placed command, and a DECODE reads the placed part in one answer. -/
theorem stepRunsPlacedTableWord : Obligations.StepRunsPlacedTableWord := by
  intro s nbits w i hr hdec
  obtain ⟨p, hp, hi⟩ := decodeTableWord_eq_some hdec
  obtain ⟨rfl, rfl, hs⟩ | ⟨rfl, b0, b1, rfl, hs⟩ | ⟨rfl, b0, b1, ext, hne, hlen, rfl, hs⟩ := withFetchWord_cases s hp
  all_goals rw [hs]
  · refine ⟨{ s with phase := .idle }, ?_, fun _ => rfl, by simp⟩
    exact (step_offer (by exact hr) rfl rfl).trans (accept_of_ok ((decodeCmd_noPayload _ _ _).trans hi))
  · cases hi
    have hread := readPart_placed (n := 2) (s := acceptDecode s) rfl rfl (List.cons_ne_nil b0 [b1])
    have hrun := (step_wait (s := withStreamPart [b0, b1] s) hr rfl).trans (phaseStep_runs_header rfl hread)
    exact ⟨_, hrun, by simp, fun _ => ⟨rfl, rfl, rfl, rfl, .inl rfl, rfl, rfl, rfl⟩⟩
  · have hread := readPart_placed (s := atExtension b0 b1 (acceptDecode s)) rfl hlen hne
    have hrun := (step_wait (s := atExtension b0 b1 (withStreamPart ext s)) hr rfl).trans
      (phaseStep_runs_extension rfl rfl hread hi)
    exact ⟨_, hrun, by simp, fun _ => ⟨rfl, rfl, rfl, rfl, .inr rfl, rfl, rfl, rfl⟩⟩

/-- Settles O50: every step accounts for the bytes consumed, and a DECODE that has completed has reported them. -/
theorem decodeReportsTheFrame : Obligations.DecodeReportsTheFrame := by
  intro n s t r hinv hp hpart hr hh hrun hidle hrsp hok
  have hstart : DecodeRun s.stream s := ⟨hinv, hr, hh, (accounted_dHdr hp).mpr (by rw [hpart]; rfl)⟩
  have hend : DecodeRun s.stream t := runsTo_keeps (fun _ _ => DecodeRun.step) hstart hrun
  exact (accounted_idle hidle).mp hend.accounted r hrsp hok

/-- Settles O51: the response that reports the frame is the one the offered DECODE ends with. -/
theorem everyFrameDecodes : Obligations.EveryFrameDecodes := by
  intro s b0 b1 ext kb data rest r hi hr hh hw hx hrep hd
  obtain ⟨key, hm, rfl, rfl⟩ := reports_frameReport hrep
  obtain ⟨n, _, t, hs, hn, hrun, hend⟩ := offeredDecode_ends (b0 := b0) hi hr hh hw hm hrep.extLen hrep.dataLen.symm hd
    (by simpa using hx)
  cases hs
  exact ⟨n, t, hn, hrun, hend⟩

/-- Settles O20: the answer is `m` bytes, which are all that is missing or not. -/
theorem payloadStepResult : Obligations.PayloadStepResult := by
  intro s len hp hr hw hl hlt hne m plan' hplan
  obtain ⟨hread, hm0, hmx⟩ := streamRead_answers (n := len.toNat - s.buf.length) (by omega) hne hplan
  have hb : s.stream.take m ≠ [] := by simp [hne]; omega
  have hlen : (s.buf ++ s.stream.take m).length = s.buf.length + m := by simp [hmx]
  rw [step_waits hr (by simp [hp]) hw, phaseStep_dPay hp, payloadStep_of_data hl hread hb]
  refine ⟨fun hmore => ?_, fun op fin hall hop hfin hm => ?_, fun op fin key hall hop hfin hm hk => ?_⟩
  · exact if_neg (by rw [hlen]; omega)
  · rw [afterPayload, if_pos (hlen.trans hall)]
    exact complete_unmasked hop hfin hm hl
  · rw [afterPayload, if_pos (hlen.trans hall)]
    exact complete_masked hop hfin hm hl hk

end Sys2Proof.Machine
end

section
/-! PROOFS. The statements about exceptions (spec/60_exceptions.md). First a read that fails and the payload step by its
answer; then why a step is refused; then that the block's own step does not fault where the invariant holds; then the
obligations. -/

open Sys2Proof.Claims

namespace Sys2Proof.Machine

section
variable {s s' : State} {q : Refusal} {f : Fault}

/-! ## A read that fails -/

/-- A failed read of the DECODE's phase raises the error of that phase (R182 to R185). -/
theorem phaseStep_of_readFails (h : ReadFails s s') :
    s.phase ≠ .idle ∧ s'.cfg = s.cfg ∧ ∃ e, phaseStep s = raiseError e s' := by
  have hpart {n : Nat} (h : readPart n s = .failed s') : s'.cfg = s.cfg := (readPart_readStep (.inr (.inl h))).cfg
  obtain ⟨hp, h⟩ | ⟨len7, hp, hl, h⟩ | ⟨hp, h⟩ | ⟨len, hp, hl, h⟩ := h
  · exact ⟨by simp [hp], hpart h, _, (phaseStep_dHdr hp).trans (partStep_of_failed h)⟩
  · exact ⟨by simp [hp], hpart h, _, (phaseStep_dExt hp hl).trans (partStep_of_failed h)⟩
  · exact ⟨by simp [hp], hpart h, _, (phaseStep_dKey hp).trans (partStep_of_failed h)⟩
  · have hc : s'.cfg = s.cfg := h.elim (fun h => (ReadStep.ofErr h).cfg) fun h => (ReadStep.ofData h).cfg
    exact ⟨by simp [hp], hc, _, (phaseStep_dPay hp).trans (payloadStep_of_failed hl h)⟩

/-- Under OBSERVE the step whose read fails is refused in the state the read left (R235). -/
theorem step_observe_of_readFails (hr : s.refused = false) (hw : HostWaits s) (hm : s.cfg.failureMode = .observe)
    (h : ReadFails s s') : step s = .refused (.observeMode { s' with refused := true }) := by
  obtain ⟨hb, hc, e, hs⟩ := phaseStep_of_readFails h
  rw [step_waits hr hb hw, hs]
  exact raiseError_observe (hc ▸ hm)

/-! ## The payload step by its answer -/

/-- The payload step is held, fails, adds an answer to `buf`, or has no byte to ask for. -/
theorem payloadStep_cases {len : Word} (hl : s.len = some len) :
    (∃ s', payloadStep s = .next s') ∨
    (∃ s', (streamRead (len.toNat - s.buf.length) s = .err s' ∨ streamRead (len.toNat - s.buf.length) s = .data [] s') ∧
      payloadStep s = raiseError .payload s') ∨
    (∃ b s', streamRead (len.toNat - s.buf.length) s = .data b s' ∧
      payloadStep s = afterPayload len { s' with buf := s'.buf ++ b }) ∨
    (len.toNat - s.buf.length = 0 ∧ payloadStep s = .fault .emptyRequest) := by
  match h : streamRead (len.toNat - s.buf.length) s with
  | .held s' => exact .inl ⟨s', payloadStep_of_held hl h⟩
  | .err s' => exact .inr (.inl ⟨s', .inl rfl, payloadStep_of_failed hl (.inl h)⟩)
  | .data [] s' => exact .inr (.inl ⟨s', .inr rfl, payloadStep_of_failed hl (.inr h)⟩)
  | .data (x :: xs) s' => exact .inr (.inr (.inl ⟨_, s', rfl, payloadStep_of_data hl h (List.cons_ne_nil x xs)⟩))
  | .noRequest => exact .inr (.inr (.inr ⟨streamRead_noRequest h, payloadStep_of_noRequest hl h⟩))

theorem afterPayload_not_refused {len : Word} : afterPayload len s ≠ .refused q := by
  unfold afterPayload
  split
  · exact complete_not_refused
  · simp

/-! ## Why the block's own step is refused -/

/-- The two reasons for which the block's own step is refused: under OBSERVE its read fails, or the part it has read
declares a length that is not supported (R248). -/
def PhaseRefusal (s : State) (q : Refusal) : Prop :=
  (s.cfg.failureMode = .observe ∧ ∃ s', ReadFails s s' ∧ q = .observeMode { s' with refused := true }) ∨
  (∃ n left, s.cfg.payloadMax.toNat < n ∧ Declares s n ∧ q = .lengthUnsupported left)

theorem PhaseRefusal.ofReadFails (hf : ReadFails s s') (h : phaseStep s = .refused q) : PhaseRefusal s q := by
  obtain ⟨-, hc, e, hs⟩ := phaseStep_of_readFails hf
  obtain ⟨hm, rfl⟩ := raiseError_refused (hs.symm.trans h)
  exact .inl ⟨hc ▸ hm, s', hf, rfl⟩

/-- Either the part of a refused part step was not read, or what the step does with the part is refused. -/
theorem partStep_refused_read {n : Nat} {e : FrameError} {use : Bytes → State → Result}
    (h : partStep n e s use = .refused q) :
    (∃ s', readPart n s = .failed s') ∨
    ∃ b s', readPart n s = .got b s' ∧ b.length = n ∧ s'.cfg = s.cfg ∧ use b s' = .refused q := by
  unfold partStep at h
  split at h
  · cases h
  · exact .inl ⟨_, ‹_›⟩
  · cases h
  · split at h
    · exact .inr ⟨_, _, ‹_›, ‹_›, (readPart_readStep (.inr (.inr ⟨_, ‹_›⟩))).cfg, h⟩
    · cases h

theorem phaseStep_refusal (h : phaseStep s = .refused q) : PhaseRefusal s q := by
  have hread {s'} (hf : ReadFails s s') : PhaseRefusal s q := .ofReadFails hf h
  match hp : s.phase with
  | .idle => rw [phaseStep_idle hp] at h; cases h
  | .dHdr =>
    rw [phaseStep_dHdr hp] at h
    obtain ⟨s', hf⟩ | ⟨b, s', hg, hb, hc, h⟩ := partStep_refused_read h
    · exact hread (.inl ⟨hp, hf⟩)
    · obtain ⟨b0, b1, rfl⟩ := List.length_eq_two.mp hb
      obtain ⟨hl, hlt, rfl⟩ := runHeader_refused h
      exact .inr ⟨_, _, hc ▸ hlt, .inr (.inl ⟨hp, b0, b1, s', hg, hl, rfl⟩), rfl⟩
  | .dExt =>
    match hl : s.len7 with
    | none => rw [phaseStep_dExt_fault hp hl] at h; cases h
    | some l =>
      rw [phaseStep_dExt hp hl] at h
      obtain ⟨s', hf⟩ | ⟨b, s', hg, -, hc, h⟩ := partStep_refused_read h
      · exact hread (.inr (.inl ⟨l, hp, hl, hf⟩))
      · obtain ⟨hlt, rfl⟩ := setLength_refused h
        exact .inr ⟨_, _, hc ▸ hlt, .inr (.inr ⟨hp, l, b, s', hl, hg, rfl⟩), rfl⟩
  | .dKey =>
    rw [phaseStep_dKey hp] at h
    obtain ⟨s', hf⟩ | ⟨b, s', -, -, -, h⟩ := partStep_refused_read h
    · exact hread (.inr (.inr (.inl ⟨hp, hf⟩)))
    · exact absurd h enterPayload_not_refused
  | .dPay =>
    rw [phaseStep_dPay hp] at h
    match hl : s.len with
    | none => rw [payloadStep_noLength hl] at h; cases h
    | some len =>
      obtain ⟨s', hs⟩ | ⟨s', hf, -⟩ | ⟨b, s', -, hs⟩ | ⟨-, hs⟩ := payloadStep_cases hl
      · rw [hs] at h; cases h
      · exact hread (.inr (.inr (.inr ⟨len, hp, hl, hf⟩)))
      · rw [hs] at h; exact absurd h afterPayload_not_refused
      · rw [hs] at h; cases h

/-! ## Why a step is refused -/

/-- A refused command is a reserved word, or an ENCODE word whose payload is too long (R72). -/
theorem accept_refused {w : Word} {p : Bytes} (h : accept w p s = .refused q) :
    ((∃ left, q = .cmdReserved left) ∧ (w.toNat % 4 ≠ 0 ∨ 128 ≤ w.toNat) ∧ (w.toNat = 1 → p ≠ [])) ∨
    ((∃ left, q = .lengthUnsupported left) ∧ w.toNat < 128 ∧ w.toNat % 4 = 0 ∧
      s.cfg.payloadMax.toNat < p.length) := by
  by_cases hhigh : 128 ≤ w.toNat
  · rw [accept_of_ok (decodeCmd_high hhigh _ p)] at h
    cases h
    exact .inl ⟨⟨_, rfl⟩, .inr hhigh, by omega⟩
  have hd := decodeCmd_low (w := w) (by omega) s.cfg.payloadMax p
  by_cases h0 : w.toNat % 4 = 0
  · rw [if_pos h0] at hd
    split at hd
    · rw [accept_of_ok hd, exec_encodeRow] at h
      cases h
    · rename_i hfit
      rw [accept, hd] at h
      cases h
      exact .inr ⟨⟨_, rfl⟩, by omega, h0, by simpa [payloadFits] using hfit⟩
  rw [if_neg h0] at hd
  by_cases h1 : w.toNat % 4 = 1
  · rw [if_pos h1] at hd
    split at hd
    · rename_i hres
      rw [accept_of_ok hd] at h
      cases h
      exact .inl ⟨⟨_, rfl⟩, .inl h0, fun hw hp => hres.elim (absurd hw) (absurd hp)⟩
    · rw [accept_of_ok hd] at h
      cases h
  · rw [if_neg h1] at hd
    split at hd
    all_goals
      rw [accept_of_ok hd] at h
      cases h
      exact .inl ⟨⟨_, rfl⟩, .inl h0, fun hw => by omega⟩

theorem waited_of_wait {rest : List HostMove} (h : s.host = .wait :: rest) : waited s = { s with host := rest } := by
  simp [waited, h]

theorem waited_of_not_wait (h : ∀ rest, s.host ≠ .wait :: rest) : waited s = s := by
  unfold waited
  split
  · exact absurd ‹_› (h _)
  · rfl

theorem waited_cfg (s : State) : (waited s).cfg = s.cfg := by
  unfold waited
  split <;> rfl

/-- R248's condition for a refusal of a step of `s`; the last two are never given to an unmarked state. -/
def Reason (s : State) : Refusal → Prop
  | .cmdReserved _ => s.phase = .idle ∧ ∃ w p rest, s.host = .offer w p :: rest ∧
      (w.toNat % 4 ≠ 0 ∨ 128 ≤ w.toNat) ∧ (w.toNat = 1 → p ≠ [])
  | .observeMode left => s.cfg.failureMode = .observe ∧ ∃ s', ReadFails (waited s) s' ∧ left = { s' with refused := true }
  | .lengthUnsupported _ => ∃ n, s.cfg.payloadMax.toNat < n ∧ Declares (waited s) n
  | .alreadyRefused _ => False
  | .notModelled _ => False

theorem Reason.ofPhase (h : phaseStep (waited s) = .refused q) : Reason s q := by
  have hc := waited_cfg s
  obtain ⟨hm, s', hf, rfl⟩ | ⟨n, left, hlt, hdec, rfl⟩ := phaseStep_refusal h
  · exact ⟨hc ▸ hm, s', hf, rfl⟩
  · exact ⟨n, hc ▸ hlt, hdec⟩

theorem step_refused_reason (hr : s.refused = false) (h : step s = .refused q) : Reason s q := by
  obtain ⟨rest, -, hs⟩ | ⟨hr', -, -⟩ | ⟨-, f, rest, -, hs⟩ | ⟨-, rest, hh, hs⟩ | ⟨-, hi, w, p, rest, hh, hs⟩ | ⟨-, hh, hs⟩ :=
    step_cases s
  · rw [hs] at h; cases h
  · rw [hr] at hr'; cases hr'
  · rw [hs] at h; exact absurd h hostRead_not_refused
  · have hw := waited_of_wait hh
    exact .ofPhase (by rw [hw, ← hs, h])
  · rw [hs] at h
    obtain ⟨⟨left, rfl⟩, hres⟩ | ⟨⟨left, rfl⟩, hlow, h0, hlt⟩ := accept_refused h
    · exact ⟨hi, w, p, rest, hh, hres⟩
    · refine ⟨p.length, hlt, ?_⟩
      rw [waited_of_not_wait (by simp [hh])]
      exact .inl ⟨hi, w, p, rest, hh, hlow, h0, rfl⟩
  · have hw : waited s = s := waited_of_not_wait fun rest hwait => by
      obtain hh | ⟨-, _, _, _, hh⟩ := hh <;> simp [hh] at hwait
    exact .ofPhase (by rw [hw, ← hs, h])

/-! ## No fault of the block -/

/-- With its header latched the block knows the opcode, the final flag and the MASK bit. -/
theorem HeaderLatched.isSome (h : HeaderLatched s) : s.opc.isSome ∧ s.fin.isSome ∧ s.msk.isSome := by
  obtain ⟨b0, b1, -, hop, hfin, hm, -⟩ := h
  simp [hop, hfin, hm]

/-- In D_PAY an answer is added and the frame completed from registers that all hold a value. -/
theorem payloadStep_not_fault (hinv : Inv s) (hp : s.phase = .dPay) : payloadStep s ≠ .fault f := by
  obtain ⟨hh, -, ⟨len, hl, hlt⟩, hk, -⟩ := (phaseInv_dPay hp).mp hinv.inPhase
  obtain ⟨hop, hfin, hm⟩ := hh.isSome
  obtain ⟨s', hs⟩ | ⟨s', -, hs⟩ | ⟨b, s', hd, hs⟩ | ⟨h0, -⟩ := payloadStep_cases hl
  · simp [hs]
  · rw [hs]; exact raiseError_not_fault
  · obtain ⟨-, p, m, -, -, rfl⟩ := streamRead_data hd
    rw [hs, afterPayload]
    split
    · have hkey : s.msk = some false ∨ (s.msk = some true ∧ s.key.isSome) := by
        obtain ⟨masked, hm⟩ := Option.isSome_iff_exists.mp hm
        cases masked with
        | false => exact .inl hm
        | true => exact .inr ⟨hm, hk.mp hm⟩
      obtain ⟨t, ht⟩ := complete_answers (s := { s with
        plan := p, stream := s.stream.drop m, requests := s.requests ++ [len.toNat - s.buf.length], buf := s.buf ++ b })
        hop hfin (by simp [hl]) hkey
      simp [ht]
    · simp
  · omega

/-- Each phase reads its registers only after they have been written (R249). -/
theorem phaseStep_not_fault (hinv : Inv s) : phaseStep s ≠ .fault f := by
  match hp : s.phase with
  | .idle => simp [phaseStep_idle hp]
  | .dHdr =>
    obtain ⟨-, hu, -⟩ := (phaseInv_dHdr hp).mp hinv.inPhase
    rw [phaseStep_dHdr hp]
    exact partStep_not_fault hu fun _ _ _ => runHeader_not_fault
  | .dExt =>
    obtain ⟨hh, ⟨l, hl, hu⟩, -⟩ := (phaseInv_dExt hp).mp hinv.inPhase
    obtain ⟨hop, hfin, hm⟩ := hh.isSome
    rw [phaseStep_dExt hp hl]
    refine partStep_not_fault hu fun b s' hg => ?_
    obtain ⟨-, p, m, -, rfl⟩ := readPart_got hu hg
    exact setLength_not_fault hop hfin hm
  | .dKey =>
    obtain ⟨hh, ⟨_, len, -, hl, -⟩, hm, hu, -⟩ := (phaseInv_dKey hp).mp hinv.inPhase
    obtain ⟨hop, hfin, -⟩ := hh.isSome
    rw [phaseStep_dKey hp]
    refine partStep_not_fault hu fun b s' hg => ?_
    obtain ⟨-, p, m, -, rfl⟩ := readPart_got hu hg
    obtain ⟨t, ht⟩ := enterPayload_answers (s := { s with
      plan := p, stream := s.stream.drop m, part := [], requests := s.requests ++ [4 - s.part.length],
      key := some (keyOf b) }) hop hfin (by simp [hl]) (.inr ⟨hm, rfl⟩)
    simp [ht]
  | .dPay =>
    rw [phaseStep_dPay hp]
    exact payloadStep_not_fault hinv hp

theorem accept_not_fault (w : Word) (p : Bytes) : accept w p s ≠ .fault f := by
  obtain ⟨op, final, -, hs⟩ | hs | hs | hs := accept_cases w p s
  · rw [hs, runEncode_next]; simp
  all_goals simp [hs]

theorem hostRead_fault {g : RspField} (h : hostRead g s = .fault f) :
    (s.rsp = none ∧ f = .rspNoValue) ∨ ∃ r, s.rsp = some r ∧ Absent r g ∧ f = .fieldAbsent g := by
  match hrsp : s.rsp with
  | none => rw [hostRead_noRsp hrsp] at h; cases h; exact .inl ⟨rfl, rfl⟩
  | some r =>
    by_cases ha : Absent r g
    · rw [hostRead_absent hrsp ha] at h; cases h; exact .inr ⟨r, rfl, ha, rfl⟩
    · rw [hostRead_present hrsp ha] at h; cases h

end

/-! ## The obligations -/

/-- Settles O27: each of the four reads is the read of its phase, whose failure raises an error. -/
theorem observeModeRefused : Obligations.ObserveModeRefused := by
  intro s s' hr hw hm
  have hstep := step_observe_of_readFails (s' := s') hr hw hm
  exact ⟨fun hp h => hstep (.inl ⟨hp, h⟩), fun len7 hp hl h => hstep (.inr (.inl ⟨len7, hp, hl, h⟩)),
    fun hp h => hstep (.inr (.inr (.inl ⟨hp, h⟩))), fun len hp hl h => hstep (.inr (.inr (.inr ⟨len, hp, hl, h⟩)))⟩

/-- Settles O37: every refusal of a step has R248's reason. -/
theorem refusalReasons : Obligations.RefusalReasons := fun _ hr =>
  ⟨fun _ h => step_refused_reason hr h, fun _ h => step_refused_reason hr h, fun _ h => step_refused_reason hr h,
   fun _ h => step_refused_reason hr h, fun _ h => step_refused_reason hr h⟩

/-- Settles O47, by HOST's next move: neither a command nor the block's own step faults. -/
theorem faultsOnlyOnHostReads : Obligations.FaultsOnlyOnHostReads := by
  intro s r hinv h
  obtain ⟨rest, -, hs⟩ | ⟨-, -, hs⟩ | ⟨-, f, rest, hh, hs⟩ | ⟨-, rest, -, hs⟩ | ⟨-, -, w, p, rest, -, hs⟩ | ⟨-, -, hs⟩ :=
    step_cases s
  all_goals rw [hs] at h
  · cases h
  · cases h
  · exact ⟨f, rest, hh, hostRead_fault (s := { s with host := rest }) h⟩
  · exact absurd h (phaseStep_not_fault (hinv.withHost rest))
  · exact absurd h (accept_not_fault w p)
  · exact absurd h (phaseStep_not_fault hinv)

/-- Settles O53: the block's own step does not look at HOST's moves. -/
theorem waitLeavesOneStep : Obligations.WaitLeavesOneStep := by
  intro s rest hr hh
  rw [step_wait hr hh, step_quiet (s := { s with host := [] }) hr rfl]
  exact phaseStep_rehost rest { s with host := [] }

end Sys2Proof.Machine
end

section
/-! PROOFS. The statements about reset and hazards (spec/70_reset_and_hazards.md). First that a DECODE in progress does not
write the response; then what a step of a DECODE consumes and how far that raises the bound on its requests; then the
obligations. -/

open Sys2Proof.Claims

namespace Sys2Proof.Machine

section
variable {n : Nat} {m : HdrRead} {s t : State}

/-! ## The response is written only at the end of a command -/

theorem enterPayload_rsp (h : enterPayload s = .next t) : t.phase = .idle ∨ t.rsp = s.rsp := by
  obtain ⟨_, -, ⟨-, h⟩ | ⟨-, rfl⟩⟩ := enterPayload_next h
  · exact .inl (complete_phase h)
  · exact .inr rfl

theorem setLength_rsp (h : setLength n s = .next t) : t.phase = .idle ∨ t.rsp = s.rsp := by
  obtain ⟨-, rfl⟩ | ⟨-, h⟩ := afterLength_next (setLength_next h).2
  · exact .inr rfl
  · exact enterPayload_rsp (s := { s with len := some (BitVec.ofNat 32 n) }) h

theorem runHeader_rsp {op : Opcode} {fin masked : Bool} {len7 : Len7} (h : runHeader op fin masked len7 s = .next t) :
    t.phase = .idle ∨ t.rsp = s.rsp := by
  obtain ⟨-, rfl⟩ | ⟨-, h⟩ := runHeader_next h
  · exact .inr rfl
  · exact setLength_rsp (s := latchHeader op fin masked len7 s) h

theorem partStep_rsp {e : FrameError} {use : Bytes → State → Result}
    (huse : ∀ b s', use b s' = .next t → t.phase = .idle ∨ t.rsp = s'.rsp) (h : partStep n e s use = .next t) :
    t.phase = .idle ∨ t.rsp = s.rsp := by
  obtain hr | ⟨s', -, h⟩ | ⟨b, s', hr, -, h⟩ := partStep_next h
  · exact .inr (readPart_readStep (.inl hr)).rsp
  · exact .inl (raiseError_phase h)
  · rw [← (readPart_readStep (.inr (.inr ⟨b, hr⟩))).rsp]
    exact huse b s' h

theorem payloadStep_rsp (h : payloadStep s = .next t) : t.phase = .idle ∨ t.rsp = s.rsp := by
  obtain ⟨_, -, s', hs, ⟨-, rfl⟩ | ⟨-, h⟩ | ⟨_, -, -, ⟨-, h⟩ | ⟨-, rfl⟩⟩⟩ := payloadStep_next h
  · exact .inr hs.rsp
  · exact .inl (raiseError_phase h)
  · exact .inl (complete_phase h)
  · exact .inr hs.rsp

/-- The block's own step ends in IDLE or does not write the response (R271). -/
theorem phaseStep_rsp (h : phaseStep s = .next t) : t.phase = .idle ∨ t.rsp = s.rsp := by
  match hp : s.phase with
  | .idle => rw [phaseStep_idle hp] at h; cases h; exact .inr rfl
  | .dHdr => rw [phaseStep_dHdr hp] at h; exact partStep_rsp (fun b s' => runHeader_rsp (s := { s' with hdr := b })) h
  | .dExt =>
    match hl : s.len7 with
    | none => rw [phaseStep_dExt_fault hp hl] at h; cases h
    | some l => rw [phaseStep_dExt hp hl] at h; exact partStep_rsp (fun _ _ => setLength_rsp) h
  | .dKey =>
    rw [phaseStep_dKey hp] at h
    exact partStep_rsp (fun b s' => enterPayload_rsp (s := { s' with key := some (keyOf b) })) h
  | .dPay => rw [phaseStep_dPay hp] at h; exact payloadStep_rsp h

/-! ## The bound on the requests of a DECODE -/

/-- The answered requests that a header part of `n` bytes can take: one under SINGLE_SHOT, one for each byte under LOOP. -/
def partRequests : HdrRead → Nat → Nat
  | .singleShot, _ => 1
  | .loop, n => n

/-- The answered requests that the parts before a phase can have taken. -/
def requestsBefore (m : HdrRead) : Phase → Nat
  | .idle | .dHdr => 0
  | .dExt => partRequests m 2
  | .dKey => partRequests m 2 + partRequests m 8
  | .dPay => partRequests m 2 + partRequests m 8 + partRequests m 4

/-- The answered requests that a DECODE can have taken so far: each beyond those of the parts before has brought a byte
of the part or of the payload. -/
def requestLimit (m : HdrRead) (s : State) : Nat := requestsBefore m s.phase + s.part.length + s.buf.length

theorem partRequests_mono (m : HdrRead) {k n : Nat} (h : k ≤ n) : partRequests m k ≤ partRequests m n := by
  cases m with
  | singleShot => exact le_rfl
  | loop => exact h

/-- An extension has at most 8 bytes (R115). -/
theorem extSize_le (l : Len7) : extSize l ≤ 8 := by
  obtain ⟨-, he⟩ | ⟨-, he⟩ | ⟨-, he⟩ := extSize_cases l <;> omega

/-- A part that has not arrived has taken fewer requests than it can. -/
theorem PartUnder.part_length_lt (h : PartUnder n s) : s.part.length < partRequests s.cfg.hdrRead n := by
  cases hc : s.cfg.hdrRead with
  | singleShot => rw [h.2 hc]; exact Nat.zero_lt_one
  | loop => exact h.1

/-! ## What a step of a DECODE consumes -/

/-- STREAM did not answer, and at most an answer that is late has gone by (R201). -/
def Unanswered (s t : State) : Prop := ¬ Answers s ∧ ∃ p, t = { s with plan := p }

/-- At least one byte has been consumed, and the bound on the requests has been raised (R276). -/
structure Progress (s t : State) : Prop where
  consumed : t.stream.length < s.stream.length
  limit : requestLimit s.cfg.hdrRead s < requestLimit s.cfg.hdrRead t

theorem streamRead_held_unanswered (h : streamRead n s = .held t) : Unanswered s t := by
  obtain ⟨-, ⟨hp, rfl⟩ | ⟨c, hp, rfl⟩⟩ := streamRead_held h
  · exact ⟨by simp [Answers, hp], _, rfl⟩
  · exact ⟨by simp [Answers, hp], _, rfl⟩

theorem streamRead_data_consumed {b : Bytes} (h : streamRead n s = .data b t) (hb : b ≠ []) :
    t.stream.length < s.stream.length := by
  obtain ⟨-, p, k, -, rfl, rfl⟩ := streamRead_data h
  have hk : k ≠ 0 := by rintro rfl; exact hb rfl
  have hs : 0 < s.stream.length := List.length_pos_iff.mpr fun h0 => hb (by simp [h0])
  simp only [List.length_drop]
  omega

/-- A part read that stays without an answer, or under LOOP with some bytes of the part. -/
theorem readPart_stay_progress (h : readPart n s = .stay t) : Unanswered s t ∨ Progress s t := by
  match hr : streamRead (partRequest n s) s with
  | .held s' =>
    cases (readPart_of_held hr).symm.trans h
    exact .inl (streamRead_held_unanswered hr)
  | .err s' => cases (readPart_of_err hr).symm.trans h
  | .noRequest => cases (readPart_of_noRequest hr).symm.trans h
  | .data [] s' => cases (readPart_of_noBytes hr).symm.trans h
  | .data (x :: xs) s' =>
    have hlt := streamRead_data_consumed hr (List.cons_ne_nil x xs)
    cases hc : s.cfg.hdrRead with
    | singleShot =>
      rw [partRequest_singleShot hc] at hr
      rw [readPart_singleShot_data hc hr] at h
      split at h <;> cases h
    | loop =>
      rw [partRequest_loop hc] at hr
      rw [readPart_loop_data hc hr (List.cons_ne_nil x xs)] at h
      split at h <;> cases h
      obtain ⟨-, p, k, -, -, rfl⟩ := streamRead_data hr
      exact .inr ⟨hlt, by simp [requestLimit]⟩

/-- A part step makes progress when the part has arrived and its use goes to a phase that comes after the part. -/
theorem partStep_progress {e : FrameError} {use : Bytes → State → Result} (hu : PartUnder n s) (hb : s.buf = [])
    (huse : ∀ b s', use b s' = .next t → t.stream = s'.stream ∧ (t.phase = .idle ∨
      requestsBefore s.cfg.hdrRead s.phase + partRequests s.cfg.hdrRead n ≤ requestsBefore s.cfg.hdrRead t.phase))
    (h : partStep n e s use = .next t) : t.phase = .idle ∨ Unanswered s t ∨ Progress s t := by
  obtain hr | ⟨s', -, h⟩ | ⟨b, s', hr, hlen, h⟩ := partStep_next h
  · exact .inr (readPart_stay_progress hr)
  · exact .inl (raiseError_phase h)
  · obtain ⟨hx, ht | hbefore⟩ := huse b s' h
    · exact .inl ht
    · have hbytes := congrArg List.length (readPart_got_bytes hu hr)
      have hlt := hu.1
      have hpart := hu.part_length_lt
      simp only [List.length_append] at hbytes
      refine .inr (.inr ⟨by rw [hx]; omega, ?_⟩)
      simp only [requestLimit, hb, List.length_nil]
      omega

theorem payloadStep_progress (h : payloadStep s = .next t) : t.phase = .idle ∨ Unanswered s t ∨ Progress s t := by
  obtain ⟨len, -, s', -, ⟨hr, rfl⟩ | ⟨-, h⟩ | ⟨b, hb, hr, ⟨-, h⟩ | ⟨-, rfl⟩⟩⟩ := payloadStep_next h
  · exact .inr (.inl (streamRead_held_unanswered hr))
  · exact .inl (raiseError_phase h)
  · exact .inl (complete_phase h)
  · have hlt := streamRead_data_consumed hr hb
    have hpos : 0 < b.length := List.length_pos_iff.mpr hb
    obtain ⟨-, p, k, -, -, rfl⟩ := streamRead_data hr
    refine .inr (.inr ⟨hlt, ?_⟩)
    simp only [requestLimit, List.length_append]
    omega

/-- A step of a DECODE ends it, is not answered, or makes progress. -/
theorem phaseStep_progress (hinv : Inv s) (hb : s.phase ≠ .idle) (h : phaseStep s = .next t) :
    t.phase = .idle ∨ Unanswered s t ∨ Progress s t := by
  match hp : s.phase with
  | .idle => exact absurd hp hb
  | .dHdr =>
    obtain ⟨hreg, hu, -⟩ := (phaseInv_dHdr hp).mp hinv.inPhase
    rw [phaseStep_dHdr hp] at h
    refine partStep_progress hu hreg.buf (fun b s' h => ⟨(runHeader_same (s := { s' with hdr := b }) h).stream, ?_⟩) h
    obtain ht | ht | ht | ht := runHeader_phase h <;> simp [ht, hp, requestsBefore, Nat.add_assoc]
  | .dExt =>
    obtain ⟨-, ⟨l, hl, hu⟩, -, -, hbuf, -⟩ := (phaseInv_dExt hp).mp hinv.inPhase
    rw [phaseStep_dExt hp hl] at h
    refine partStep_progress hu hbuf (fun b s' h => ⟨(setLength_same h).stream, ?_⟩) h
    have hext := partRequests_mono s.cfg.hdrRead (extSize_le l)
    obtain ht | ht | ht := setLength_phase h
    · exact .inl ht
    all_goals
      simp only [ht, hp, requestsBefore]
      omega
  | .dKey =>
    obtain ⟨-, -, -, hu, -, hbuf, -⟩ := (phaseInv_dKey hp).mp hinv.inPhase
    rw [phaseStep_dKey hp] at h
    refine partStep_progress hu hbuf (fun b s' h => ?_) h
    refine ⟨(enterPayload_same (s := { s' with key := some (keyOf b) }) h).stream, ?_⟩
    obtain ht | ht := enterPayload_phase h <;> simp [ht, hp, requestsBefore]
  | .dPay => rw [phaseStep_dPay hp] at h; exact payloadStep_progress h

/-! ## The requests of a run -/

/-- A step reads the stream at most once (R57). -/
theorem BlockStep.requests_length_le (h : BlockStep s t) : t.requests.length ≤ s.requests.length + 1 := by
  obtain ⟨_, -, ⟨hq, -⟩ | ⟨k, -, -, hq⟩⟩ := h.consumed <;> simp [hq]

/-- A run of a DECODE that had `S` before it and started when `r` requests had been answered: while it is in progress, its
own answered requests are within the limit. -/
structure BoundedRun (S : Bytes) (m : HdrRead) (r : Nat) (s : State) : Prop extends DecodeRun S s where
  mode : s.cfg.hdrRead = m
  bounded : s.phase ≠ .idle → s.requests.length ≤ r + requestLimit m s

theorem BoundedRun.step {S : Bytes} {r : Nat} (h : BoundedRun S m r s) (hs : step s = .next t) : BoundedRun S m r t := by
  have hrun := h.toDecodeRun.step hs
  rw [step_quiet h.unmarked h.alone] at hs
  have hblock := phaseStep_block hs
  refine ⟨hrun, by rw [hblock.cfg, h.mode], fun ht => ?_⟩
  obtain hidle | ⟨hb, -⟩ := phaseStep_forward hs
  · exact absurd hidle ht
  · have hle := h.bounded hb
    obtain hidle | ⟨-, p, rfl⟩ | hprog := phaseStep_progress h.inv hb hs
    · exact absurd hidle ht
    · exact hle
    · have hone := hblock.requests_length_le
      have hlimit := hprog.limit
      rw [h.mode] at hlimit
      omega

/-- The limit is never above the requests of the three header parts and one for each byte of `buf`. -/
theorem requestLimit_le (hinv : Inv s) :
    requestLimit s.cfg.hdrRead s ≤ requestsBefore s.cfg.hdrRead .dPay + s.buf.length := by
  match hp : s.phase with
  | .idle =>
    have hreg := (phaseInv_idle hp).mp hinv.inPhase
    simp [requestLimit, hp, requestsBefore, hreg.part]
  | .dHdr =>
    obtain ⟨-, hu, -⟩ := (phaseInv_dHdr hp).mp hinv.inPhase
    have hpart := hu.part_length_lt
    simp only [requestLimit, hp, requestsBefore]
    omega
  | .dExt =>
    obtain ⟨-, ⟨l, -, hu⟩, -⟩ := (phaseInv_dExt hp).mp hinv.inPhase
    have hpart := hu.part_length_lt
    have hext := partRequests_mono s.cfg.hdrRead (extSize_le l)
    simp only [requestLimit, hp, requestsBefore]
    omega
  | .dKey =>
    obtain ⟨-, -, -, hu, -⟩ := (phaseInv_dKey hp).mp hinv.inPhase
    have hpart := hu.part_length_lt
    simp only [requestLimit, hp, requestsBefore]
    omega
  | .dPay =>
    obtain ⟨-, -, -, -, hpart, -⟩ := (phaseInv_dPay hp).mp hinv.inPhase
    simp [requestLimit, hp, hpart]

end

/-! ## The obligations -/

/-- Settles O33: of HOST's other moves none writes the response of an IDLE block, and a DECODE writes it in the step that
ends it. -/
theorem responseLasts : Obligations.ResponseLasts := by
  refine fun s t h => ⟨fun hi hoffer hreset => ?_, fun hb ht => ?_⟩
  · obtain ⟨rest, hh, -⟩ | ⟨-, -, hs⟩ | ⟨-, f, rest, -, hs⟩ | ⟨-, rest, -, hs⟩ | ⟨-, -, w, p, rest, hh, -⟩ | ⟨-, -, hs⟩ :=
      step_cases s
    · exact absurd hh (hreset rest)
    · rw [hs] at h; cases h
    · rw [hs] at h; cases hostRead_next h; rfl
    · rw [hs, phaseStep_idle (by exact hi)] at h; cases h; rfl
    · exact absurd hh (hoffer w p rest)
    · rw [hs, phaseStep_idle hi] at h; cases h; rfl
  · obtain ⟨rest, rfl⟩ | ⟨rest, rfl⟩ | ⟨moves, h⟩ | ⟨hi, -⟩ := step_next h
    · exact absurd rfl ht
    · rfl
    · exact (phaseStep_rsp h).resolve_left ht
    · exact absurd hi hb

/-- Settles O48: the block's own step does not fault, and one that STREAM answers ends the command or makes progress. -/
theorem decodeStepProgress : Obligations.DecodeStepProgress := by
  intro s hinv hb hr hw ha
  rw [step_waits hr hb hw]
  match hs : phaseStep s with
  | .refused q => exact .inl ⟨q, rfl⟩
  | .fault f => exact absurd hs (phaseStep_not_fault hinv)
  | .next t =>
    obtain ht | ⟨hna, -⟩ | hprog := phaseStep_progress hinv hb hs
    · exact .inr ⟨t, rfl, .inl ht⟩
    · exact absurd ha hna
    · exact .inr ⟨t, rfl, .inr hprog.consumed⟩

/-- Settles O49: every step of the DECODE keeps its requests within its limit. -/
theorem decodeReadsBounded : Obligations.DecodeReadsBounded := by
  intro n s t hinv hp hpart hr hh hrun hb
  have hstart : BoundedRun s.stream s.cfg.hdrRead s.requests.length s :=
    ⟨⟨hinv, hr, hh, (accounted_dHdr hp).mpr (by rw [hpart]; rfl)⟩, rfl, fun _ => Nat.le_add_right _ _⟩
  have hend : BoundedRun s.stream s.cfg.hdrRead s.requests.length t := runsTo_keeps (fun _ _ => BoundedRun.step) hstart hrun
  have hwithin := hend.bounded hb
  have hlimit := requestLimit_le hend.inv
  rw [hend.mode] at hlimit
  have hbound : t.requests.length ≤ s.requests.length + requestsBefore s.cfg.hdrRead .dPay + t.buf.length := by omega
  refine ⟨fun hm => ?_, fun hm => ?_, fun ht => ?_⟩
  · rw [hm] at hbound; exact hbound
  · rw [hm] at hbound; exact hbound
  · obtain ⟨-, -, hlen, -⟩ := (phaseInv_dPay ht).mp hend.inv.inPhase
    exact hlen

/-- Settles O6: the offered command is accepted, and its row is the one its word decodes to. -/
theorem stepRunsOfferedCommand : Obligations.StepRunsOfferedCommand := fun s _ _ rest _ hi hr hh hdec =>
  (step_offer hr hh hi).trans (accept_of_ok (s := { s with host := rest }) hdec)

/-- Settles O35: HOST's reset is `resetBlock`, and `State.reset` already is what a reset leaves. -/
theorem resetFromAnyPhase : Obligations.ResetFromAnyPhase := fun _ => ⟨fun _ hh => step_reset hh, rfl, rfl⟩

/-- Settles O54: an IDLE block's own step changes nothing. -/
theorem idleBlockWaits : Obligations.IdleBlockWaits := fun s hi hr =>
  ⟨fun hh => (step_quiet hr hh).trans (phaseStep_idle hi),
   fun rest hh => (step_wait hr hh).trans (phaseStep_idle (s := { s with host := rest }) hi)⟩

end Sys2Proof.Machine
end
